-- ==== Sys2Proof/Word.lean ====
section
/-! DEFINITION. The widths of the hardware's words and the name of its two variants. -/

namespace Sys2Proof

/-- A byte, the unit of the spaces HB, OB and IN (20_memory R60). -/
abbrev Byte := BitVec 8

/-- A command or response word, 32 bits (30_encoding R91, R93). -/
abbrev Word := BitVec 32

/-- The Protocol Variant (00_scope R2): `v8k` has the 8192-byte dictionary, `v64k` the 65536-byte one. -/
inductive Variant where
  | v8k
  | v64k
deriving DecidableEq, Repr

end Sys2Proof
end

