-- ==== Sys2Proof/Config.lean ====
section
/-! DEFINITION. What an implementation fixes (the parameters of 00_scope R7) and the free values of 10_state R55. -/

namespace Sys2Proof

/-- One BA.EMIT: a code and its width, which 42 R182 keeps in 1..16 (the proof field makes any other width inexpressible). -/
structure Emit where
  code : Nat
  width : Nat
  inDomain : 1 ≤ width ∧ width ≤ 16 := by decide
deriving DecidableEq, Repr

namespace Config

/-- `CAP`: dictionary capacity in bytes, also the largest legal chunk (R7, fixed by the source). -/
def cap : Variant → Nat
  | .v8k => 8192
  | .v64k => 65536

/-- `OFFW`: width of the value field of the widest offset band (R7, fixed by the source), and of `m_d` (10_state R21). -/
def offw : Variant → Nat
  | .v8k => 13
  | .v64k => 16

/-- The default `MAXLEN` (R7, R99): the largest length that the length bands of the variant's default table code. -/
def defaultMaxLen : Variant → Nat
  | .v8k => 8191
  | .v64k => 65535

/-! ### The open parameters, as plain data (R7, 93 U16) -/

/-- The parameter `CodeTable` of a variant (30_encoding R100): the three constants, and the codes that replace the default
table's, as (byte value, emits), (distance, emits) and (length, emits) pairs; where a list has no pair the default table's
code stands. Every table over the finite domains of R100 is such a record (log 3). -/
structure TableParams where
  minLen : Nat
  maxLen : Nat
  maxOff : Nat
  lit : List (Nat × List Emit)
  off : List (Nat × List Emit)
  len : List (Nat × List Emit)
deriving DecidableEq, Repr

/-- R7's constraints on the constants of a table: `1 ≤ MINLEN ≤ 3`, `MAXLEN ≥ MINLEN`, `MAXOFF ≤ CAP − 1`. -/
def TableParams.legal (t : TableParams) (v : Variant) : Bool :=
  decide (1 ≤ t.minLen) && decide (t.minLen ≤ 3) && decide (t.minLen ≤ t.maxLen) && decide (t.maxOff + 1 ≤ cap v)

/-- The parameters of R7 that an instance is built with. `hashCodes` replaces values of the default `hash3`, as pairs of
`b0·2^16 + b1·2^8 + b2` and the value (log 3). -/
structure Params where
  obCap8K : Nat
  obCap64K : Nat
  maxCap : Nat
  hashBits : Nat
  hashCodes : List (Nat × Nat)
  loffw : Nat
  table8K : TableParams
  table64K : TableParams
deriving DecidableEq, Repr

/-- The constraints that R7 says a model must check, for each variant the instance has memory for: `OB_CAP ≥ CAP`,
`2^LOFFW > 2·CAP`, and those on the table's constants. (`CAP` is one of the two source values by `cap`; that the table is
well-formed, R101, is a hypothesis of statements, as 92 D29 says: `Sys2Proof.Safety.TableWellFormed`.) -/
def Params.legal (p : Params) : Bool :=
  (decide (p.maxCap < 8192) || (decide (8192 ≤ p.obCap8K) && decide (16384 < 2 ^ p.loffw))) &&
    (decide (p.maxCap < 65536) || (decide (65536 ≤ p.obCap64K) && decide (131072 < 2 ^ p.loffw))) &&
    p.table8K.legal .v8k && p.table64K.legal .v64k

/-- The parameters of a built instance. They are plain data of the state, so that statements range over every value of them,
and no step changes them; illegal ones are refused at configuration time: the proof field makes them inexpressible (log 4). -/
structure Build extends Params where
  checked : toParams.legal = true := by decide
deriving DecidableEq, Repr

/-- The default table of a variant (R102, R103): no code replaced. -/
def defaultTable (v : Variant) : TableParams :=
  { minLen := 3, maxLen := defaultMaxLen v, maxOff := cap v - 1, lit := [], off := [], len := [] }

/-- The defaults of R7. -/
def defaultBuild : Build :=
  { obCap8K := 9216, obCap64K := 73728, maxCap := 65536, hashBits := 12, hashCodes := [], loffw := 32
    table8K := defaultTable .v8k, table64K := defaultTable .v64k }

/-- `OB_CAP` of a variant. -/
def obCap (p : Build) : Variant → Nat
  | .v8k => p.obCap8K
  | .v64k => p.obCap64K

/-- The table parameters of a variant. -/
def table (p : Build) : Variant → TableParams
  | .v8k => p.table8K
  | .v64k => p.table64K

/-- `MINLEN` (R7, R162). -/
def minLen (p : Build) (v : Variant) : Nat := (table p v).minLen

/-- `MAXLEN` (R7, R161). -/
def maxLen (p : Build) (v : Variant) : Nat := (table p v).maxLen

/-- `MAXOFF` (R7, R158). -/
def maxOff (p : Build) (v : Variant) : Nat := (table p v).maxOff

/-- `2^LOFFW` (R7, R29, R222). -/
def offLimit (p : Build) : Nat := 2 ^ p.loffw

/-- `2^HASH_BITS` (R7, R31). -/
def htSize (p : Build) : Nat := 2 ^ p.hashBits

/-! ### Free values -/

/-- The `k`-th free value of width `w`: what a register holds that the spec calls unspecified after CREATE, DESTROY, a fatal
overflow or a hardware reset (10_state R50, R55; 60_exceptions R248). Nothing is known of it (log 8). -/
opaque freeBits : (w k : Nat) → BitVec w

/-- What a host read of the output buffer outside the borrowed span returns (70 R284, 10_state R55), for the free
value's number and the address read. Nothing is known of it (log 10). -/
opaque freeRead : Nat → Nat → Byte

end Config

end Sys2Proof
end

