-- ==== Sys2Proof/Syntax.lean ====
section
/-! DEFINITION. The instructions: one constructor for each row of spec/opcode_table.json. -/

namespace Sys2Proof

/-- The three commands the host issues (30_encoding R91) and the 24 token formats the Token Encoder selects and executes
(R97, R98, R99). A field is the value field of the encoding, as the encoding holds it. -/
inductive Instr where
  /-- CREATE, R216: the raw `variant_code`. -/
  | create (variantCode : BitVec 2)
  /-- COMPRESS, R219: `flush_req` and `len`. -/
  | compress (flushReq : Bool) (len : BitVec 17)
  /-- DESTROY, R231. -/
  | destroy
  /-- LIT7, R97: a byte below 0x80, its low 7 bits. -/
  | lit7 (b : BitVec 7)
  /-- LIT8, R97: a byte from 0x80 on, its low 7 bits. -/
  | lit8 (b : BitVec 7)
  /-- OFF8K_A, R98: `d`. -/
  | off8kA (d : BitVec 6)
  /-- OFF8K_B, R98: `d − 64`. -/
  | off8kB (d : BitVec 8)
  /-- OFF8K_C, R98: `d − 320`. -/
  | off8kC (d : BitVec 13)
  /-- OFF64K_A, R98: `d`. -/
  | off64kA (d : BitVec 6)
  /-- OFF64K_B, R98: `d − 64`. -/
  | off64kB (d : BitVec 8)
  /-- OFF64K_C, R98: `d − 320`. -/
  | off64kC (d : BitVec 11)
  /-- OFF64K_D, R98: `d − 2368`. -/
  | off64kD (d : BitVec 16)
  /-- LEN_3, R99: `L = 3`. -/
  | len3
  /-- LEN_4, R99: `L − 4`. -/
  | len4 (v : BitVec 2)
  /-- LEN_8, R99: `L − 8`. -/
  | len8 (v : BitVec 3)
  /-- LEN_16, R99: `L − 16`. -/
  | len16 (v : BitVec 4)
  /-- LEN_32, R99: `L − 32`. -/
  | len32 (v : BitVec 5)
  /-- LEN_64, R99: `L − 64`. -/
  | len64 (v : BitVec 6)
  /-- LEN_128, R99: `L − 128`. -/
  | len128 (v : BitVec 7)
  /-- LEN_256, R99: `L − 256`. -/
  | len256 (v : BitVec 8)
  /-- LEN_512, R99: `L − 512`. -/
  | len512 (v : BitVec 9)
  /-- LEN_1024, R99: `L − 1024`. -/
  | len1024 (v : BitVec 10)
  /-- LEN_2048, R99: `L − 2048`. -/
  | len2048 (v : BitVec 11)
  /-- LEN_4096, R99: `L − 4096`. -/
  | len4096 (v : BitVec 12)
  /-- LEN_8192, R99, V64K only: `L − 8192`. -/
  | len8192 (v : BitVec 13)
  /-- LEN_16384, R99, V64K only: `L − 16384`. -/
  | len16384 (v : BitVec 14)
  /-- LEN_32768, R99, V64K only: `L − 32768`. -/
  | len32768 (v : BitVec 15)
deriving DecidableEq, Repr

end Sys2Proof
end

