-- ==== Sys2Proof/WellFormed.lean ====
section
/-! DEFINITION. Which instructions are well-formed: the code space that 30_encoding R109 says the encoder never produces is
excluded; every other value of every field is legal. -/

namespace Sys2Proof

/-- Well-formedness (R91, R98, R109). Offset band A excludes `d < 3` (R109 (a)); the widest bands exclude distances above
`MAXOFF` (R109 (b)). `variant_code` 2 and 3 and every `len` are legal encodings (R108). -/
def Instr.wf : Instr → Bool
  | .create _ => true
  | .compress _ _ => true
  | .destroy => true
  | .lit7 _ => true
  | .lit8 _ => true
  | .off8kA d => decide (3 ≤ d.toNat)
  | .off8kB _ => true
  | .off8kC d => decide (d.toNat ≤ 7871)
  | .off64kA d => decide (3 ≤ d.toNat)
  | .off64kB _ => true
  | .off64kC _ => true
  | .off64kD d => decide (d.toNat ≤ 63167)
  | .len3 => true
  | .len4 _ => true
  | .len8 _ => true
  | .len16 _ => true
  | .len32 _ => true
  | .len64 _ => true
  | .len128 _ => true
  | .len256 _ => true
  | .len512 _ => true
  | .len1024 _ => true
  | .len2048 _ => true
  | .len4096 _ => true
  | .len8192 _ => true
  | .len16384 _ => true
  | .len32768 _ => true

end Sys2Proof
end

