-- ==== Sys2Proof/Decode.lean ====
section
/-! DEFINITION. The decoder of command words and token bit strings, and the encoder, from the tables of 30_encoding. -/

namespace Sys2Proof

/-! ### Bit strings: most significant bit first, in emission order (00_scope R12, R13) -/

/-- The low `w` bits of `v` as a bit string, bit `w − 1` first. -/
def natBits : Nat → Nat → List Bool
  | 0, _ => []
  | w + 1, v => v.testBit w :: natBits w v

/-- The first `w` bits of a bit string as a number, and the rest; `none` where there are fewer than `w`. -/
def takeNat : Nat → List Bool → Option (Nat × List Bool)
  | 0, bs => some (0, bs)
  | _ + 1, [] => none
  | w + 1, b :: bs =>
    match takeNat w bs with
    | some (v, rest) => some (b.toNat * 2 ^ w + v, rest)
    | none => none

/-- The number of leading one-bits, and what follows the zero-bit that ends them; `none` where no zero-bit comes. -/
def unaryRun : List Bool → Option (Nat × List Bool)
  | [] => none
  | false :: bs => some (0, bs)
  | true :: bs =>
    match unaryRun bs with
    | some (k, rest) => some (k + 1, rest)
    | none => none

/-! ### Decoding -/

/-- Why a bit string is no instruction. -/
inductive DecodeError where
  /-- The bits end inside a codeword or a command word. -/
  | truncated
  /-- A command word that matches no match/mask pair (R108). -/
  | illegalCommand
  /-- A run of one-bits longer than the variant's last length band (R109 (c)). -/
  | noLengthBand
deriving DecidableEq, Repr

/-- Where a codeword stands. A command stands on the command port; a token of the span is read from its first bits, and a
length code follows an offset code (R106). The variant is the only mode that changes decoding (R107). -/
inductive Position where
  | command
  | token (v : Variant)
  | length (v : Variant)
deriving DecidableEq, Repr

/-- What a decoder answers: an instruction and the bits after it, or an error. -/
abbrev Decoded := Except DecodeError (Instr × List Bool)

/-- The command word's three match/mask pairs (R92); any other word is illegal (R108). -/
def decodeCommand (c : Word) : Except DecodeError Instr :=
  if c &&& 0xE7FFFFFF#32 = 0x00000000#32 then .ok (.create (c.extractLsb' 27 2))
  else if c &&& 0xDFFE0000#32 = 0x40000000#32 then .ok (.compress (c.getLsbD 29) (c.extractLsb' 0 17))
  else if c &&& 0xFFFFFFFF#32 = 0x80000000#32 then .ok .destroy
  else .error .illegalCommand

/-- Reads a value field of `w` bits. -/
def decodeField (w : Nat) (mk : BitVec w → Instr) (bs : List Bool) : Decoded :=
  match takeNat w bs with
  | some (v, rest) => .ok (mk (BitVec.ofNat w v), rest)
  | none => .error .truncated

/-- The first code of a token: a literal (R97) or an offset code (R98), by the token starts of R102 and R103. -/
def decodeToken : Variant → List Bool → Decoded
  | _, false :: r => decodeField 7 .lit7 r
  | _, true :: false :: r => decodeField 7 .lit8 r
  | .v8k, true :: true :: false :: r => decodeField 13 .off8kC r
  | .v8k, true :: true :: true :: false :: r => decodeField 8 .off8kB r
  | .v8k, true :: true :: true :: true :: r => decodeField 6 .off8kA r
  | .v64k, true :: true :: false :: r => decodeField 16 .off64kD r
  | .v64k, true :: true :: true :: false :: r => decodeField 11 .off64kC r
  | .v64k, true :: true :: true :: true :: false :: r => decodeField 8 .off64kB r
  | .v64k, true :: true :: true :: true :: true :: r => decodeField 6 .off64kA r
  | _, _ => .error .truncated

/-- The bands that only V64K has (R99). -/
def decodeLongLength (v : Variant) (w : Nat) (mk : BitVec w → Instr) (bs : List Bool) : Decoded :=
  match v with
  | .v8k => .error .noLengthBand
  | .v64k => decodeField w mk bs

/-- A length code: `k − 1` one-bits, a zero-bit, `k` value bits (R99). -/
def decodeLength (v : Variant) (bs : List Bool) : Decoded :=
  match unaryRun bs with
  | none => .error .truncated
  | some (0, r) => .ok (.len3, r)
  | some (1, r) => decodeField 2 .len4 r
  | some (2, r) => decodeField 3 .len8 r
  | some (3, r) => decodeField 4 .len16 r
  | some (4, r) => decodeField 5 .len32 r
  | some (5, r) => decodeField 6 .len64 r
  | some (6, r) => decodeField 7 .len128 r
  | some (7, r) => decodeField 8 .len256 r
  | some (8, r) => decodeField 9 .len512 r
  | some (9, r) => decodeField 10 .len1024 r
  | some (10, r) => decodeField 11 .len2048 r
  | some (11, r) => decodeField 12 .len4096 r
  | some (12, r) => decodeLongLength v 13 .len8192 r
  | some (13, r) => decodeLongLength v 14 .len16384 r
  | some (14, r) => decodeLongLength v 15 .len32768 r
  | some (_, _) => .error .noLengthBand

/-- The decoder: total on any bit string, at any position. It reads the fields as they stand; the code space that R109
calls unused is told apart by `Instr.wf` (log 13). -/
def decode : Position → List Bool → Decoded
  | .command, bs =>
    match takeNat 32 bs with
    | none => .error .truncated
    | some (c, rest) =>
      match decodeCommand (BitVec.ofNat 32 c) with
      | .ok i => .ok (i, rest)
      | .error e => .error e
  | .token v, bs => decodeToken v bs
  | .length v, bs => decodeLength v bs

/-- The positions at which an instruction can stand (R106, R107). -/
def Instr.fits : Instr → Position → Bool
  | .create _, p => decide (p = .command)
  | .compress _ _, p => decide (p = .command)
  | .destroy, p => decide (p = .command)
  | .lit7 _, p => decide (p = .token .v8k ∨ p = .token .v64k)
  | .lit8 _, p => decide (p = .token .v8k ∨ p = .token .v64k)
  | .off8kA _, p => decide (p = .token .v8k)
  | .off8kB _, p => decide (p = .token .v8k)
  | .off8kC _, p => decide (p = .token .v8k)
  | .off64kA _, p => decide (p = .token .v64k)
  | .off64kB _, p => decide (p = .token .v64k)
  | .off64kC _, p => decide (p = .token .v64k)
  | .off64kD _, p => decide (p = .token .v64k)
  | .len3, p => decide (p = .length .v8k ∨ p = .length .v64k)
  | .len4 _, p => decide (p = .length .v8k ∨ p = .length .v64k)
  | .len8 _, p => decide (p = .length .v8k ∨ p = .length .v64k)
  | .len16 _, p => decide (p = .length .v8k ∨ p = .length .v64k)
  | .len32 _, p => decide (p = .length .v8k ∨ p = .length .v64k)
  | .len64 _, p => decide (p = .length .v8k ∨ p = .length .v64k)
  | .len128 _, p => decide (p = .length .v8k ∨ p = .length .v64k)
  | .len256 _, p => decide (p = .length .v8k ∨ p = .length .v64k)
  | .len512 _, p => decide (p = .length .v8k ∨ p = .length .v64k)
  | .len1024 _, p => decide (p = .length .v8k ∨ p = .length .v64k)
  | .len2048 _, p => decide (p = .length .v8k ∨ p = .length .v64k)
  | .len4096 _, p => decide (p = .length .v8k ∨ p = .length .v64k)
  | .len8192 _, p => decide (p = .length .v64k)
  | .len16384 _, p => decide (p = .length .v64k)
  | .len32768 _, p => decide (p = .length .v64k)

/-! ### Encoding -/

/-- `k` one-bits and the zero-bit that ends them: the start of a length code (R99) and of an offset code (R98). -/
def onesZero (k : Nat) : List Bool := List.replicate k true ++ [false]

/-- The command word of a command (R91): `op`, `flush_req`, `variant_code`, `len`. -/
def commandWord (op flushReq variantCode len : Nat) : Nat :=
  op * 2 ^ 30 + flushReq * 2 ^ 29 + variantCode * 2 ^ 27 + len

/-- The encoder: the bits of an instruction, first bit first (R91, R97, R98, R99). A command is its 32-bit word, bit 31
first. -/
def encode : Instr → List Bool
  | .create c => natBits 32 (commandWord 0 0 c.toNat 0)
  | .compress f len => natBits 32 (commandWord 1 f.toNat 0 len.toNat)
  | .destroy => natBits 32 (commandWord 2 0 0 0)
  | .lit7 b => false :: natBits 7 b.toNat
  | .lit8 b => true :: false :: natBits 7 b.toNat
  | .off8kA d => true :: true :: true :: true :: natBits 6 d.toNat
  | .off8kB d => onesZero 3 ++ natBits 8 d.toNat
  | .off8kC d => onesZero 2 ++ natBits 13 d.toNat
  | .off64kA d => true :: true :: true :: true :: true :: natBits 6 d.toNat
  | .off64kB d => onesZero 4 ++ natBits 8 d.toNat
  | .off64kC d => onesZero 3 ++ natBits 11 d.toNat
  | .off64kD d => onesZero 2 ++ natBits 16 d.toNat
  | .len3 => onesZero 0
  | .len4 v => onesZero 1 ++ natBits 2 v.toNat
  | .len8 v => onesZero 2 ++ natBits 3 v.toNat
  | .len16 v => onesZero 3 ++ natBits 4 v.toNat
  | .len32 v => onesZero 4 ++ natBits 5 v.toNat
  | .len64 v => onesZero 5 ++ natBits 6 v.toNat
  | .len128 v => onesZero 6 ++ natBits 7 v.toNat
  | .len256 v => onesZero 7 ++ natBits 8 v.toNat
  | .len512 v => onesZero 8 ++ natBits 9 v.toNat
  | .len1024 v => onesZero 9 ++ natBits 10 v.toNat
  | .len2048 v => onesZero 10 ++ natBits 11 v.toNat
  | .len4096 v => onesZero 11 ++ natBits 12 v.toNat
  | .len8192 v => onesZero 12 ++ natBits 13 v.toNat
  | .len16384 v => onesZero 13 ++ natBits 14 v.toNat
  | .len32768 v => onesZero 14 ++ natBits 15 v.toNat

/-! ### The opcode table's words -/

/-- The instruction that a bit string is, at a position, with no bit left over. -/
def decodeWhole (p : Position) (bs : List Bool) : Option Instr :=
  match decode p bs with
  | .ok (i, []) => some i
  | _ => none

/-- The instruction that the `w`-bit number `x` is: as a command word, else at the start of a token, else as a length
code. The ten-bit strings that are both an OFF8K_A and a LEN_32 read as the former (log 14). -/
def decodeNumber (w x : Nat) : Option Instr :=
  decodeWhole .command (natBits w x) <|> decodeWhole (.token .v8k) (natBits w x) <|>
    decodeWhole (.token .v64k) (natBits w x) <|> decodeWhole (.length .v64k) (natBits w x)

/-- Tries the widths `w`, `w − 1`, … (`k` of them) into which `x` fits. -/
def decodeWidths : Nat → Nat → Nat → Option Instr
  | 0, _, _ => none
  | k + 1, w, x =>
    (if x < 2 ^ w then decodeNumber w x else none) <|> decodeWidths k (w - 1) x

/-- The instruction of a table row whose bits are `w`, `nbits` being the row's width in whole bytes: the row's own width is
`nbits` or up to seven bits less (log 14). -/
def decodeTableWord (nbits w : Nat) : Option Instr := decodeWidths 8 nbits w

end Sys2Proof
end

