-- ==== Sys2Proof/Machine/Cells.lean ====
section
/-! DEFINITION. One sparse store for HB, OB, HT (20_memory R60) and the replaced codes of a table: reading, writing, the canonical
form. -/

namespace Sys2Proof.Machine

/-- What the store holds at an address; `none` where nothing is listed. -/
def readCell {α : Type} (a : Nat) : List (Nat × α) → Option α
  | [] => none
  | (k, v) :: m => if k = a then some v else readCell a m

/-- Writes one unit, keeping the addresses strictly rising. -/
def writeCell {α : Type} (a : Nat) (v : α) : List (Nat × α) → List (Nat × α)
  | [] => [(a, v)]
  | (k, u) :: m =>
    if a < k then (a, v) :: (k, u) :: m
    else if a = k then (a, v) :: m
    else (k, u) :: writeCell a v m

/-- The canonical form of a store: addresses strictly rising. (An unlisted address has no value, so no listed entry can
equal what an unlisted address reads as.) -/
def rising {α : Type} : List (Nat × α) → Bool
  | [] => true
  | [_] => true
  | (a, _) :: (b, v) :: m => decide (a < b) && rising ((b, v) :: m)

end Sys2Proof.Machine
end

