-- ==== Sys2Proof/Machine/CodeTable.lean ====
section
/-! DEFINITION. The space ROM: the default CodeTable (30_encoding R97 to R103) as the token formats it is made of, the emits of
each format, and the CodeTable that an instance is built with (R100). -/

namespace Sys2Proof.Machine

/-- The bits an emit appends: the low `width` bits of `code`, most significant first (R177). -/
def emitString (e : Emit) : List Bool := natBits e.width e.code

/-- The emits of a token format, in order (the "As one emit" and "Emits" columns of R97, R98, R99). A command has none. -/
def emits : Instr → List Emit
  | .create _ => []
  | .compress _ _ => []
  | .destroy => []
  | .lit7 b => [{ code := b.toNat, width := 8 }]
  | .lit8 b => [{ code := 0x100 + b.toNat, width := 9 }]
  | .off8kA d => [{ code := 0x3C0 + d.toNat, width := 10 }]
  | .off8kB d => [{ code := 0xE00 + d.toNat, width := 12 }]
  | .off8kC d => [{ code := 0xC000 + d.toNat, width := 16 }]
  | .off64kA d => [{ code := 0x7C0 + d.toNat, width := 11 }]
  | .off64kB d => [{ code := 0x1E00 + d.toNat, width := 13 }]
  | .off64kC d => [{ code := 0x7000 + d.toNat, width := 15 }]
  | .off64kD d => [{ code := 0x6, width := 3 }, { code := d.toNat, width := 16 }]
  | .len3 => [{ code := 0, width := 1 }]
  | .len4 v => [{ code := 0x8 + v.toNat, width := 4 }]
  | .len8 v => [{ code := 0x30 + v.toNat, width := 6 }]
  | .len16 v => [{ code := 0xE0 + v.toNat, width := 8 }]
  | .len32 v => [{ code := 0x3C0 + v.toNat, width := 10 }]
  | .len64 v => [{ code := 0xF80 + v.toNat, width := 12 }]
  | .len128 v => [{ code := 0x3F00 + v.toNat, width := 14 }]
  | .len256 v => [{ code := 0xFE00 + v.toNat, width := 16 }]
  | .len512 v => [{ code := 0x1FE, width := 9 }, { code := v.toNat, width := 9 }]
  | .len1024 v => [{ code := 0x3FE, width := 10 }, { code := v.toNat, width := 10 }]
  | .len2048 v => [{ code := 0x7FE, width := 11 }, { code := v.toNat, width := 11 }]
  | .len4096 v => [{ code := 0xFFE, width := 12 }, { code := v.toNat, width := 12 }]
  | .len8192 v => [{ code := 0x1FFE, width := 13 }, { code := v.toNat, width := 13 }]
  | .len16384 v => [{ code := 0x3FFE, width := 14 }, { code := v.toNat, width := 14 }]
  | .len32768 v => [{ code := 0x7FFE, width := 15 }, { code := v.toNat, width := 15 }]

/-- The literal format of a byte (R97). -/
def litToken (x : Byte) : Instr :=
  if x.toNat < 0x80 then .lit7 (BitVec.ofNat 7 x.toNat) else .lit8 (BitVec.ofNat 7 x.toNat)

/-- The offset format of a backward offset (R98), `none` outside the bands of the default table. -/
def offToken (v : Variant) (d : Nat) : Option Instr :=
  match v with
  | .v8k =>
    if d = 0 then none
    else if d ≤ 63 then some (.off8kA (BitVec.ofNat 6 d))
    else if d ≤ 319 then some (.off8kB (BitVec.ofNat 8 (d - 64)))
    else if d ≤ 8191 then some (.off8kC (BitVec.ofNat 13 (d - 320)))
    else none
  | .v64k =>
    if d = 0 then none
    else if d ≤ 63 then some (.off64kA (BitVec.ofNat 6 d))
    else if d ≤ 319 then some (.off64kB (BitVec.ofNat 8 (d - 64)))
    else if d ≤ 2367 then some (.off64kC (BitVec.ofNat 11 (d - 320)))
    else if d ≤ 65535 then some (.off64kD (BitVec.ofNat 16 (d - 2368)))
    else none

/-- The length format of a match length (R99), `none` outside the bands of the variant's default table. -/
def lenToken (v : Variant) (l : Nat) : Option Instr :=
  if l < 3 then none
  else if Config.defaultMaxLen v < l then none
  else if l = 3 then some .len3
  else if l < 8 then some (.len4 (BitVec.ofNat 2 (l - 4)))
  else if l < 16 then some (.len8 (BitVec.ofNat 3 (l - 8)))
  else if l < 32 then some (.len16 (BitVec.ofNat 4 (l - 16)))
  else if l < 64 then some (.len32 (BitVec.ofNat 5 (l - 32)))
  else if l < 128 then some (.len64 (BitVec.ofNat 6 (l - 64)))
  else if l < 256 then some (.len128 (BitVec.ofNat 7 (l - 128)))
  else if l < 512 then some (.len256 (BitVec.ofNat 8 (l - 256)))
  else if l < 1024 then some (.len512 (BitVec.ofNat 9 (l - 512)))
  else if l < 2048 then some (.len1024 (BitVec.ofNat 10 (l - 1024)))
  else if l < 4096 then some (.len2048 (BitVec.ofNat 11 (l - 2048)))
  else if l < 8192 then some (.len4096 (BitVec.ofNat 12 (l - 4096)))
  else if l < 16384 then some (.len8192 (BitVec.ofNat 13 (l - 8192)))
  else if l < 32768 then some (.len16384 (BitVec.ofNat 14 (l - 16384)))
  else some (.len32768 (BitVec.ofNat 15 (l - 32768)))

/-- The CodeTable parameter as the rules use it (R100): three functions to lists of emits, and the three bounds. -/
structure CodeTable where
  lit : Byte → List Emit
  off : Nat → List Emit
  len : Nat → List Emit
  minLen : Nat
  maxLen : Nat
  maxOff : Nat

/-- The CodeTable of a variant (R100): the codes that the instance is built with, else the default table's (R102, R103). Outside
its domain a function has no emits. -/
def codeTable (p : Config.Build) (v : Variant) : CodeTable :=
  { lit := fun x => (readCell x.toNat (Config.table p v).lit).getD (emits (litToken x))
    off := fun d =>
      if 1 ≤ d ∧ d ≤ Config.maxOff p v then (readCell d (Config.table p v).off).getD (((offToken v d).map emits).getD []) else []
    len := fun l =>
      if Config.minLen p v ≤ l ∧ l ≤ Config.maxLen p v then
        (readCell l (Config.table p v).len).getD (((lenToken v l).map emits).getD [])
      else []
    minLen := Config.minLen p v
    maxLen := Config.maxLen p v
    maxOff := Config.maxOff p v }

/-- The row of the opcode table whose codeword a table has for a byte, a distance or a length: the default table's format, where
its emits are the ones the table gives; `none` where the instance is built with another code. -/
def rowOf (es : List Emit) (i : Option Instr) : Option Instr := i.filter fun i => decide (emits i = es)

/-- `bits(t)` of R101 (c): the concatenated bit string of an emit list. -/
def emitsString (es : List Emit) : List Bool := es.flatMap emitString

/-- The width of an offset format's value field (R98). -/
def offsetFieldWidth : Instr → Nat
  | .off8kA _ => 6
  | .off8kB _ => 8
  | .off8kC _ => 13
  | .off64kA _ => 6
  | .off64kB _ => 8
  | .off64kC _ => 11
  | .off64kD _ => 16
  | _ => 0

/-- The byte a literal token stands for (R97). -/
def literalByte : Instr → Option Byte
  | .lit7 b => some (0#1 ++ b)
  | .lit8 b => some (1#1 ++ b)
  | _ => none

/-- The variant and the backward offset an offset code stands for (R98). -/
def offsetOf : Instr → Option (Variant × Nat)
  | .off8kA d => some (.v8k, d.toNat)
  | .off8kB d => some (.v8k, d.toNat + 64)
  | .off8kC d => some (.v8k, d.toNat + 320)
  | .off64kA d => some (.v64k, d.toNat)
  | .off64kB d => some (.v64k, d.toNat + 64)
  | .off64kC d => some (.v64k, d.toNat + 320)
  | .off64kD d => some (.v64k, d.toNat + 2368)
  | _ => none

/-- The match length a length code stands for (R99). -/
def lengthOf : Instr → Option Nat
  | .len3 => some 3
  | .len4 v => some (v.toNat + 4)
  | .len8 v => some (v.toNat + 8)
  | .len16 v => some (v.toNat + 16)
  | .len32 v => some (v.toNat + 32)
  | .len64 v => some (v.toNat + 64)
  | .len128 v => some (v.toNat + 128)
  | .len256 v => some (v.toNat + 256)
  | .len512 v => some (v.toNat + 512)
  | .len1024 v => some (v.toNat + 1024)
  | .len2048 v => some (v.toNat + 2048)
  | .len4096 v => some (v.toNat + 4096)
  | .len8192 v => some (v.toNat + 8192)
  | .len16384 v => some (v.toNat + 16384)
  | .len32768 v => some (v.toNat + 32768)
  | _ => none

end Sys2Proof.Machine
end

