-- ==== Sys2Proof/Machine/State.lean ====
section
/-! DEFINITION. The state of the machine as plain data (10_state R20), the reasons a step can stop, and the state after
reset (10_state R50, 70 R275). -/

namespace Sys2Proof.Machine

/-! ### The enumerations and small records of the state -/

/-- `sess` (R22). -/
inductive Sess where
  | absent
  | ready
  | faulted
deriving DecidableEq, Repr

/-- `te_state` (R27). -/
inductive TeState where
  | idle
  | scan
  | emitLiteral
  | emitMatch
  | done
deriving DecidableEq, Repr

/-- The status codes (30_encoding R94). Codes 7 to 15 are never produced. -/
inductive Status where
  | ok
  | unsupportedVariant
  | invalidInput
  | outputOverflow
  | outOfMemory
  | badState
  | illegalCmd
deriving DecidableEq, Repr

/-- The flag set (R26): three booleans. -/
structure FlagSet where
  compressed : Bool
  atFront : Bool
  flushed : Bool
deriving DecidableEq, Repr

/-- The empty flag set. -/
def noFlags : FlagSet := { compressed := false, atFront := false, flushed := false }

/-- `RSP` (R36): `rsp_status`, `rsp_flags`, `rsp_len`. -/
structure Response where
  status : Status
  flags : FlagSet
  len : Nat
deriving DecidableEq, Repr

/-- The bytes of HB or OB that have a value: (address, byte) pairs, addresses strictly rising. An unlisted byte has no
value and reading it faults (10_state R55, log 2). -/
abbrev Memory := List Host.Cell

/-- A hash-table entry `{valid, off}` (30_encoding R110). -/
structure HtEntry where
  valid : Bool
  off : Nat
deriving DecidableEq, Repr

/-- The space HT (R31): the entries whose contents are known, (index, entry) pairs with strictly rising indices. When
`defined` holds, MF.CLEAR has run and every unlisted entry is invalid with an unspecified `off`; before that, an unlisted
entry has no value at all (log 16). -/
structure HashTable where
  defined : Bool
  entries : List (Nat × HtEntry)
deriving DecidableEq, Repr

/-- The state. Registers that the rules use as numbers are `Nat` (00_scope R16: no operation wraps); the invariant
`Sys2Proof.Safety.Widths` says that each fits its width of R21. -/
structure State where
  /-- the parameters the block is built with (00_scope R7, log 4) -/
  build : Config.Build
  /-- input pin `rst` (70 R275) -/
  rst : Bool
  /-- the model's: the command word that the core has accepted and not yet carried out (70 R282, log 24) -/
  accepted : Option Word
  /-- the command words the host is going to present on `cmd_word` (70 R282, log 6) -/
  cmdQ : List Word
  /-- the chunk bytes the host is going to present on `in_data` (70 R283, log 6) -/
  inQ : List Byte
  /-- input `ob_raddr` (70 R281) -/
  obRaddr : BitVec 17
  /-- output `rsp_valid` (70 R282) -/
  rspValid : Bool
  /-- `sess` (R22) -/
  sess : Sess
  /-- `variant` (R23) -/
  variant : Variant
  /-- `first_pkt` (R24) -/
  firstPkt : Bool
  /-- `flagsHold` (R25) -/
  flagsHold : FlagSet
  /-- `RSP` (R36) -/
  rsp : Response
  /-- `hb_mem` (R29), by physical index -/
  hbMem : Memory
  /-- `W` (R29) -/
  w : Nat
  /-- `ht` (R31) -/
  ht : HashTable
  /-- `ob_mem` (R33) -/
  obMem : Memory
  /-- `ob_idx` (R33) -/
  obIdx : Nat
  /-- `ob_bits` (R33) -/
  obBits : Nat
  /-- `te_state` (R27) -/
  teState : TeState
  /-- `j` (R27) -/
  j : Nat
  /-- `n` (R28) -/
  n : Nat
  /-- `B` (R28) -/
  b : Nat
  /-- `m_c` (R28) -/
  mC : Nat
  /-- `m_d` (R28) -/
  mD : Nat
  /-- `m_len` (R28) -/
  mLen : Nat
  /-- the chunk bytes `x` taken so far (R38, space IN) -/
  chunk : List Byte
  /-- the model's: `do_flush` of the COMPRESS in progress (R219, log 17) -/
  doFlush : Bool
  /-- the model's: the offset code of the copy token in progress has been emitted (R195, log 5) -/
  offSent : Bool
  /-- the model's: length of the output span the host may read, 0 when there is none (R37, R284, log 10) -/
  spanLen : Nat
  /-- the model's: how many free values have been drawn (log 8) -/
  freeCtr : Nat
deriving DecidableEq, Repr

/-! ### The reasons a step can stop -/

/-- Faults of the model. None is a condition of the hardware, which reports errors in `RSP`; each stands for an access that
the spec says no rule ever makes. All are safe: the model stops where the spec gives no value. -/
inductive Fault where
  /-- HB.READ outside the window (R143, 93 U1). Raised by `hbRead`. Safe. -/
  | outsideWindow
  /-- A read of a byte of HB or OB that holds no value (10_state R55). Raised by `hbRead`, `emitBit`. Safe. -/
  | unspecifiedByte
  /-- A lookup of a hash-table entry that holds no value (10_state R55). Raised by `mfLookup`. Safe. -/
  | unspecifiedEntry
  /-- A chunk position at or beyond `n` (10_state R38). Raised by the Token Encoder's operations. Safe. -/
  | chunkPosition
  /-- A raw-copy write to an address at or above `OB_CAP`, which does not exist (20_memory R60). Raised by `scCommit`. Safe. -/
  | outputAddress
  /-- A byte, distance or length that CodeTable has no emits for, outside its domain (30_encoding R100). Raised by `afterEmits`.
  Safe. -/
  | codeTableDomain
deriving DecidableEq, Repr

/-- Refusals: situations the spec excludes and gives no effect for. -/
inductive Refusal where
  /-- No meaning yet for the instruction with this mnemonic. Raised by no arm of this model. Safe. -/
  | notModelled (mnemonic : String)
  /-- A command handed to the core while one is in progress: the command port accepts one at a time, so it cannot be
  expressed at the ports (70 R279, 93 U7: refuse). Raised by `exec` of a command outside IDLE. Safe. -/
  | commandInProgress
  /-- A token that the sequencing state does not select: the Token Encoder executes only the token that the selector
  and the code table determine (43 R193, R198, R200; 93 U9: refuse). Raised by `exec` of a token. Safe. -/
  | tokenNotSelected
deriving DecidableEq, Repr

/-- What a step or a meaning answers. -/
abbrev Result := Host.Outcome State Fault Refusal

/-! ### Reset -/

/-- The machine right after hardware reset, `rst` released and nothing presented by the host. The spec gives `sess`,
`te_state`, `RSP` and `rsp_valid` (R50, R275); every other register's value is a DESIGN CHOICE of log 1, and no byte and no
hash-table entry has a value (log 2). -/
def State.reset : State :=
  { build := Config.defaultBuild
    rst := false
    accepted := none
    cmdQ := []
    inQ := []
    obRaddr := 0
    rspValid := false
    sess := .absent
    variant := .v8k
    firstPkt := false
    flagsHold := noFlags
    rsp := { status := .ok, flags := noFlags, len := 0 }
    hbMem := []
    w := 0
    ht := { defined := false, entries := [] }
    obMem := []
    obIdx := 0
    obBits := 0
    teState := .idle
    j := 0
    n := 0
    b := 0
    mC := 0
    mD := 0
    mLen := 0
    chunk := []
    doFlush := false
    offSent := false
    spanLen := 0
    freeCtr := 0 }

end Sys2Proof.Machine
end

