-- ==== Sys2Proof/Machine/Flags.lean ====
section
/-! DEFINITION. Every flag computation: the flags of a COMPRESS (44 R225), the flags byte (30_encoding R95), the response
word (R93). -/

namespace Sys2Proof.Machine

/-- AT_FRONT (R219, R225): the first packet, a pending AT_FRONT, or a flush of this chunk. `first_pkt` and `flagsHold` are
not written between acceptance and commit, so the value is the one at acceptance. -/
def atFront (s : State) : Bool := s.firstPkt || s.flagsHold.atFront || s.doFlush

/-- The flags of a successful COMPRESS (R225). -/
def compressFlags (front doFlush passthrough : Bool) : FlagSet :=
  { compressed := !passthrough, atFront := front, flushed := doFlush || passthrough }

/-- The flag set of CREATE and of a passthrough result: `{AT_FRONT}` (R216, R224). -/
def atFrontOnly : FlagSet := { compressed := false, atFront := true, flushed := false }

/-- `byte(flags)`: FLUSHED 0x80, AT_FRONT 0x40, COMPRESSED 0x20, the rest 0 (R95). -/
def flagsByte (f : FlagSet) : Byte :=
  BitVec.ofNat 8 (f.flushed.toNat * 0x80 + f.atFront.toNat * 0x40 + f.compressed.toNat * 0x20)

/-- The status codes (R94). -/
def statusCode : Status → BitVec 4
  | .ok => 0
  | .unsupportedVariant => 1
  | .invalidInput => 2
  | .outputOverflow => 3
  | .outOfMemory => 4
  | .badState => 5
  | .illegalCmd => 6

/-- The response word (R93): status in 31:28, flags in 27:20, zeros in 19:17, length in 16:0. -/
def responseWord (r : Response) : Word :=
  statusCode r.status ++ flagsByte r.flags ++ 0#3 ++ BitVec.ofNat 17 r.len

/-- Output `rsp_word` (70 R281). -/
def rspWord (s : State) : Word := responseWord s.rsp

/-- Output `cmd_ready` (70 R281): IDLE, no command in progress. -/
def cmdReady (s : State) : Bool := decide (s.teState = .idle ∧ s.accepted = none)

/-- Output `in_ready` (70 R281, R283): a COMPRESS that passed its checks has not yet taken its `n` bytes. -/
def inReady (s : State) : Bool := decide (s.teState = .scan ∧ s.chunk.length < s.n)

end Sys2Proof.Machine
end

