-- ==== Sys2Proof/Machine/Ops.lean ====
section
/-! DEFINITION. The named operations over memory and registers: the component operations of 30_encoding R113, the dictionary
reset, the end of a command, the errors of 60_exceptions, and what becomes unspecified. -/

namespace Sys2Proof.Machine

/-! ### The stores -/

/-- The canonical form of HB and OB. -/
def Memory.wf (m : Memory) : Bool := rising m

/-! ### History Buffer (40_history_buffer) -/

/-- `phys(o) = o mod CAP` (R141). -/
def phys (v : Variant) (o : Nat) : Nat := o % Config.cap v

/-- `HB.APPEND` (R142). -/
def hbAppend (x : Byte) (s : State) : State :=
  { s with hbMem := writeCell (phys s.variant s.w) x s.hbMem, w := s.w + 1 }

/-- `HB.READ` (R143): legal inside the window `[W − CAP, W)`; outside it a fault of the model (93 U1). -/
def hbRead (o : Nat) (s : State) : Except Fault Byte :=
  if o < s.w ∧ s.w ≤ o + Config.cap s.variant then
    match readCell (phys s.variant o) s.hbMem with
    | some x => .ok x
    | none => .error .unspecifiedByte
  else .error .outsideWindow

/-- `HB.RESET` (R144): the storage is not erased. -/
def hbReset (s : State) : State := { s with w := 0 }

/-! ### Match Finder table (41_match_finder) -/

/-- `MF.LOOKUP` (R157). -/
def mfLookup (h : Nat) (s : State) : Except Fault (Option Nat) :=
  match readCell h s.ht.entries with
  | some e => .ok (if e.valid then some e.off else none)
  | none => if s.ht.defined then .ok none else .error .unspecifiedEntry

/-- `MF.RECORD` (R159): the single slot is overwritten. -/
def mfRecord (h o : Nat) (s : State) : State :=
  { s with ht := { s.ht with entries := writeCell h { valid := true, off := o } s.ht.entries } }

/-- `MF.CLEAR` (R160): every `valid` is cleared, no `off` is written. -/
def mfClear (s : State) : State :=
  { s with ht := { defined := true, entries := s.ht.entries.map fun p => (p.1, { p.2 with valid := false }) } }

/-- A hash-table entry as the word of R110: `valid` above the `LOFFW` bits of `off` (33 bits with the default). -/
def entryWord (p : Config.Build) (e : HtEntry) : BitVec (1 + p.loffw) := BitVec.ofBool e.valid ++ BitVec.ofNat p.loffw e.off

/-- The dictionary reset `RESETDICT` (R112, R221): the only way the dictionary is emptied. -/
def resetDict (s : State) : State := mfClear (hbReset s)

/-! ### Bit Assembler (42_bit_assembler) -/

/-- Why an emit does not complete: `OutputOverflow` (R181), or a fault of the model. -/
inductive Stop where
  | overflow
  | fault (f : Fault)
deriving DecidableEq, Repr

/-- `BA.START` (R176). -/
def baStart (s : State) : State := { s with obIdx := 0, obBits := 0 }

/-- The body of R177's loop for one bit: open a cleared trailing byte where needed, set the bit at its place (R178), step the
cursor. -/
def emitBit (bit : Bool) (s : State) : Except Fault State :=
  let m := if s.obBits = 0 then writeCell s.obIdx 0#8 s.obMem else s.obMem
  match readCell s.obIdx m with
  | none => .error .unspecifiedByte
  | some t =>
    let t' : Byte := t ||| (BitVec.ofNat 8 bit.toNat <<< (7 - s.obBits))
    if s.obBits + 1 = 8 then
      .ok { s with obMem := writeCell s.obIdx t' m, obIdx := s.obIdx + 1, obBits := 0 }
    else
      .ok { s with obMem := writeCell s.obIdx t' m, obBits := s.obBits + 1 }

/-- The bits of one emit, in order. -/
def emitBits : List Bool → State → Except Fault State
  | [], s => .ok s
  | bit :: bs, s =>
    match emitBit bit s with
    | .ok s' => emitBits bs s'
    | .error f => .error f

/-- The number of bits emitted so far, `8·ob_idx + ob_bits` (R33). -/
def streamPos (s : State) : Nat := 8 * s.obIdx + s.obBits

/-- `BA.EMIT` (R177): all or nothing; the capacity check comes before any bit is written (R181). -/
def baEmit (e : Emit) (s : State) : Except Stop State :=
  if 8 * Config.obCap s.build s.variant < streamPos s + e.width then .error .overflow
  else
    match emitBits (emitString e) s with
    | .ok s' => .ok s'
    | .error f => .error (.fault f)

/-- The emits of a token, in order (`EMITTOKEN`, R112). -/
def baEmits : List Emit → State → Except Stop State
  | [], s => .ok s
  | e :: es, s =>
    match baEmit e s with
    | .ok s' => baEmits es s'
    | .error r => .error r

/-- `BA.FINISH` (R179): closes the trailing byte, whose low bits are already 0. -/
def baFinish (s : State) : State :=
  if 0 < s.obBits then { s with obIdx := s.obIdx + 1, obBits := 0 } else s

/-! ### The end of a command, and the errors (60_exceptions) -/

/-- Error entry (60 R245) and `fail E` (44 R230): the status is written to `RSP` with no flags and length 0, `te_state` is
IDLE, the response is valid; nothing else changes and nothing is saved. There is no handler and no return (R254): the next
command simply follows. -/
def failCmd (e : Status) (s : State) : State :=
  { s with
    rsp := { status := e, flags := noFlags, len := 0 }
    rspValid := true
    teState := .idle }

/-- The registers that 10_state R50 calls unspecified after CREATE, DESTROY and hardware reset: each takes a free value of the
width it has in a session of variant `v` (R21; log 8). -/
def freeRegisters (v : Variant) (s : State) : State :=
  { s with
    obIdx := (Config.freeBits 17 s.freeCtr).toNat
    obBits := (Config.freeBits 3 (s.freeCtr + 1)).toNat
    j := (Config.freeBits 17 (s.freeCtr + 2)).toNat
    n := (Config.freeBits 17 (s.freeCtr + 3)).toNat
    b := (Config.freeBits s.build.loffw (s.freeCtr + 4)).toNat
    mC := (Config.freeBits s.build.loffw (s.freeCtr + 5)).toNat
    mD := (Config.freeBits (Config.offw v) (s.freeCtr + 6)).toNat
    mLen := (Config.freeBits 17 (s.freeCtr + 7)).toNat
    freeCtr := s.freeCtr + 8 }

/-- Every element that 10_state R50 and 60 R248 call unspecified, except `variant`: registers take free values, memories
lose all values (log 8). -/
def unspecify (v : Variant) (s : State) : State :=
  { freeRegisters v s with
    firstPkt := (Config.freeBits 1 (s.freeCtr + 8)).getLsbD 0
    flagsHold :=
      { compressed := (Config.freeBits 3 (s.freeCtr + 9)).getLsbD 0
        atFront := (Config.freeBits 3 (s.freeCtr + 9)).getLsbD 1
        flushed := (Config.freeBits 3 (s.freeCtr + 9)).getLsbD 2 }
    hbMem := []
    w := (Config.freeBits s.build.loffw (s.freeCtr + 10)).toNat
    ht := { defined := false, entries := [] }
    obMem := []
    chunk := []
    doFlush := false
    offSent := false
    spanLen := 0
    freeCtr := s.freeCtr + 12 }

/-- The variant after DESTROY and after hardware reset: unspecified too (R50). -/
def freeVariant (k : Nat) : Variant := if (Config.freeBits 1 k).getLsbD 0 then .v64k else .v8k

/-- The fatal OutputOverflow (60 R248): the session is FAULTED and keeps its variant; its contents are unspecified. -/
def raiseOverflow (s : State) : State :=
  { failCmd .outputOverflow (unspecify s.variant s) with sess := .faulted }

/-- The end of a session (44 R231): ABSENT, everything else unspecified. -/
def dropSession (s : State) : State :=
  { unspecify (freeVariant (s.freeCtr + 11)) s with sess := .absent, variant := freeVariant (s.freeCtr + 11) }

/-- Hardware reset (70 R275): no session, IDLE, no command in progress, `RSP = {OK, 0, 0}`, `rsp_valid = 0`. The pins and what
the host is going to present are the host's and stay. -/
def hardReset (s : State) : State :=
  { dropSession s with
    teState := .idle
    accepted := none
    rsp := { status := .ok, flags := noFlags, len := 0 }
    rspValid := false }

end Sys2Proof.Machine
end

