-- ==== Sys2Proof/Machine/Operands.lean ====
section
/-! DEFINITION. The operands of the Token Encoder: the chunk bytes at a position, the hash of a 3-byte prefix, the source
byte of a match, MF.EXTEND, the literal/copy selector (43 R193); TE.CONSUME; the session's table. -/

namespace Sys2Proof.Machine

/-- The default of the parameter `hash3` (41 R156): `(b0 << 4) xor (b1 << 2) xor b2` in 12 bits. -/
def defaultHash (b0 b1 b2 : Byte) : BitVec 12 :=
  (b0.setWidth 12 <<< 4) ^^^ (b1.setWidth 12 <<< 2) ^^^ b2.setWidth 12

/-- `MF.HASH` (41 R156): the function `hash3` the instance is built with, into `[0, 2^HASH_BITS)`: a replaced value, else the
default's, and of either the low `HASH_BITS` bits (log 3). -/
def hash3 (p : Config.Build) (b0 b1 b2 : Byte) : Nat :=
  ((readCell (b0.toNat * 65536 + b1.toNat * 256 + b2.toNat) p.hashCodes).getD (defaultHash b0 b1 b2).toNat) % Config.htSize p

/-- `Src(o)` of MF.EXTEND (R161): the dictionary below `W`, the chunk's own bytes from `W` on. -/
def srcByte (s : State) (o : Nat) : Except Fault Byte :=
  if o < s.w then hbRead o s
  else
    match s.chunk[o - s.b]? with
    | some x => .ok x
    | none => .error .chunkPosition

/-- The number of leading bytes of `ys` that equal the source bytes from logical offset `o` on. -/
def matchRun (s : State) : Nat → List Byte → Except Fault Nat
  | _, [] => .ok 0
  | o, y :: ys =>
    match srcByte s o with
    | .error f => .error f
    | .ok z =>
      if z = y then
        match matchRun s (o + 1) ys with
        | .ok l => .ok (l + 1)
        | .error f => .error f
      else .ok 0

/-- `MF.EXTEND c` (R161): verification and greedy extension at position `j`, up to `min(n − j, MAXLEN)`. -/
def mfExtend (c : Nat) (s : State) : Except Fault Nat :=
  matchRun s c ((s.chunk.drop s.j).take (min (s.n - s.j) (Config.maxLen s.build s.variant)))

/-- The window filter: whether a candidate is served at `W` (R158). -/
def served (c : Nat) (s : State) : Bool := decide (c < s.w ∧ s.w - c ≤ Config.maxOff s.build s.variant)

/-- What the selector chooses at a position: a literal, or a copy from candidate `c` with distance `d` and length `l`. -/
inductive Selection where
  | literal
  | copy (c d l : Nat)
deriving DecidableEq, Repr

/-- The literal/copy selector (43 R193), with the tail rule (R199): one hash, one lookup, one candidate, the first
qualifying match at its full length. -/
def teSelect (s : State) : Except Fault Selection :=
  if s.n - s.j < 3 then .ok .literal
  else
    match s.chunk.drop s.j with
    | b0 :: b1 :: b2 :: _ =>
      match mfLookup (hash3 s.build b0 b1 b2) s with
      | .error f => .error f
      | .ok none => .ok .literal
      | .ok (some c) =>
        if served c s then
          match mfExtend c s with
          | .error f => .error f
          | .ok l => if Config.minLen s.build s.variant ≤ l then .ok (.copy c (s.w - c) l) else .ok .literal
        else .ok .literal
    | _ => .error .chunkPosition

/-- The CodeTable of the session (30_encoding R100). -/
def sessionTable (s : State) : CodeTable := codeTable s.build s.variant

/-- `TE.CONSUME p` (43 R196) of byte `x` with the two bytes before it in the chunk, where there are two: append, then the
deferred record of position `p − 2` (41 R163). -/
def teConsume (p : Nat) (x2 x1 : Option Byte) (x : Byte) (s : State) : State :=
  match x2, x1 with
  | some a, some c => mfRecord (hash3 s.build a c x) (s.b + p - 2) (hbAppend x s)
  | _, _ => hbAppend x s

/-- TE.CONSUME of the positions `p`, `p + 1`, … holding the bytes `xs`, in increasing order. -/
def teConsumeRun (p : Nat) (x2 x1 : Option Byte) : List Byte → State → State
  | [], s => s
  | x :: xs, s => teConsumeRun (p + 1) x1 (some x) xs (teConsume p x2 x1 x s)

/-- The chunk byte `k` positions before `p`, where there is one. -/
def byteBefore (s : State) (p k : Nat) : Option Byte := if k ≤ p then s.chunk[p - k]? else none

/-- The consumes of a token that covers `l` positions from `j` on. -/
def consumeFromJ (l : Nat) (s : State) : State :=
  teConsumeRun s.j (byteBefore s s.j 2) (byteBefore s s.j 1) ((s.chunk.drop s.j).take l) s

end Sys2Proof.Machine
end

