-- ==== Sys2Proof/Machine/Commands.lean ====
section
/-! DEFINITION. The meanings of the three commands: CREATE, COMPRESS, DESTROY (44_session_controller). -/

namespace Sys2Proof.Machine

/-- `variant_code` 0 and 1 are the variants; 2 and 3 are none (R91, R92). -/
def variantOfCode (c : BitVec 2) : Option Variant :=
  if c = 0#2 then some .v8k else if c = 1#2 then some .v64k else none

/-- The end of a command that succeeds with flags `f` and `len` output bytes (R229). -/
def succeed (f : FlagSet) (len : Nat) (s : State) : State :=
  { s with
    rsp := { status := .ok, flags := f, len := len }
    rspValid := true
    teState := .idle }

/-- A session of variant `v` begins (R216): empty dictionary, first packet, `flagsHold` "dictionary fresh". HB, OB and the `off`
fields are not written; the per-call registers and the cursor are unspecified (10_state R50), and no span is readable (70 R284). -/
def openSession (v : Variant) (s : State) : State :=
  { resetDict { freeRegisters v s with variant := v } with
    firstPkt := true, flagsHold := atFrontOnly, sess := .ready, spanLen := 0 }

/-- `CREATE` (R216, R217), checks in the order of 60 R252. -/
def execCreate (code : BitVec 2) (s : State) : Result :=
  if s.teState ≠ .idle then .refused .commandInProgress
  else if s.sess ≠ .absent then .next (failCmd .badState s)
  else
    match variantOfCode code with
    | none => .next (failCmd .unsupportedVariant s)
    | some v =>
      if s.build.maxCap < Config.cap v then .next (failCmd .outOfMemory s)
      else .next (succeed noFlags 0 (openSession v s))

/-- The policy flush (R222): the chunk would make the logical offset reach its limit. -/
def policyFlush (p : Config.Build) (w n : Nat) : Bool := decide (Config.offLimit p ≤ w + n)

/-- The start of an encode pass (43 R191) for a chunk of `n` bytes; the previous output span ends here (20_memory R78). -/
def startPass (n : Nat) (flush : Bool) (s : State) : State :=
  { baStart s with
    n := n
    b := s.w
    j := 0
    teState := .scan
    chunk := []
    doFlush := flush
    offSent := false
    rspValid := false
    spanLen := 0 }

/-- The accepted chunk's dictionary: emptied first when the caller or the policy asks for it (R220, R221, R222). -/
def acceptChunk (flushReq : Bool) (n : Nat) (s : State) : State :=
  if flushReq || policyFlush s.build s.w n then startPass n true (resetDict s) else startPass n false s

/-- `COMPRESS` (R218, R219) up to the start of the encode pass: the checks in order, the flush, R191. The row "IDLE, COMPRESS
accepted and valid" of 43 R200; the pass itself and the commit are the steps that follow (log 5). -/
def execCompress (flushReq : Bool) (len : BitVec 17) (s : State) : Result :=
  if s.teState ≠ .idle then .refused .commandInProgress
  else
    match s.sess with
    | .absent => .next (failCmd .invalidInput s)
    | .faulted => .next (failCmd .badState s)
    | .ready =>
      if len.toNat = 0 ∨ Config.cap s.variant < len.toNat then .next (failCmd .invalidInput s)
      else .next (acceptChunk flushReq len.toNat s)

/-- `DESTROY` (R231): succeeds from every session state. -/
def execDestroy (s : State) : Result :=
  if s.teState ≠ .idle then .refused .commandInProgress
  else .next (succeed noFlags 0 (dropSession s))

end Sys2Proof.Machine
end

