-- ==== Sys2Proof/Machine/Literals.lean ====
section
/-! DEFINITION. The meanings of the literal tokens LIT7 and LIT8: TE.EMIT_LITERAL (43_token_encoder R194). -/

namespace Sys2Proof.Machine

/-- What follows a token's emits: on success `k`, on OutputOverflow the fatal error (60 R248), with none of the token's
consumes performed. A code is never empty (30_encoding R100): where the table has none, a fault of the model. -/
def afterEmits (es : List Emit) (s : State) (k : State → Result) : Result :=
  if es = [] then .fault .codeTableDomain
  else
    match baEmits es s with
    | .ok s' => k s'
    | .error .overflow => .next (raiseOverflow s)
    | .error (.fault f) => .fault f

/-- After the emits of a token that covers `l` chunk positions: the consumes, `j` advances, back to SCAN (R194, R195). -/
def finishToken (l : Nat) (s : State) : Result :=
  if s.j + l ≤ s.chunk.length then
    .next { consumeFromJ l s with j := s.j + l, teState := .scan, offSent := false }
  else .fault .chunkPosition

/-- TE.EMIT_LITERAL (R194) with the code `es` of `x[j]`. -/
def emitLiteral (es : List Emit) (s : State) : Result := afterEmits es s (finishToken 1)

/-- A literal format of the opcode table, of byte `x` with the codeword `es`: executed where the sequencer selects it, in
EMIT_LITERAL with `x[j] = x` of a session whose table has this codeword for it (log 9). -/
def runLiteral (x : Byte) (es : List Emit) (s : State) : Result :=
  if s.teState = .emitLiteral ∧ s.chunk[s.j]? = some x ∧ (sessionTable s).lit x = es then emitLiteral es s
  else .refused .tokenNotSelected

/-- LIT7 (R97, R194). -/
def execLit7 (b : BitVec 7) (s : State) : Result := runLiteral (0#1 ++ b) (emits (.lit7 b)) s

/-- LIT8 (R97, R194). -/
def execLit8 (b : BitVec 7) (s : State) : Result := runLiteral (1#1 ++ b) (emits (.lit8 b)) s

end Sys2Proof.Machine
end

