-- ==== Sys2Proof/Machine/Lengths.lean ====
section
/-! DEFINITION. The meanings of the length codes LEN_3 ... LEN_32768: the second half of TE.EMIT_MATCH (43_token_encoder R195,
30_encoding R99, R105). -/

namespace Sys2Proof.Machine

/-- The second half of TE.EMIT_MATCH (R195): the emits `es` of `len(m_len)`, the consumes of the `m_len` positions, `j` advances,
back to SCAN. -/
def emitLength (es : List Emit) (s : State) : Result := afterEmits es s (finishToken s.mLen)

/-- A length format of the opcode table, of length `l` with the codeword `es`: executed where the sequencer selects it, in
EMIT_MATCH after the offset code with `m_len = l`, of a session whose table has this codeword for it (log 9). -/
def runLength (l : Nat) (es : List Emit) (s : State) : Result :=
  if s.teState = .emitMatch ∧ s.offSent = true ∧ s.mLen = l ∧ (sessionTable s).len l = es then emitLength es s
  else .refused .tokenNotSelected

/-- LEN_3 (R99, R195). -/
def execLen3 (s : State) : Result := runLength 3 (emits .len3) s

/-- LEN_4 (R99, R195). -/
def execLen4 (v : BitVec 2) (s : State) : Result := runLength (v.toNat + 4) (emits (.len4 v)) s

/-- LEN_8 (R99, R195). -/
def execLen8 (v : BitVec 3) (s : State) : Result := runLength (v.toNat + 8) (emits (.len8 v)) s

/-- LEN_16 (R99, R195). -/
def execLen16 (v : BitVec 4) (s : State) : Result := runLength (v.toNat + 16) (emits (.len16 v)) s

/-- LEN_32 (R99, R195). -/
def execLen32 (v : BitVec 5) (s : State) : Result := runLength (v.toNat + 32) (emits (.len32 v)) s

/-- LEN_64 (R99, R195). -/
def execLen64 (v : BitVec 6) (s : State) : Result := runLength (v.toNat + 64) (emits (.len64 v)) s

/-- LEN_128 (R99, R195). -/
def execLen128 (v : BitVec 7) (s : State) : Result := runLength (v.toNat + 128) (emits (.len128 v)) s

/-- LEN_256 (R99, R195). -/
def execLen256 (v : BitVec 8) (s : State) : Result := runLength (v.toNat + 256) (emits (.len256 v)) s

/-- LEN_512 (R99, R195). -/
def execLen512 (v : BitVec 9) (s : State) : Result := runLength (v.toNat + 512) (emits (.len512 v)) s

/-- LEN_1024 (R99, R195). -/
def execLen1024 (v : BitVec 10) (s : State) : Result := runLength (v.toNat + 1024) (emits (.len1024 v)) s

/-- LEN_2048 (R99, R195). -/
def execLen2048 (v : BitVec 11) (s : State) : Result := runLength (v.toNat + 2048) (emits (.len2048 v)) s

/-- LEN_4096 (R99, R195). -/
def execLen4096 (v : BitVec 12) (s : State) : Result := runLength (v.toNat + 4096) (emits (.len4096 v)) s

/-- LEN_8192 (R99, R195). -/
def execLen8192 (v : BitVec 13) (s : State) : Result := runLength (v.toNat + 8192) (emits (.len8192 v)) s

/-- LEN_16384 (R99, R195). -/
def execLen16384 (v : BitVec 14) (s : State) : Result := runLength (v.toNat + 16384) (emits (.len16384 v)) s

/-- LEN_32768 (R99, R195). -/
def execLen32768 (v : BitVec 15) (s : State) : Result := runLength (v.toNat + 32768) (emits (.len32768 v)) s

end Sys2Proof.Machine
end

