-- ==== Sys2Proof/Machine/Offsets.lean ====
section
/-! DEFINITION. The meanings of the copy-offset codes OFF8K_A ... OFF64K_D: the first half of TE.EMIT_MATCH (43_token_encoder R195,
30_encoding R98, R105). -/

namespace Sys2Proof.Machine

/-- The first half of TE.EMIT_MATCH (R195): the emits `es` of `off(m_d)`. -/
def emitOffset (es : List Emit) (s : State) : Result := afterEmits es s fun s' => .next { s' with offSent := true }

/-- An offset format of the opcode table, of variant `v` and distance `d` with the codeword `es`: executed where the sequencer
selects it, in EMIT_MATCH with no half of the token sent yet and `m_d = d`, of a session of that variant whose table has this
codeword for it (log 9). -/
def runOffset (v : Variant) (d : Nat) (es : List Emit) (s : State) : Result :=
  if s.teState = .emitMatch ∧ s.offSent = false ∧ s.variant = v ∧ s.mD = d ∧ (sessionTable s).off d = es then emitOffset es s
  else .refused .tokenNotSelected

/-- OFF8K_A (R98, R195). -/
def execOff8kA (d : BitVec 6) (s : State) : Result :=
  runOffset .v8k d.toNat (emits (.off8kA d)) s

/-- OFF8K_B (R98, R195). -/
def execOff8kB (d : BitVec 8) (s : State) : Result :=
  runOffset .v8k (d.toNat + 64) (emits (.off8kB d)) s

/-- OFF8K_C (R98, R195). -/
def execOff8kC (d : BitVec 13) (s : State) : Result :=
  runOffset .v8k (d.toNat + 320) (emits (.off8kC d)) s

/-- OFF64K_A (R98, R195). -/
def execOff64kA (d : BitVec 6) (s : State) : Result :=
  runOffset .v64k d.toNat (emits (.off64kA d)) s

/-- OFF64K_B (R98, R195). -/
def execOff64kB (d : BitVec 8) (s : State) : Result :=
  runOffset .v64k (d.toNat + 64) (emits (.off64kB d)) s

/-- OFF64K_C (R98, R195). -/
def execOff64kC (d : BitVec 11) (s : State) : Result :=
  runOffset .v64k (d.toNat + 320) (emits (.off64kC d)) s

/-- OFF64K_D (R98, R195). -/
def execOff64kD (d : BitVec 16) (s : State) : Result :=
  runOffset .v64k (d.toNat + 2368) (emits (.off64kD d)) s

end Sys2Proof.Machine
end

