-- ==== Sys2Proof/Machine/Dispatch.lean ====
section
/-! DEFINITION. The dispatch: one arm for each constructor of Instr. -/

namespace Sys2Proof.Machine

/-- The meaning of an instruction in a state. -/
def exec (i : Instr) (s : State) : Host.Outcome State Fault Refusal :=
  match i with
  | .create c => Sys2Proof.Machine.execCreate c s
  | .compress f len => Sys2Proof.Machine.execCompress f len s
  | .destroy => Sys2Proof.Machine.execDestroy s
  | .lit7 b => Sys2Proof.Machine.execLit7 b s
  | .lit8 b => Sys2Proof.Machine.execLit8 b s
  | .off8kA d => Sys2Proof.Machine.execOff8kA d s
  | .off8kB d => Sys2Proof.Machine.execOff8kB d s
  | .off8kC d => Sys2Proof.Machine.execOff8kC d s
  | .off64kA d => Sys2Proof.Machine.execOff64kA d s
  | .off64kB d => Sys2Proof.Machine.execOff64kB d s
  | .off64kC d => Sys2Proof.Machine.execOff64kC d s
  | .off64kD d => Sys2Proof.Machine.execOff64kD d s
  | .len3 => Sys2Proof.Machine.execLen3 s
  | .len4 v => Sys2Proof.Machine.execLen4 v s
  | .len8 v => Sys2Proof.Machine.execLen8 v s
  | .len16 v => Sys2Proof.Machine.execLen16 v s
  | .len32 v => Sys2Proof.Machine.execLen32 v s
  | .len64 v => Sys2Proof.Machine.execLen64 v s
  | .len128 v => Sys2Proof.Machine.execLen128 v s
  | .len256 v => Sys2Proof.Machine.execLen256 v s
  | .len512 v => Sys2Proof.Machine.execLen512 v s
  | .len1024 v => Sys2Proof.Machine.execLen1024 v s
  | .len2048 v => Sys2Proof.Machine.execLen2048 v s
  | .len4096 v => Sys2Proof.Machine.execLen4096 v s
  | .len8192 v => Sys2Proof.Machine.execLen8192 v s
  | .len16384 v => Sys2Proof.Machine.execLen16384 v s
  | .len32768 v => Sys2Proof.Machine.execLen32768 v s

end Sys2Proof.Machine
end

