-- ==== Sys2Proof/Machine/Encoder.lean ====
section
/-! DEFINITION. The micro-steps that run no instruction of the opcode table: the input transfer (70 R283), TE.SCAN with
TE.FINALIZE (43 R192, R197), and the Session Controller's commit in DONE (44 R219, R223 to R228). -/

namespace Sys2Proof.Machine

/-- The input transfer of R283: the core takes the bytes the host presents, up to the `n` of this COMPRESS; it waits where
there are none (93 U13). How far ahead of `j` it takes them is not observable (93 U20): it takes all at once (log 7). -/
def takeInput (s : State) : State :=
  { s with
    chunk := s.chunk ++ s.inQ.take (s.n - s.chunk.length)
    inQ := s.inQ.drop (s.n - s.chunk.length) }

/-- `TE.FINALIZE` (R197). `enc_len` is `ob_idx` after it. -/
def teFinalize (s : State) : State := { baFinish s with teState := .done }

/-- `TE.SCAN` (R192). -/
def teScan (s : State) : Result :=
  if s.j = s.n then .next (teFinalize s)
  else
    match teSelect s with
    | .error f => .fault f
    | .ok .literal => .next { s with teState := .emitLiteral }
    | .ok (.copy c d l) => .next { s with mC := c, mD := d, mLen := l, teState := .emitMatch }

/-- The raw copy of a passthrough result (R219, R224 (a)): `ob_mem[i] <- x[i]`. -/
def writeRun (a : Nat) : List Byte → Memory → Memory
  | [], m => m
  | x :: xs, m => writeRun (a + 1) xs (writeCell a x m)

/-- The passthrough decision (R223): the encoding is not smaller than the chunk. -/
def passthrough (s : State) : Bool := decide (s.n ≤ s.obIdx)

/-- The end of a successful COMPRESS (R219, R225 to R229): the first packet is over, the response and the borrowed span of
`len` bytes, IDLE. The chunk and the command's locals are gone. -/
def commitResult (pass : Bool) (len : Nat) (s : State) : State :=
  { succeed (compressFlags (atFront s) s.doFlush pass) len s with
    flagsHold := if pass then atFrontOnly else noFlags
    firstPkt := false
    chunk := []
    doFlush := false
    spanLen := len }

/-- The commit in DONE (R219): passthrough exactly when `enc_len ≥ n` (R223), with the raw copy and the dictionary reset
(R224), else the encoded span (R228). -/
def scCommit (s : State) : Result :=
  if passthrough s then
    if Config.obCap s.build s.variant < s.n then .fault .outputAddress
    else .next (commitResult true s.n (resetDict { s with obMem := writeRun 0 s.chunk s.obMem }))
  else .next (commitResult false s.obIdx s)

/-- The output read port `ob_rdata` (70 R281, R284): the span's byte where the host may read it, else an unspecified byte
(log 10). -/
def obRdata (s : State) : Byte :=
  if s.rspValid ∧ s.obRaddr.toNat < s.spanLen then
    match readCell s.obRaddr.toNat s.obMem with
    | some x => x
    | none => Config.freeRead s.freeCtr s.obRaddr.toNat
  else Config.freeRead s.freeCtr s.obRaddr.toNat

end Sys2Proof.Machine
end

