-- ==== Sys2Proof/Machine/Fetch.lean ====
section
/-! DEFINITION. What the next step runs: an instruction from the command port or from the sequencing state, or a micro-step
that runs none; and how an instruction is put where the step finds it. -/

namespace Sys2Proof.Machine

/-- What the core does next. -/
inductive Fetched where
  /-- It executes an instruction in a state. -/
  | run (i : Instr) (s : State)
  /-- It does something that is no instruction of the opcode table. -/
  | silent (r : Result)

/-- IDLE (70 R282): with no command in progress the core accepts the word presented, and waits where none is (60 R263); a
command accepted is carried out in the next step, which completes it or, for a valid COMPRESS, starts the encode pass. A word
that decodes to no command ends with ERR_ILLEGAL_CMD (30_encoding R108). -/
def fetchIdle (s : State) : Fetched :=
  match s.accepted with
  | none =>
    match s.cmdQ with
    | [] => .silent (.next s)
    | c :: cs => .silent (.next { s with accepted := some c, cmdQ := cs, rspValid := false })
  | some c =>
    match decodeCommand c with
    | .ok i => .run i { s with accepted := none }
    | .error _ => .silent (.next (failCmd .illegalCmd { s with accepted := none }))

/-- A token that the sequencing state selects, with the emits `es` that the session's table gives it: the row `i` of the opcode
table where that row has this codeword, else the same operation `emit` with a code that no row has (30_encoding R100). -/
def fetchToken (es : List Emit) (i : Option Instr) (emit : List Emit → State → Result) (s : State) : Fetched :=
  match rowOf es i with
  | some i => .run i s
  | none => .silent (emit es s)

/-- The transition table (43 R200) with the reset pin (70 R275). In EMIT_LITERAL the literal of `x[j]` (R194), in EMIT_MATCH the
offset code of `m_d` and then the length code of `m_len` (R195, R105; log 5). -/
def fetch (s : State) : Fetched :=
  if s.rst then .silent (.next (hardReset s))
  else
    match s.teState with
    | .idle => fetchIdle s
    | .scan => .silent (if s.chunk.length < s.n then .next (takeInput s) else teScan s)
    | .emitLiteral =>
      match s.chunk[s.j]? with
      | some x => fetchToken ((sessionTable s).lit x) (some (litToken x)) emitLiteral s
      | none => .silent (.fault .chunkPosition)
    | .emitMatch =>
      if s.offSent then fetchToken ((sessionTable s).len s.mLen) (lenToken s.variant s.mLen) emitLength s
      else fetchToken ((sessionTable s).off s.mD) (offToken s.variant s.mD) emitOffset s
    | .done => .silent (scCommit s)

/-- A core in IDLE that has accepted a command word. -/
def placeCommand (c : Word) (s : State) : State :=
  { s with rst := false, teState := .idle, accepted := some c, rspValid := false }

/-- The parameters of `s` where its tables have the code wanted, else the defaults, whose tables are the opcode table's. -/
def buildFor (wanted : Bool) (s : State) : Config.Build := if wanted then s.build else Config.defaultBuild

/-- The sequencing state that selects the literal `x`: a session in EMIT_LITERAL at position 0 of the chunk `[x]`. -/
def placeLiteral (i : Instr) (x : Byte) (s : State) : State :=
  { s with
    build := buildFor (decide ((sessionTable s).lit x = emits i)) s
    rst := false, sess := .ready, teState := .emitLiteral, j := 0, n := 1, b := s.w, chunk := [x] }

/-- The sequencing state that selects the offset code of distance `d`: a session of variant `v` in EMIT_MATCH. -/
def placeOffset (i : Instr) (v : Variant) (d : Nat) (s : State) : State :=
  { s with
    build := buildFor (decide ((codeTable s.build v).off d = emits i)) s
    rst := false, sess := .ready, variant := v, teState := .emitMatch, offSent := false, mD := d }

/-- The sequencing state that selects the length code of length `l`: a session in EMIT_MATCH after the offset code, at
position 0 of a chunk of `l` bytes; of variant V64K where only that variant has the band. -/
def placeLength (i : Instr) (l : Nat) (s : State) : State :=
  let v := if Config.defaultMaxLen s.variant < l then .v64k else s.variant
  { s with
    build := buildFor (decide ((codeTable s.build v).len l = emits i)) s
    rst := false
    sess := .ready
    variant := v
    teState := .emitMatch
    offSent := true
    mLen := l
    j := 0
    n := l
    b := s.w
    chunk := List.replicate l 0#8 }

/-- The state in which the next step runs a token. -/
def placeToken (i : Instr) (s : State) : Option State :=
  match literalByte i, offsetOf i, lengthOf i with
  | some x, _, _ => some (placeLiteral i x s)
  | none, some (v, d), _ => some (placeOffset i v d s)
  | none, none, some l => some (placeLength i l s)
  | none, none, none => none

/-- Puts the instruction whose bits are `w` where the next step fetches it (log 6, log 20): a token into the sequencing state,
anything else into the place of the accepted command. -/
def placeWord (nbits w : Nat) (s : State) : State :=
  match decodeTableWord nbits w with
  | some i =>
    match placeToken i s with
    | some s' => s'
    | none => placeCommand (BitVec.ofNat 32 w) s
  | none => placeCommand (BitVec.ofNat 32 w) s

end Sys2Proof.Machine
end

