-- ==== Sys2Proof/Machine/Step.lean ====
section
/-! DEFINITION. One step of the core: it executes the instruction the fetch finds, or does what the fetch says. -/

namespace Sys2Proof.Machine

/-- Does what the fetch found. -/
def perform : Fetched → Result
  | .run i s => exec i s
  | .silent r => r

/-- One step (00_scope R10, the micro level). -/
def step (s : State) : Host.Outcome State Fault Refusal := perform (fetch s)

/-- The state in which `step` fetches and runs the instruction whose bits are `w`. -/
def State.withFetchWord (s : State) (nbits w : Nat) : State := placeWord nbits w s

end Sys2Proof.Machine
end

