-- ==== Sys2Proof/Safety.lean ====
section
/-! DEFINITION. The terms in which statements speak: the bits in the output buffer, the invariants of 10_state, what the
peer reads (43 R207), which states a host cannot tell apart, a well-formed CodeTable (30_encoding R101). -/

namespace Sys2Proof.Safety

open Sys2Proof.Machine

/-! ### The bits in the output buffer -/

/-- Bit `m` of the output stream (42 R178): bit `7 − m mod 8` of byte `m div 8`; `none` where the byte has no value. -/
def streamBit (s : State) (m : Nat) : Option Bool :=
  (readCell (m / 8) s.obMem).map fun x => x.getLsbD (7 - m % 8)

/-- The Bit Assembler is at rest (10_state R33, R34): the cursor is in 0..7, and a trailing byte, where there is one, has a
value whose unfilled low bits are 0. -/
def AssemblerReady (s : State) : Prop :=
  s.obBits < 8 ∧
    (0 < s.obBits → ∃ x, readCell s.obIdx s.obMem = some x ∧ ∀ k, k < 8 - s.obBits → x.getLsbD k = false)

/-- `t` has the bits `bs` appended to the output stream of `s`, and nothing else of OB is changed: the earlier bits, and every
byte that holds none of the new bits. -/
def Appended (s t : State) (bs : List Bool) : Prop :=
  streamPos t = streamPos s + bs.length ∧ t.obBits < 8 ∧
    (∀ m, m < streamPos s → streamBit t m = streamBit s m) ∧
    (∀ k, (h : k < bs.length) → streamBit t (streamPos s + k) = some bs[k]) ∧
    (∀ a, a < streamPos s / 8 ∨ streamPos s + bs.length ≤ 8 * a → readCell a t.obMem = readCell a s.obMem)

/-- The emits of `i` fit into the output buffer (42 R181). -/
def Fits (s : State) (i : Instr) : Prop :=
  streamPos s + (encode i).length ≤ 8 * Config.obCap s.build s.variant

/-- The sequencing state selects token `i` for execution, and the session's table has its codeword there (43 R193, R194, R195,
30_encoding R100; log 9). -/
def Selected (i : Instr) (s : State) : Prop :=
  (∃ x, literalByte i = some x ∧ s.teState = .emitLiteral ∧ s.chunk[s.j]? = some x ∧ (sessionTable s).lit x = emits i) ∨
    (∃ v d, offsetOf i = some (v, d) ∧ s.teState = .emitMatch ∧ s.offSent = false ∧ s.variant = v ∧ s.mD = d ∧
      (sessionTable s).off d = emits i) ∨
      (∃ l, lengthOf i = some l ∧ s.teState = .emitMatch ∧ s.offSent = true ∧ s.mLen = l ∧ (sessionTable s).len l = emits i)

/-- The hash of the 3-byte beginning at chunk position `q`, where the chunk has three bytes there (41 R163). -/
def hashAt (s : State) (q : Nat) : Option Nat :=
  match s.chunk[q]?, s.chunk[q + 1]?, s.chunk[q + 2]? with
  | some a, some c, some x => some (hash3 s.build a c x)
  | _, _, _ => none

/-- What the Match Finder table of `t` holds after positions `start` up to `upto` (exclusive) of the chunk of `s` were consumed (41 R163): for
every hash the offset of the last position recorded meanwhile, else what it held before. -/
def Recorded (s t : State) (start upto : Nat) : Prop :=
  (∀ h q, start ≤ q + 2 → q + 2 < upto → hashAt s q = some h →
      (∀ r, q < r → r + 2 < upto → hashAt s r ≠ some h) → mfLookup h t = .ok (some (s.b + q))) ∧
    (∀ h, (∀ q, start ≤ q + 2 → q + 2 < upto → hashAt s q ≠ some h) → mfLookup h t = mfLookup h s)

/-! ### A well-formed CodeTable (30_encoding R101) -/

/-- The distances a table codes. -/
def CodesOff (c : CodeTable) (d : Nat) : Prop := 1 ≤ d ∧ d ≤ c.maxOff

/-- The lengths a table codes. -/
def CodesLen (c : CodeTable) (l : Nat) : Prop := c.minLen ≤ l ∧ l ≤ c.maxLen

/-- A band of an offset code, the shape of R98's rows: the distances `first` to `last` share the prefix `pre` before a value field of
`width` bits, which holds the distance less `base`. -/
structure OffsetBand where
  first : Nat
  last : Nat
  pre : List Bool
  width : Nat
  base : Nat
deriving DecidableEq, Repr

/-- The distance `d` is in the band. -/
def OffsetBand.Has (b : OffsetBand) (d : Nat) : Prop := b.first ≤ d ∧ d ≤ b.last

/-- A table has the band: it codes distances of the band, all of them, and each by the band's prefix and value field. -/
def OffsetBand.Of (b : OffsetBand) (c : CodeTable) : Prop :=
  (∃ d, b.Has d) ∧
    ∀ d, b.Has d → CodesOff c d ∧ b.base ≤ d ∧ d - b.base < 2 ^ b.width ∧
      emitsString (c.off d) = b.pre ++ natBits b.width (d - b.base)

/-- The widest value field of a table's `off` is `w` bits (R101 (f), 00_scope R7 `OFFW`): the distances it codes fall into bands, no
band's value field is wider, and one is as wide. A CodeTable gives codes and no bands, so that they can be read as such bands
is what the rule is taken to say (log 3). -/
def WidestOffsetField (w : Nat) (c : CodeTable) : Prop :=
  ∃ bands : List OffsetBand,
    (∀ b ∈ bands, b.Of c ∧ b.width ≤ w) ∧ (∀ d, CodesOff c d → ∃ b ∈ bands, b.Has d) ∧ ∃ b ∈ bands, b.width = w

/-- Well-formedness of the CodeTable of a variant: every code has an emit (R100; `litWidth` says it of literals), and (a) to (f) of R101,
where the widths of (a) are kept by the type of `Emit`. -/
structure TableWellFormed (v : Variant) (c : CodeTable) : Prop where
  offSome : ∀ d, CodesOff c d → c.off d ≠ []
  lenSome : ∀ l, CodesLen c l → c.len l ≠ []
  litCode : ∀ x, ∀ e ∈ c.lit x, e.code < 2 ^ e.width
  offCode : ∀ d, CodesOff c d → ∀ e ∈ c.off d, e.code < 2 ^ e.width
  lenCode : ∀ l, CodesLen c l → ∀ e ∈ c.len l, e.code < 2 ^ e.width
  litWidth : ∀ x, (emitsString (c.lit x)).length = 8 ∨ (emitsString (c.lit x)).length = 9
  litFree : ∀ x y, emitsString (c.lit x) <+: emitsString (c.lit y) → x = y
  offFree : ∀ d e, CodesOff c d → CodesOff c e → emitsString (c.off d) <+: emitsString (c.off e) → d = e
  mixedFree : ∀ x d, CodesOff c d →
    ¬ emitsString (c.lit x) <+: emitsString (c.off d) ∧ ¬ emitsString (c.off d) <+: emitsString (c.lit x)
  lenFree : ∀ k l, CodesLen c k → CodesLen c l → emitsString (c.len k) <+: emitsString (c.len l) → k = l
  tokenLong : ∀ d l, CodesOff c d → CodesLen c l → 8 ≤ (emitsString (c.off d)).length + (emitsString (c.len l)).length
  copyCheap : ∀ d l, CodesOff c d → CodesLen c l →
    (emitsString (c.off d)).length + (emitsString (c.len l)).length < 8 * l
  offField : WidestOffsetField (Config.offw v) c

/-! ### The invariants of 10_state -/

/-- Every register fits its width (10_state R21, R36): `LOFFW` bits for logical offsets, 13 or 16 bits for `m_d`. -/
structure Widths (s : State) : Prop where
  w : s.w < Config.offLimit s.build
  b : s.b < Config.offLimit s.build
  mC : s.mC < Config.offLimit s.build
  mD : s.mD < 2 ^ Config.offw s.variant
  j : s.j < 2 ^ 17
  n : s.n < 2 ^ 17
  mLen : s.mLen < 2 ^ 17
  obIdx : s.obIdx < 2 ^ 17
  obBits : s.obBits < 2 ^ 3
  rspLen : s.rsp.len < 2 ^ 17
  spanLen : s.spanLen < 2 ^ 17

/-- Every store is in its canonical form, which is the model's choice (logs 2 and 16), and holds only addresses that exist (20_memory
R60). -/
structure Stores (s : State) : Prop where
  hb : Memory.wf s.hbMem = true
  hbAddr : ∀ a, (readCell a s.hbMem).isSome → a < 65536
  ob : Memory.wf s.obMem = true
  obAddr : ∀ a, (readCell a s.obMem).isSome → a < max s.build.obCap8K s.build.obCap64K
  ht : rising s.ht.entries = true
  htAddr : ∀ h, (readCell h s.ht.entries).isSome → h < Config.htSize s.build

/-- The byte that the History Buffer holds for logical offset `o`. -/
def histByte (s : State) (o : Nat) : Option Byte := readCell (phys s.variant o) s.hbMem

/-- A logical offset is in the window (40 R140, R143). -/
def InWindow (s : State) (o : Nat) : Prop := o < s.w ∧ s.w ≤ o + Config.cap s.variant

/-- The dictionary of a session (10_state R29, R30, R32 (a) and (b), R25, R226). -/
structure Dictionary (s : State) : Prop where
  built : Config.cap s.variant ≤ s.build.maxCap
  limit : s.w < Config.offLimit s.build
  window : ∀ o, InWindow s o → (histByte s o).isSome
  defined : s.ht.defined = true
  recorded : ∀ h e, readCell h s.ht.entries = some e → e.valid = true → e.off + 3 ≤ s.w
  hashed : ∀ h e, readCell h s.ht.entries = some e → e.valid = true → s.w ≤ e.off + Config.cap s.variant →
    ∃ x0 x1 x2, histByte s e.off = some x0 ∧ histByte s (e.off + 1) = some x1 ∧ histByte s (e.off + 2) = some x2 ∧
      hash3 s.build x0 x1 x2 = h
  holdOnlyFront : s.flagsHold.compressed = false ∧ s.flagsHold.flushed = false
  firstHeld : s.firstPkt = true → s.flagsHold.atFront = true

/-- IDLE: no command in progress (43 R198, 44 R227, 10_state R37). -/
structure Resting (s : State) : Prop where
  noChunk : s.chunk = []
  noFlush : s.doFlush = false
  front : s.sess = .ready → (s.flagsHold.atFront = true ↔ s.w = 0)
  spanRead : ∀ a, a < s.spanLen → (readCell a s.obMem).isSome
  spanSession : 0 < s.spanLen → s.sess = .ready

/-- The bits of the offset code that a copy token in progress has already emitted. -/
def sentWidth (s : State) : Nat :=
  if s.offSent then (emitsString ((sessionTable s).off s.mD)).length else 0

/-- A COMPRESS in progress (43 R191, 10_state R28, R30, R34, 44 R225). -/
structure Encoding (s : State) : Prop where
  ready : s.sess = .ready
  nPos : 1 ≤ s.n
  nCap : s.n ≤ Config.cap s.variant
  pos : s.w = s.b + s.j
  jn : s.j ≤ s.n
  limit : s.b + s.n < Config.offLimit s.build
  front : atFront s = decide (s.b = 0)
  taken : s.chunk.length ≤ s.n
  waiting : s.chunk.length < s.n → s.teState = .scan ∧ s.j = 0
  stream : ∀ q, q < s.j → histByte s (s.b + q) = s.chunk[q]?
  assembler : AssemblerReady s
  filled : ∀ a, a < s.obIdx → (readCell a s.obMem).isSome
  room : streamPos s ≤ 8 * Config.obCap s.build s.variant
  noSpan : s.spanLen = 0
  noRsp : s.rspValid = false
  budget : s.teState ≠ .done → streamPos s ≤ 9 * s.j + sentWidth s

/-- EMIT_MATCH (43 R195, 41 R161, R164): the match registers hold a verified match. -/
structure Matched (s : State) : Prop where
  dMin : 3 ≤ s.mD
  dMax : s.mD ≤ Config.maxOff s.build s.variant
  origin : s.mC + s.mD = s.w
  lMin : Config.minLen s.build s.variant ≤ s.mLen
  lMax : s.mLen ≤ Config.maxLen s.build s.variant
  inside : s.j + s.mLen ≤ s.n
  verified : ∀ i, i < s.mLen → ∃ x, s.chunk[s.j + i]? = some x ∧ srcByte s (s.mC + i) = .ok x

/-- The invariant of the machine. `tables` is no claim about the machine: it says that the tables it was built with are
well-formed, since no run-time behaviour is defined for another table (30_encoding R101, 92 D29). -/
structure Inv (s : State) : Prop where
  tables : ∀ v, Config.cap v ≤ s.build.maxCap → TableWellFormed v (codeTable s.build v)
  accepting : s.accepted ≠ none → s.teState = .idle ∧ s.rspValid = false
  widths : Widths s
  stores : Stores s
  dictionary : s.sess = .ready → Dictionary s
  resting : s.teState = .idle → Resting s
  encoding : s.teState ≠ .idle → Encoding s
  literal : s.teState = .emitLiteral → s.j < s.n
  copy : s.teState = .emitMatch → Matched s
  sent : s.offSent = true → s.teState = .emitMatch
  done : s.teState = .done → s.j = s.n ∧ s.obBits = 0 ∧ 8 * s.obIdx ≤ 9 * s.n + 7

/-- The output buffers have the worst-case size `⌈9·CAP/8⌉` at least (43 R203). -/
def WorstCaseSized (p : Config.Build) : Prop := ∀ v, 9 * Config.cap v ≤ 8 * Config.obCap p v

/-! ### What the peer reads (43 R207) -/

/-- A token (30_encoding R96). -/
inductive Token where
  | lit (x : Byte)
  | copy (d l : Nat)
deriving DecidableEq, Repr

/-- `COPY d L` on the peer's bytes `D`: `L` times, append the byte `d` back (R207). -/
def copyBytes (d : Nat) : Nat → List Byte → Option (List Byte)
  | 0, D => some D
  | l + 1, D =>
    if 1 ≤ d ∧ d ≤ D.length then
      match D[D.length - d]? with
      | some x => copyBytes d l (D ++ [x])
      | none => none
    else none

/-- What a token does to the peer's bytes (R207). -/
def denote (D : List Byte) : Token → Option (List Byte)
  | .lit x => some (D ++ [x])
  | .copy d l => copyBytes d l D

/-- What a token list does to the peer's bytes (R207). -/
def denoteAll : List Token → List Byte → Option (List Byte)
  | [], D => some D
  | t :: ts, D => (denote D t).bind (denoteAll ts)

/-- The bits of a token by a table (R96, R105): a literal's codeword, or the offset code and then the length code. -/
def tokenBits (c : CodeTable) : Token → List Bool
  | .lit x => emitsString (c.lit x)
  | .copy d l => emitsString (c.off d) ++ emitsString (c.len l)

/-- A table codes every token of a list: each copy's distance and length are in its domain (R100). -/
def Coded (c : CodeTable) (ts : List Token) : Prop := ∀ d l, Token.copy d l ∈ ts → CodesOff c d ∧ CodesLen c l

/-- The bytes from which the tokens of a result with flags `f` start, at a peer that held `D` (R207). -/
def peerStart (f : FlagSet) (D : List Byte) : List Byte := if f.flushed || f.atFront then [] else D

/-- A chunk's result applied to the peer's bytes `D` (R207), where its span reads as the tokens `ts`, if compressed: the chunk, and
the peer's bytes after it. -/
def applyResult (f : FlagSet) (ts : List Token) (span D : List Byte) : Option (List Byte × List Byte) :=
  if f.compressed then (denoteAll ts (peerStart f D)).map fun D' => (D'.drop (peerStart f D).length, D')
  else some (span, [])

/-- The bits of a span, each byte most significant bit first (00_scope R13). -/
def bitsOf (span : List Byte) : List Bool := span.flatMap fun x => natBits 8 x.toNat

/-- `span` is the output span of `s` (10_state R37). -/
def SpanIs (s : State) (span : List Byte) : Prop :=
  span.length = s.spanLen ∧ ∀ k, k < s.spanLen → readCell k s.obMem = span[k]?

/-- The output stream of `s` begins with the bits `bs`. -/
def StreamIs (s : State) (bs : List Bool) : Prop :=
  ∀ k, (h : k < bs.length) → streamBit s k = some bs[k]

/-- `D` is the logical stream `S` of the dictionary as far as the window shows it (00_scope R14, 10_state R30). -/
def Mirrors (D : List Byte) (s : State) : Prop :=
  D.length = s.w ∧ ∀ o, InWindow s o → histByte s o = D[o]?

/-- During an encode pass that began with the logical stream `D`: the dictionary is `D` and the consumed part of the chunk, and the
bits emitted so far are those of a list of tokens that the table codes, by which a peer that holds `D` gets the same bytes
(43 R202, R208). -/
def Faithful (D : List Byte) (s : State) : Prop :=
  D.length = s.b ∧ Mirrors (D ++ s.chunk.take s.j) s ∧
    ∃ ts : List Token, ∃ tail : List Bool,
      Coded (sessionTable s) ts ∧
      denoteAll ts D = some (D ++ s.chunk.take s.j) ∧
      StreamIs s (ts.flatMap (tokenBits (sessionTable s)) ++ tail) ∧
      streamPos s = (ts.flatMap (tokenBits (sessionTable s)) ++ tail).length ∧
      (s.teState ≠ .done → tail = if s.offSent then emitsString ((sessionTable s).off s.mD) else []) ∧
      (s.teState = .done → tail.length < 8 ∧ ∀ x ∈ tail, x = false)

/-! ### States that no rule tells apart (00_scope R11, 10_state R55) -/

/-- `s` and `t` agree on everything that a rule may read: all but stale bytes and entries, the registers of a session that
does not exist, the per-call registers outside a COMPRESS, and the free values still to be drawn. -/
structure Alike (s t : State) : Prop where
  build : s.build = t.build
  rst : s.rst = t.rst
  accepted : s.accepted = t.accepted
  cmdQ : s.cmdQ = t.cmdQ
  inQ : s.inQ = t.inQ
  obRaddr : s.obRaddr = t.obRaddr
  rspValid : s.rspValid = t.rspValid
  rsp : s.rsp = t.rsp
  sess : s.sess = t.sess
  teState : s.teState = t.teState
  spanLen : s.spanLen = t.spanLen
  span : ∀ a, a < s.spanLen → readCell a s.obMem = readCell a t.obMem
  variant : s.sess = .ready ∨ s.teState ≠ .idle → s.variant = t.variant
  firstPkt : s.sess = .ready ∨ s.teState ≠ .idle → s.firstPkt = t.firstPkt
  flagsHold : s.sess = .ready ∨ s.teState ≠ .idle → s.flagsHold = t.flagsHold
  w : s.sess = .ready ∨ s.teState ≠ .idle → s.w = t.w
  window : s.sess = .ready ∨ s.teState ≠ .idle → ∀ o, InWindow s o → histByte s o = histByte t o
  lookup : s.sess = .ready ∨ s.teState ≠ .idle → ∀ h, mfLookup h s = mfLookup h t
  j : s.teState ≠ .idle → s.j = t.j
  n : s.teState ≠ .idle → s.n = t.n
  b : s.teState ≠ .idle → s.b = t.b
  chunk : s.teState ≠ .idle → s.chunk = t.chunk
  doFlush : s.teState ≠ .idle → s.doFlush = t.doFlush
  offSent : s.teState ≠ .idle → s.offSent = t.offSent
  obIdx : s.teState ≠ .idle → s.obIdx = t.obIdx
  obBits : s.teState ≠ .idle → s.obBits = t.obBits
  emitted : s.teState ≠ .idle → ∀ a, a < s.obIdx ∨ (a = s.obIdx ∧ 0 < s.obBits) → readCell a s.obMem = readCell a t.obMem
  mC : s.teState = .emitMatch → s.mC = t.mC
  mD : s.teState = .emitMatch → s.mD = t.mD
  mLen : s.teState = .emitMatch → s.mLen = t.mLen

/-- Two answers of a step that no rule tells apart: alike next states, or the same stop. -/
def AlikeResult : Result → Result → Prop
  | .next s, .next t => Alike s t
  | .fault f, .fault g => f = g
  | .refused f, .refused g => f = g
  | _, _ => False

end Sys2Proof.Safety
end

