-- ==== Sys2Proof/Certificates/Slice0/Obligations.lean ====
section
/-! DEFINITION. The statements for the provers. Each docstring says which rule of spec/ it formalises. -/

open Sys2Proof Sys2Proof.Machine Sys2Proof.Safety

/-! ### Encoding -/

/-- Decode and encode agree (30_encoding R92, R97 to R99, R106): at every position where an instruction can stand, the decoder
reads an instruction back from its encoding with every operand, and leaves the bits that follow. -/
def Obligations.DecodeReadsBackEveryEncoding : Prop :=
  ∀ (i : Instr) (p : Position) (rest : List Bool), i.fits p = true → decode p (encode i ++ rest) = .ok (i, rest)

/-- What the decoder reads is the encoding of what it answers: no bit is dropped (R92, R97 to R99). -/
def Obligations.DecodedBitsAreTheEncoding : Prop :=
  ∀ (p : Position) (bs rest : List Bool) (i : Instr),
    decode p bs = .ok (i, rest) → i.fits p = true ∧ bs = encode i ++ rest

/-- A few words written out from R91, R97, R98, R99 and R107 decode to the instructions they stand for. -/
def Obligations.WrittenWordsDecode : Prop :=
  decodeCommand 0x08000000#32 = .ok (.create 1) ∧
    decodeCommand 0x6000000C#32 = .ok (.compress true 12) ∧
    decodeCommand 0x80000000#32 = .ok .destroy ∧
    decode (.token .v8k) [false, true, true, false, false, false, false, true] = .ok (.lit7 0x61, []) ∧
    decode (.token .v8k) [true, true, true, true, false, false, false, false, true, true] = .ok (.off8kA 3, []) ∧
    decode (.token .v64k) [true, true, true, true, false, false, false, false, true, true, false, true, false] =
      .ok (.off64kB 0x1A, []) ∧
    decode (.length .v8k) [true, true, false, true, false, true] = .ok (.len8 5, [])

/-- Which command words are illegal (30_encoding R92, R108): `op = 0b11`, a reserved bit set, or a field set that the operation
does not use, and no other. -/
def Obligations.IllegalCommandWordsExactly : Prop :=
  ∀ c : Word, decodeCommand c = .error .illegalCommand ↔
    (c.extractLsb' 30 2 = 3#2 ∨ c.extractLsb' 17 10 ≠ 0#10 ∨
      (c.extractLsb' 30 2 = 0#2 ∧ (c.getLsbD 29 = true ∨ c.extractLsb' 0 17 ≠ 0#17)) ∨
      (c.extractLsb' 30 2 = 1#2 ∧ c.extractLsb' 27 2 ≠ 0#2) ∨
      (c.extractLsb' 30 2 = 2#2 ∧ (c.getLsbD 29 = true ∨ c.extractLsb' 27 2 ≠ 0#2 ∨ c.extractLsb' 0 17 ≠ 0#17)))

/-- The emits of a token format, concatenated, are its codeword (30_encoding R97, R98, R99, R104). -/
def Obligations.EmitsSpellTheCodeword : Prop :=
  ∀ i : Instr, i.fits .command = false → emitsString (emits i) = encode i

/-- The default CodeTable of each variant is well-formed (30_encoding R101 (a) to (f), R102, R103). -/
def Obligations.DefaultTablesWellFormed : Prop :=
  ∀ v : Variant, TableWellFormed v (codeTable Config.defaultBuild v) ∧
    (∀ d i, offToken v d = some i → offsetFieldWidth i ≤ Config.offw v) ∧
    (∃ d i, offToken v d = some i ∧ offsetFieldWidth i = Config.offw v)

/-- The response word's fields (30_encoding R93, R94, R95): status, flags byte, zeros, length; the flags byte has FLUSHED in bit 7,
AT_FRONT in bit 6, COMPRESSED in bit 5 and zeros below; the seven statuses have the codes 0 to 6. -/
def Obligations.ResponseWordLayout : Prop :=
  (statusCode .ok = 0#4 ∧ statusCode .unsupportedVariant = 1#4 ∧ statusCode .invalidInput = 2#4 ∧
    statusCode .outputOverflow = 3#4 ∧ statusCode .outOfMemory = 4#4 ∧ statusCode .badState = 5#4 ∧
    statusCode .illegalCmd = 6#4) ∧
  ∀ r : Response, r.len < 2 ^ 17 →
    (responseWord r).extractLsb' 28 4 = statusCode r.status ∧
      (responseWord r).extractLsb' 20 8 = flagsByte r.flags ∧
      (responseWord r).extractLsb' 17 3 = 0#3 ∧
      ((responseWord r).extractLsb' 0 17).toNat = r.len ∧
      (flagsByte r.flags).getLsbD 7 = r.flags.flushed ∧ (flagsByte r.flags).getLsbD 6 = r.flags.atFront ∧
      (flagsByte r.flags).getLsbD 5 = r.flags.compressed ∧ (flagsByte r.flags).extractLsb' 0 5 = 0#5

/-! ### Commands -/

/-- CREATE of a supported variant completes (44 R216, 10_state R50): the session is READY with an empty dictionary; HB, OB, the `off`
fields and all else keep their values. Of the cursor and the per-call registers, unspecified after CREATE, nothing is said. -/
def Obligations.CreateOpensAnEmptySession : Prop :=
  ∀ (code : BitVec 2) (v : Variant) (s : State),
    s.teState = .idle → s.sess = .absent → (code = 0#2 ∧ v = .v8k ∨ code = 1#2 ∧ v = .v64k) →
    Config.cap v ≤ s.build.maxCap →
    ∃ t, exec (.create code) s = .next t ∧
      t = { s with
        variant := v, w := 0, ht := t.ht, firstPkt := true
        flagsHold := { compressed := false, atFront := true, flushed := false }
        sess := .ready, rsp := { status := .ok, flags := noFlags, len := 0 }, rspValid := true, spanLen := 0
        obIdx := t.obIdx, obBits := t.obBits, j := t.j, n := t.n, b := t.b, mC := t.mC, mD := t.mD, mLen := t.mLen
        freeCtr := t.freeCtr } ∧
      (∀ h, mfLookup h t = .ok none) ∧ (∀ o, ¬ InWindow t o) ∧
      (∀ h, (readCell h t.ht.entries).map HtEntry.off = (readCell h s.ht.entries).map HtEntry.off)

/-- CREATE's errors in the order of 60 R252 (44 R217): each changes nothing but the response. -/
def Obligations.CreateErrorsChangeOnlyTheResponse : Prop :=
  ∀ (code : BitVec 2) (s : State), s.teState = .idle →
    (s.sess ≠ .absent → exec (.create code) s =
      .next { s with rsp := { status := .badState, flags := noFlags, len := 0 }, rspValid := true }) ∧
    (s.sess = .absent → 2 ≤ code.toNat → exec (.create code) s =
      .next { s with rsp := { status := .unsupportedVariant, flags := noFlags, len := 0 }, rspValid := true }) ∧
    (s.sess = .absent → ∀ v, (code = 0#2 ∧ v = .v8k ∨ code = 1#2 ∧ v = .v64k) → s.build.maxCap < Config.cap v →
      exec (.create code) s =
        .next { s with rsp := { status := .outOfMemory, flags := noFlags, len := 0 }, rspValid := true })

/-- COMPRESS of a valid length on a READY session completes its acceptance (44 R218, R219, R220, R222, 43 R191): the encode pass
starts at position 0 with no chunk byte taken; the dictionary is emptied first exactly when the caller asks or the policy
does; all else keeps its value. -/
def Obligations.CompressStartsAnEncodePass : Prop :=
  ∀ (f : Bool) (len : BitVec 17) (s : State),
    s.teState = .idle → s.sess = .ready → 1 ≤ len.toNat → len.toNat ≤ Config.cap s.variant →
    ∃ t, exec (.compress f len) s = .next t ∧
      t = { s with
        w := t.w, ht := t.ht, n := len.toNat, b := t.w, j := 0, obIdx := 0, obBits := 0, teState := .scan
        chunk := [], doFlush := t.doFlush, offSent := false, rspValid := false, spanLen := 0 } ∧
      (t.doFlush = true ↔ f = true ∨ 2 ^ s.build.loffw ≤ s.w + len.toNat) ∧
      (t.doFlush = false → t.w = s.w ∧ t.ht = s.ht) ∧
      (t.doFlush = true → t.w = 0 ∧ ∀ h, mfLookup h t = .ok none)

/-- COMPRESS's rejections in the order of 44 R218 (60 R247, R250): each changes nothing but the response, and performs no flush. -/
def Obligations.CompressErrorsChangeOnlyTheResponse : Prop :=
  ∀ (f : Bool) (len : BitVec 17) (s : State), s.teState = .idle →
    (s.sess = .absent → exec (.compress f len) s =
      .next { s with rsp := { status := .invalidInput, flags := noFlags, len := 0 }, rspValid := true }) ∧
    (s.sess = .faulted → exec (.compress f len) s =
      .next { s with rsp := { status := .badState, flags := noFlags, len := 0 }, rspValid := true }) ∧
    (s.sess = .ready → (len.toNat = 0 ∨ Config.cap s.variant < len.toNat) → exec (.compress f len) s =
      .next { s with rsp := { status := .invalidInput, flags := noFlags, len := 0 }, rspValid := true })

/-- The capacity boundary (44 R232): which lengths each variant accepts. -/
def Obligations.CapacityBoundary : Prop :=
  ∀ (f : Bool) (len : BitVec 17) (s : State), s.teState = .idle → s.sess = .ready →
    (s.variant = .v8k →
      ((∃ t, exec (.compress f len) s = .next t ∧ t.teState = .scan) ↔ 1 ≤ len.toNat ∧ len.toNat ≤ 8192)) ∧
    (s.variant = .v64k →
      ((∃ t, exec (.compress f len) s = .next t ∧ t.teState = .scan) ↔ 1 ≤ len.toNat ∧ len.toNat ≤ 65536))

/-- DESTROY succeeds from every session state (44 R231). Nothing is said of what becomes unspecified. -/
def Obligations.DestroyAlwaysSucceeds : Prop :=
  ∀ s : State, s.teState = .idle →
    ∃ t, exec .destroy s = .next t ∧ t.sess = .absent ∧ t.teState = .idle ∧
      t.rsp = { status := .ok, flags := noFlags, len := 0 } ∧ t.rspValid = true ∧ t.spanLen = 0 ∧
      t.build = s.build ∧ t.rst = s.rst ∧ t.accepted = s.accepted ∧ t.cmdQ = s.cmdQ ∧ t.inQ = s.inQ ∧ t.obRaddr = s.obRaddr

/-- An accepted command word that matches no match/mask pair (60 R251, 30_encoding R108): the step that carries it out ends with
ERR_ILLEGAL_CMD, code 6; nothing but the response changes and no input byte is taken. That the word has left the port, whatever
it is, and waits in `accepted` is the model's (log 21 on R108 and 70 R282, log 6, log 24). -/
def Obligations.IllegalWordChangesOnlyTheResponse : Prop :=
  ∀ (c : Word) (s : State), s.rst = false → s.teState = .idle → s.accepted = some c →
    c &&& 0xE7FFFFFF#32 ≠ 0x00000000#32 → c &&& 0xDFFE0000#32 ≠ 0x40000000#32 → c ≠ 0x80000000#32 →
    step s = .next { s with
      accepted := none, rsp := { status := .illegalCmd, flags := noFlags, len := 0 }, rspValid := true } ∧
      statusCode .illegalCmd = 6#4

/-- An accepted command that ends with an error status changes only the response (44 R230, 60 R245, R253), whichever word it is. That
the word, an illegal one too, has left the port and waits in `accepted` is the model's (log 21 on R108 and 70 R282, log 6,
log 24). -/
def Obligations.FailedCommandsMutateNothingElse : Prop :=
  ∀ (c : Word) (s t : State), s.rst = false → s.teState = .idle → s.accepted = some c →
    step s = .next t → t.teState = .idle → t.rsp.status ≠ .ok →
    t = { s with accepted := none, rsp := { status := t.rsp.status, flags := noFlags, len := 0 }, rspValid := true }

/-! ### Tokens -/

/-- LIT7 and LIT8 complete (43 R194, R196, 30_encoding R97): the codeword is appended, the byte enters the dictionary at `W mod CAP`,
the entry of position `j − 2` is recorded, `j` advances by one, back to SCAN; all else keeps its value. The token is the format
that the session's table has for the byte (R100). -/
def Obligations.LiteralTokensComplete : Prop :=
  ∀ (i : Instr) (x : Byte) (s : State), literalByte i = some x →
    s.teState = .emitLiteral → s.chunk[s.j]? = some x → (sessionTable s).lit x = emits i → AssemblerReady s → Fits s i →
    ∃ t, exec i s = .next t ∧ Appended s t (encode i) ∧
      t = { s with
        hbMem := t.hbMem, w := s.w + 1, ht := t.ht, obMem := t.obMem, obIdx := t.obIdx, obBits := t.obBits
        j := s.j + 1, teState := .scan, offSent := false } ∧
      readCell (s.w % Config.cap s.variant) t.hbMem = some x ∧
      (∀ a, a ≠ s.w % Config.cap s.variant → readCell a t.hbMem = readCell a s.hbMem) ∧
      Recorded s t s.j (s.j + 1)

/-- OFF8K_A, OFF8K_B, OFF8K_C, OFF64K_A, OFF64K_B, OFF64K_C, OFF64K_D complete (43 R195, 30_encoding R98): the offset code of `m_d` is
appended, and nothing else changes but that the second half is due. The token is the format that the session's table has for
`m_d` (R100). That a copy token takes two steps, of which this is the first, is the model's choice (log 5). -/
def Obligations.OffsetTokensComplete : Prop :=
  ∀ (i : Instr) (v : Variant) (d : Nat) (s : State), offsetOf i = some (v, d) →
    s.teState = .emitMatch → s.offSent = false → s.variant = v → s.mD = d → (sessionTable s).off d = emits i →
    AssemblerReady s → Fits s i →
    ∃ t, exec i s = .next t ∧ Appended s t (encode i) ∧
      t = { s with obMem := t.obMem, obIdx := t.obIdx, obBits := t.obBits, offSent := true }

/-- LEN_3, LEN_4, LEN_8, LEN_16, LEN_32, LEN_64, LEN_128, LEN_256, LEN_512, LEN_1024, LEN_2048, LEN_4096, LEN_8192, LEN_16384,
LEN_32768 complete (43 R195, R196, 30_encoding R99): the length code of `m_len` is appended, the `m_len` bytes enter the dictionary
in order, their entries are recorded, `j` advances by `m_len`, back to SCAN; all else keeps its value. The token is the format
that the session's table has for `m_len` (R100). That it is the second of the copy token's two steps is the model's choice
(log 5). -/
def Obligations.LengthTokensComplete : Prop :=
  ∀ (i : Instr) (l : Nat) (s : State), lengthOf i = some l →
    s.teState = .emitMatch → s.offSent = true → s.mLen = l → (sessionTable s).len l = emits i →
    l ≤ Config.cap s.variant → s.j + l ≤ s.chunk.length → AssemblerReady s → Fits s i →
    ∃ t, exec i s = .next t ∧ Appended s t (encode i) ∧
      t = { s with
        hbMem := t.hbMem, w := s.w + l, ht := t.ht, obMem := t.obMem, obIdx := t.obIdx, obBits := t.obBits
        j := s.j + l, teState := .scan, offSent := false } ∧
      (∀ k, k < l → readCell ((s.w + k) % Config.cap s.variant) t.hbMem = s.chunk[s.j + k]?) ∧
      (∀ a, (∀ k, k < l → a ≠ (s.w + k) % Config.cap s.variant) → readCell a t.hbMem = readCell a s.hbMem) ∧
      Recorded s t s.j (s.j + l)

/-- A selected token whose codeword does not fit is the fatal OutputOverflow (42 R181, 60 R248): FAULTED, the variant kept, status
ERR_OUTPUT_OVERFLOW. Nothing is said of what becomes unspecified. -/
def Obligations.TokenOverflowIsFatal : Prop :=
  ∀ (i : Instr) (s : State), Selected i s → AssemblerReady s →
    streamPos s ≤ 8 * Config.obCap s.build s.variant → ¬ Fits s i →
    ∃ t, exec i s = .next t ∧ t.sess = .faulted ∧ t.variant = s.variant ∧ t.teState = .idle ∧
      t.rsp = { status := .outputOverflow, flags := noFlags, len := 0 } ∧ t.rspValid = true ∧ t.spanLen = 0 ∧
      t.build = s.build ∧ t.rst = s.rst ∧ t.accepted = s.accepted ∧ t.cmdQ = s.cmdQ ∧ t.inQ = s.inQ ∧ t.obRaddr = s.obRaddr

/-- What `exec` refuses, which is the model's choice (log 9, on 70 R279, 43 R198 and 93 U7, U9): a command while one is in
progress, a token that is not selected. -/
def Obligations.RefusedOutsideItsPlace : Prop :=
  ∀ (i : Instr) (s : State),
    (i.fits .command = true → s.teState ≠ .idle → exec i s = .refused .commandInProgress) ∧
    (i.fits .command = false → ¬ Selected i s → exec i s = .refused .tokenNotSelected)

/-- A step runs the decoded instruction. In IDLE the command word accepted (70 R282); in EMIT_LITERAL and EMIT_MATCH the codeword that
the CodeTable gives for the selected byte, distance or length, where the instance has the default table's code there; and
with every table, the table's code itself (43 R194, R195, 30_encoding R100). The two steps of a copy token are log 5. -/
def Obligations.StepRunsTheDecodedInstruction : Prop :=
  ∀ s : State, s.rst = false →
    (∀ i c, s.teState = .idle → s.accepted = some c → decode .command (natBits 32 c.toNat) = .ok (i, []) →
      step s = exec i { s with accepted := none }) ∧
    (∀ x, s.teState = .emitLiteral → s.chunk[s.j]? = some x →
      step s = emitLiteral ((sessionTable s).lit x) s ∧
      ∀ i, (sessionTable s).lit x = (codeTable Config.defaultBuild s.variant).lit x →
        decode (.token s.variant) (emitsString ((sessionTable s).lit x)) = .ok (i, []) → step s = exec i s) ∧
    (s.teState = .emitMatch → s.offSent = false →
      step s = emitOffset ((sessionTable s).off s.mD) s ∧
      ∀ i, (sessionTable s).off s.mD = (codeTable Config.defaultBuild s.variant).off s.mD →
        decode (.token s.variant) (emitsString ((sessionTable s).off s.mD)) = .ok (i, []) → step s = exec i s) ∧
    (s.teState = .emitMatch → s.offSent = true →
      step s = emitLength ((sessionTable s).len s.mLen) s ∧
      ∀ i, (sessionTable s).len s.mLen = (codeTable Config.defaultBuild s.variant).len s.mLen →
        decode (.length s.variant) (emitsString ((sessionTable s).len s.mLen)) = .ok (i, []) → step s = exec i s)

/-! ### The components -/

/-- Bit-packing exactness (42 R180): after START, emits that do not overflow, and FINISH, the byte count is the bit count rounded up
and the buffer holds the codes' bits in order, then zeros. -/
def Obligations.BitPackingExact : Prop :=
  ∀ (es : List Emit) (s t : State), baEmits es (baStart s) = .ok t →
    (baFinish t).obIdx = ((emitsString es).length + 7) / 8 ∧ (baFinish t).obBits = 0 ∧
      (∀ k, (h : k < (emitsString es).length) → streamBit (baFinish t) k = some (emitsString es)[k]) ∧
      (∀ k, (emitsString es).length ≤ k → k < 8 * (baFinish t).obIdx → streamBit (baFinish t) k = some false)

/-- OutputOverflow is raised exactly when the emit would exceed the buffer (42 R177, R181); else the emit completes and appends its
bits. -/
def Obligations.EmitOverflowsExactlyWhenFull : Prop :=
  ∀ (e : Emit) (s : State), AssemblerReady s →
    (8 * Config.obCap s.build s.variant < streamPos s + e.width → baEmit e s = .error .overflow) ∧
    (streamPos s + e.width ≤ 8 * Config.obCap s.build s.variant →
      ∃ t, baEmit e s = .ok t ∧ Appended s t (emitString e) ∧
        t = { s with obMem := t.obMem, obIdx := t.obIdx, obBits := t.obBits })

/-- The window invariant is preserved (40 R145): where the window shows the logical stream `D`, it shows `D ++ [x]` after APPEND and
the empty stream after RESET. -/
def Obligations.WindowShowsTheStream : Prop :=
  ∀ (D : List Byte) (x : Byte) (s : State), Mirrors D s → Mirrors (D ++ [x]) (hbAppend x s) ∧ Mirrors [] (hbReset s)

/-- HB.READ (40 R143): inside the window the byte of the logical stream, outside it never a value. -/
def Obligations.ReadServesOnlyTheWindow : Prop :=
  ∀ (D : List Byte) (o : Nat) (s : State), Mirrors D s →
    (InWindow s o → ∃ x, D[o]? = some x ∧ hbRead o s = .ok x) ∧
    (¬ InWindow s o → hbRead o s = .error .outsideWindow)

/-- The dictionary reset (44 R221, 41 R160): no offset is in the window, every lookup answers none, and no stored byte or `off` is
erased. -/
def Obligations.DictionaryResetEmpties : Prop :=
  ∀ s : State, (∀ o, ¬ InWindow (resetDict s) o) ∧ (∀ h, mfLookup h (resetDict s) = .ok none) ∧
    resetDict s = { s with w := 0, ht := (resetDict s).ht } ∧
    (∀ h, (readCell h (resetDict s).ht.entries).map HtEntry.off = (readCell h s.ht.entries).map HtEntry.off)

/-- MF.EXTEND (41 R161) answers the largest length, up to the end of the chunk and MAXLEN, over which the source bytes equal the
chunk's. -/
def Obligations.ExtendIsTheLongestMatch : Prop :=
  ∀ (c l : Nat) (s : State), s.chunk.length = s.n → mfExtend c s = .ok l →
    l ≤ min (s.n - s.j) (Config.maxLen s.build s.variant) ∧
      (∀ i, i < l → ∃ x, s.chunk[s.j + i]? = some x ∧ srcByte s (c + i) = .ok x) ∧
      (l < min (s.n - s.j) (Config.maxLen s.build s.variant) →
        ∃ x y, s.chunk[s.j + l]? = some x ∧ srcByte s (c + l) = .ok y ∧ y ≠ x)

/-- The canonical form of every store is kept by every operation that writes it. That a store of 20_memory R60 is held as a list of
cells with strictly rising addresses, and which form of it is canonical, is the model's choice: log 2 for HB and OB, log 16
for HT. -/
def Obligations.MemoryOperationsKeepTheCanonicalForm : Prop :=
  ∀ s : State, Memory.wf s.hbMem = true → Memory.wf s.obMem = true → rising s.ht.entries = true →
    (∀ x, Memory.wf (hbAppend x s).hbMem = true) ∧
    (∀ h o, rising (mfRecord h o s).ht.entries = true) ∧ rising (mfClear s).ht.entries = true ∧
    (∀ l, Memory.wf (consumeFromJ l s).hbMem = true ∧ rising (consumeFromJ l s).ht.entries = true) ∧
    (∀ es t, baEmits es s = .ok t → Memory.wf t.obMem = true) ∧
    (∀ xs, Memory.wf (writeRun 0 xs s.obMem) = true)

/-! ### The Token Encoder's micro-steps -/

/-- The input transfer (70 R283, R281): `in_ready` is 1 exactly while a COMPRESS that passed its checks has not taken its `n` bytes;
then the core takes the bytes offered, in order, up to `n` and no more, and waits where none is offered; while `in_ready` is 0
no step takes a byte. -/
def Obligations.InputTransferTakesExactlyTheChunk : Prop :=
  ∀ s : State, s.rst = false →
    (inReady s = true ↔ s.teState = .scan ∧ s.chunk.length < s.n) ∧
    (inReady s = true →
      ∃ t, step s = .next t ∧ t = { s with chunk := t.chunk, inQ := t.inQ } ∧
        t.chunk ++ t.inQ = s.chunk ++ s.inQ ∧ t.chunk.length = min s.n (s.chunk.length + s.inQ.length) ∧
        (inReady t = false ↔ t.chunk.length = s.n)) ∧
    (inReady s = false → ∀ t, step s = .next t → t.inQ = s.inQ)

/-- The literal/copy selector (43 R192, R193, R199, 41 R158, R162, R165): at a position before the end of the chunk, what SCAN does
in each case. -/
def Obligations.ScanFollowsTheSelector : Prop :=
  ∀ (b0 b1 b2 : Byte) (rest : List Byte) (s : State), s.rst = false → s.teState = .scan → s.chunk.length = s.n → s.j < s.n →
    (s.n - s.j < 3 → step s = .next { s with teState := .emitLiteral }) ∧
    (s.chunk.drop s.j = b0 :: b1 :: b2 :: rest →
      (mfLookup (hash3 s.build b0 b1 b2) s = .ok none → step s = .next { s with teState := .emitLiteral }) ∧
      (∀ c, mfLookup (hash3 s.build b0 b1 b2) s = .ok (some c) → ¬ (c < s.w ∧ s.w - c ≤ Config.maxOff s.build s.variant) →
        step s = .next { s with teState := .emitLiteral }) ∧
      (∀ c l, mfLookup (hash3 s.build b0 b1 b2) s = .ok (some c) → c < s.w → s.w - c ≤ Config.maxOff s.build s.variant →
        mfExtend c s = .ok l →
        (l < Config.minLen s.build s.variant → step s = .next { s with teState := .emitLiteral }) ∧
        (Config.minLen s.build s.variant ≤ l → step s = .next { s with mC := c, mD := s.w - c, mLen := l, teState := .emitMatch })))

/-- SCAN at the end of the chunk finalizes (43 R197, 42 R179): the trailing byte is closed, DONE, nothing else changes. -/
def Obligations.ScanFinalizesAtTheEnd : Prop :=
  ∀ s : State, s.rst = false → s.teState = .scan → s.chunk.length = s.n → s.j = s.n → s.obBits < 8 →
    step s = .next { s with obIdx := (8 * s.obIdx + s.obBits + 7) / 8, obBits := 0, teState := .done }

/-- What SCAN may change (43 R192), whatever it finds. -/
def Obligations.ScanChangesOnlyTheSequencer : Prop :=
  ∀ s t : State, s.rst = false → s.teState = .scan → s.chunk.length = s.n → step s = .next t →
    t = { s with teState := t.teState, mC := t.mC, mD := t.mD, mLen := t.mLen, obIdx := t.obIdx, obBits := t.obBits } ∧
      (t.teState ≠ .done → t.obIdx = s.obIdx ∧ t.obBits = s.obBits)

/-- Every copy that SCAN selects (43 R204, 41 R164): the distance is 3 at least and MAXOFF at most and reaches no further back than
the dictionary goes; the length is MINLEN at least and ends inside the chunk; every byte is verified. -/
def Obligations.SelectedCopiesStayInTheWindow : Prop :=
  ∀ s t : State, Inv s → s.rst = false → s.teState = .scan → step s = .next t → t.teState = .emitMatch →
    3 ≤ t.mD ∧ t.mD ≤ Config.maxOff s.build s.variant ∧ Config.maxOff s.build s.variant ≤ Config.cap s.variant - 1 ∧
      Config.maxOff Config.defaultBuild s.variant = Config.cap s.variant - 1 ∧
      t.mD ≤ s.w ∧ t.mC = s.w - t.mD ∧
      Config.minLen s.build s.variant ≤ t.mLen ∧ t.mLen ≤ min (s.n - s.j) (Config.maxLen s.build s.variant) ∧
      (∀ i, i < t.mLen → ∃ x, s.chunk[s.j + i]? = some x ∧ srcByte s (t.mC + i) = .ok x)

/-! ### The Session Controller's commit -/

/-- Passthrough (44 R219, R223, R224): where the encoding is not smaller, the span is the chunk itself, the dictionary is reset, FLUSHED
is set, the next chunk is at front; OB above the chunk and all else keep their values. -/
def Obligations.CommitPassesIncompressibleChunksThrough : Prop :=
  ∀ s : State, s.rst = false → s.teState = .done → s.chunk.length = s.n → s.n ≤ s.obIdx →
    s.n ≤ Config.obCap s.build s.variant →
    ∃ t, step s = .next t ∧
      t = { s with
        w := 0, ht := t.ht, obMem := t.obMem, firstPkt := false
        flagsHold := { compressed := false, atFront := true, flushed := false }
        rsp := { status := .ok
                 flags := { compressed := false, atFront := s.firstPkt || s.flagsHold.atFront || s.doFlush, flushed := true }
                 len := s.n }
        rspValid := true, teState := .idle, chunk := [], doFlush := false, spanLen := s.n } ∧
      (∀ k, k < s.n → readCell k t.obMem = s.chunk[k]?) ∧ (∀ a, s.n ≤ a → readCell a t.obMem = readCell a s.obMem) ∧
      (∀ h, mfLookup h t = .ok none)

/-- A compressed result (44 R219, R225, R227, R228): where the encoding is smaller, the span is the encoding, `flagsHold` is cleared,
dictionary and OB keep their values. -/
def Obligations.CommitDeliversTheEncoding : Prop :=
  ∀ s : State, s.rst = false → s.teState = .done → s.obIdx < s.n →
    step s = .next { s with
      firstPkt := false, flagsHold := noFlags
      rsp := { status := .ok
               flags := { compressed := true, atFront := s.firstPkt || s.flagsHold.atFront || s.doFlush, flushed := s.doFlush }
               len := s.obIdx }
      rspValid := true, teState := .idle, chunk := [], doFlush := false, spanLen := s.obIdx }

/-- Every successful result is no longer than the chunk, and as long exactly when COMPRESSED is clear (44 R223). -/
def Obligations.ResultNeverLongerThanTheChunk : Prop :=
  ∀ s t : State, s.rst = false → s.teState = .done → step s = .next t →
    t.rsp.status = .ok ∧ t.rsp.len ≤ s.n ∧ (t.rsp.len = s.n ↔ t.rsp.flags.compressed = false) ∧
      (t.rsp.flags.compressed = false ↔ s.n ≤ s.obIdx)

/-- The flags byte in all eight cases (44 R225, 30_encoding R95). -/
def Obligations.FlagsTable : Prop :=
  ∀ fresh doFlush pass : Bool,
    flagsByte (compressFlags (fresh || doFlush) doFlush pass) =
      match fresh, doFlush, pass with
      | false, false, false => 0x20#8
      | true, false, false => 0x60#8
      | false, true, false => 0xE0#8
      | true, true, false => 0xE0#8
      | false, false, true => 0x80#8
      | true, false, true => 0xC0#8
      | false, true, true => 0xC0#8
      | true, true, true => 0xC0#8

/-- AT_FRONT is set exactly when the dictionary was empty when the chunk's encoding began, `B = 0` (44 R225). -/
def Obligations.AtFrontMeansEmptyDictionary : Prop :=
  ∀ s t : State, Inv s → s.rst = false → s.teState = .done → step s = .next t →
    (t.rsp.flags.atFront = true ↔ s.b = 0)

/-- What the host reads at `ob_raddr` inside the span is the span's byte (10_state R37, 70 R284). -/
def Obligations.SpanBytesAreReadable : Prop :=
  ∀ s : State, Inv s → s.teState = .idle → s.rspValid = true → s.obRaddr.toNat < s.spanLen →
    readCell s.obRaddr.toNat s.obMem = some (obRdata s)

/-! ### Reset and waiting -/

/-- Hardware reset from any state (70 R275), and the state right after it (10_state R50): no session, IDLE, `RSP = {OK, 0, 0}`,
`rsp_valid = 0`, `cmd_ready = 1`. -/
def Obligations.HardwareResetFromAnyState : Prop :=
  (∀ s : State, s.rst = true →
    ∃ t, step s = .next t ∧ t.sess = .absent ∧ t.teState = .idle ∧
      t.rsp = { status := .ok, flags := noFlags, len := 0 } ∧ t.rspValid = false ∧ cmdReady t = true) ∧
    State.reset.sess = .absent ∧ State.reset.teState = .idle ∧
    State.reset.rsp = { status := .ok, flags := noFlags, len := 0 } ∧ State.reset.rspValid = false ∧
    cmdReady State.reset = true ∧ rspWord State.reset = 0#32

/-- In IDLE with no command presented the core waits and loses nothing (60 R263). -/
def Obligations.IdleLosesNothing : Prop :=
  ∀ s : State, s.rst = false → s.teState = .idle → s.accepted = none → s.cmdQ = [] → step s = .next s

/-! ### Rules of the whole machine -/

/-- The variant never changes while a session exists (00_scope R8, 10_state R23). -/
def Obligations.VariantNeverChanges : Prop :=
  ∀ s t : State, step s = .next t → s.sess ≠ .absent → t.sess ≠ .absent → t.variant = s.variant

/-- Only DESTROY or hardware reset leaves FAULTED (10_state R22, 60 R254), and only OutputOverflow enters it (60 R248). -/
def Obligations.FaultedIsSticky : Prop :=
  ∀ s t : State, step s = .next t →
    (s.sess = .faulted → s.teState = .idle → t.sess ≠ .faulted →
      t.sess = .absent ∧ (s.rst = true ∨ s.accepted = some 0x80000000#32)) ∧
    (s.sess ≠ .faulted → t.sess = .faulted → t.rsp.status = .outputOverflow)

/-- `first_pkt` is cleared only by a successful COMPRESS (10_state R24, 44 R226). -/
def Obligations.FirstPacketEndsWithASuccess : Prop :=
  ∀ s t : State, step s = .next t → s.sess = .ready → t.sess = .ready → s.firstPkt = true → t.firstPkt = false →
    s.teState = .done ∧ t.rsp.status = .ok ∧ t.rspValid = true

/-- The borrowed span is stable until a COMPRESS is accepted or the session ends (20_memory R78, 44 R230). -/
def Obligations.SpanStableUntilTheNextCompress : Prop :=
  ∀ s t : State, step s = .next t → s.teState = .idle → t.teState = .idle → s.sess = .ready → t.sess = .ready →
    t.obMem = s.obMem ∧ t.spanLen = s.spanLen

/-- No step changes the build parameters or the host's pins; words and bytes are only taken from the front of what the host presents
(00_scope R7, 70 R282, R283). -/
def Obligations.StepsLeaveTheHostsSideAlone : Prop :=
  ∀ s t : State, step s = .next t →
    t.build = s.build ∧ t.rst = s.rst ∧ t.obRaddr = s.obRaddr ∧
      (t.cmdQ = s.cmdQ ∨ ∃ c, s.cmdQ = c :: t.cmdQ) ∧ (∃ taken, s.inQ = taken ++ t.inQ) ∧
      (t.inQ ≠ s.inQ → s.teState = .scan ∧ s.chunk.length < s.n)

/-! ### Headline results -/

/-- The invariant holds after reset, where the registers that 10_state R50 leaves unspecified have the values of log 1. -/
def Obligations.ResetMeetsTheInvariant : Prop := Inv State.reset

/-- Every step keeps the invariant (10_state R30, R32 (a) and (b), R34; 43 R191; 44 R227; 41 R164; R16: every register fits its
width). That it speaks of a canonical form of the stores is the model's choice (logs 2 and 16). -/
def Obligations.EveryStepKeepsTheInvariant : Prop :=
  ∀ s t : State, Inv s → step s = .next t → Inv t

/-- No step from a state of the invariant stops: no read outside the window (40 R143, 93 U1), no read of an unspecified value
(10_state R55), no value outside the code table, whatever the host presents. -/
def Obligations.NoStepStops : Prop :=
  ∀ s : State, Inv s → ∃ t, step s = .next t

/-- With output buffers of the worst-case size OutputOverflow never happens (43 R203, 42 R181). -/
def Obligations.WorstCaseBufferNeverOverflows : Prop :=
  ∀ s t : State, Inv s → WorstCaseSized s.build → step s = .next t → t.sess = .faulted → s.sess = .faulted

/-- The defaults have the worst-case size (00_scope R7, 43 R203). -/
def Obligations.DefaultBufferIsWorstCaseSized : Prop := WorstCaseSized Config.defaultBuild

/-- Liveness (70 R289, 43 R201): a COMPRESS whose `n` bytes are presented completes, within `2·n + 3` steps of its encode pass's start
(`3·n + 3` with MINLEN 1), with a valid response; a session with the worst-case buffer succeeds. -/
def Obligations.EveryCompressCompletes : Prop :=
  ∀ s : State, Inv s → s.rst = false → s.teState = .scan → s.j = 0 → s.n ≤ s.chunk.length + s.inQ.length →
    ∃ k t, k ≤ (if Config.minLen s.build s.variant = 1 then 3 else 2) * s.n + 3 ∧
      Host.Core.run Sys2Proof.core k s = .next t ∧ t.teState = .idle ∧ t.rspValid = true ∧
      (t.rsp.status = .ok ∧ t.sess = .ready ∧ t.inQ = s.inQ.drop (s.n - s.chunk.length) ∨
        t.rsp.status = .outputOverflow ∧ t.sess = .faulted) ∧
      (WorstCaseSized s.build → t.rsp.status = .ok)

/-- No rule reads an unspecified value (00_scope R11, 10_state R55): a step from two states that agree on everything else answers
two states that agree on everything else, and the host reads the same span from both. -/
def Obligations.UnspecifiedValuesAreNeverRead : Prop :=
  ∀ s t : State, Alike s t → AlikeResult (step s) (step t) ∧
    (s.rspValid = true → s.obRaddr.toNat < s.spanLen → (readCell s.obRaddr.toNat s.obMem).isSome → obRdata s = obRdata t)

/-- Determinism across sessions (44 R234): CREATE of one variant on two instances of one build with no session, to which the host
presents the same, gives states that no rule tells apart, whatever their memories, registers, responses and spans hold. -/
def Obligations.FreshSessionsAreAlike : Prop :=
  ∀ (code : BitVec 2) (s t s' t' : State), s.sess = .absent → t.sess = .absent → s.teState = .idle → t.teState = .idle →
    s.build = t.build → s.rst = t.rst → s.accepted = t.accepted → s.cmdQ = t.cmdQ → s.inQ = t.inQ → s.obRaddr = t.obRaddr →
    exec (.create code) s = .next s' → exec (.create code) t = .next t' → s'.sess = .ready → Alike s' t'

/-- The encode pass begins in step with the peer (43 R207, R208): where the dictionary shows the peer's bytes, or AT_FRONT is pending
and the peer may hold any, the pass begins from the bytes that the peer will start from. -/
def Obligations.PassBeginsInStepWithThePeer : Prop :=
  ∀ (P : List Byte) (f : Bool) (len : BitVec 17) (s t : State), Inv s → (s.flagsHold.atFront = false → Mirrors P s) →
    s.teState = .idle → s.sess = .ready → exec (.compress f len) s = .next t → t.teState = .scan →
    Faithful (if atFront t then [] else P) t

/-- The round trip, token by token (43 R202, R207, R208): every step of an encode pass keeps the dictionary equal to the peer's bytes
followed by the part of the chunk consumed, and the bits emitted equal to those of tokens that the table codes and from
which the peer gets that part. -/
def Obligations.EveryStepKeepsThePeerInStep : Prop :=
  ∀ (D : List Byte) (s t : State), Inv s → s.rst = false → s.teState ≠ .idle → Faithful D s →
    step s = .next t → t.teState ≠ .idle → Faithful D t

/-- The round trip of a chunk (43 R207, R208, 44 R224): a committed result, applied to the bytes `P` that the peer held, gives exactly the
chunk, and the dictionary shows what the peer then holds. The bits of a compressed span are those of tokens that the table
codes, then fewer than 8 zero bits. -/
def Obligations.CommittedSpanDecodesToTheChunk : Prop :=
  ∀ (P : List Byte) (s t : State), Inv s → s.rst = false → Faithful (if atFront s then [] else P) s →
    s.teState = .done → step s = .next t →
    ∃ span ts P', SpanIs t span ∧ Coded (sessionTable s) ts ∧
      applyResult t.rsp.flags ts span P = some (s.chunk, P') ∧ Mirrors P' t ∧
      (t.rsp.flags.compressed = true →
        ∃ pad, pad < 8 ∧ bitsOf span = ts.flatMap (tokenBits (sessionTable s)) ++ List.replicate pad false)

/-! ### Parameters -/

/-- The parameters `CodeTable`, with MINLEN, MAXLEN and MAXOFF, and `hash3` are arguments of the model (30_encoding R100, 41 R156,
00_scope R7): for every table over the legal domains and every total function into `[0, 2^HASH_BITS)` there is a build that has
them, and otherwise the parameters of a build given. -/
def Obligations.EveryTableAndHashCanBeGiven : Prop :=
  ∀ (p : Config.Build) (v : Variant) (lit : Byte → List Emit) (off len : Nat → List Emit) (least most far : Nat)
    (h : Byte → Byte → Byte → Nat),
    1 ≤ least → least ≤ 3 → least ≤ most → far + 1 ≤ Config.cap v → (∀ b0 b1 b2, h b0 b1 b2 < 2 ^ p.hashBits) →
    ∃ q : Config.Build,
      (codeTable q v).minLen = least ∧ (codeTable q v).maxLen = most ∧ (codeTable q v).maxOff = far ∧
      (∀ x, (codeTable q v).lit x = lit x) ∧
      (∀ d, CodesOff (codeTable q v) d → (codeTable q v).off d = off d) ∧
      (∀ l, CodesLen (codeTable q v) l → (codeTable q v).len l = len l) ∧
      (∀ b0 b1 b2, hash3 q b0 b1 b2 = h b0 b1 b2) ∧
      (∀ u, u ≠ v → codeTable q u = codeTable p u) ∧
      q.obCap8K = p.obCap8K ∧ q.obCap64K = p.obCap64K ∧ q.maxCap = p.maxCap ∧ q.hashBits = p.hashBits ∧ q.loffw = p.loffw

/-- MF.HASH (41 R156): the default is `(b0 << 4) xor (b1 << 2) xor b2`, below 4096; every build's answer is below `2^HASH_BITS`. -/
def Obligations.HashFollowsItsFormula : Prop :=
  ∀ b0 b1 b2 : Byte,
    hash3 Config.defaultBuild b0 b1 b2 = 16 * b0.toNat ^^^ 4 * b1.toNat ^^^ b2.toNat ∧
      hash3 Config.defaultBuild b0 b1 b2 < 4096 ∧ ∀ p : Config.Build, hash3 p b0 b1 b2 < 2 ^ p.hashBits

/-! ### The command port -/

/-- The command handshake (70 R282, R281). With `cmd_ready = 1` a word presented is accepted: it leaves the port, `cmd_ready` and
`rsp_valid` go to 0, and nothing else changes. Until the command completes `rsp_valid` is 0 and no word is accepted; it
completes with `rsp_valid` and `cmd_ready` going to 1 together. That acceptance is a step of its own is log 24. -/
def Obligations.CommandHandshake : Prop :=
  ∀ s : State, Inv s → s.rst = false →
    (cmdReady s = true → ∀ c cs, s.cmdQ = c :: cs →
      ∃ t, step s = .next t ∧ t = { s with cmdQ := cs, accepted := some c, rspValid := false } ∧ cmdReady t = false) ∧
    (cmdReady s = false → s.rspValid = false ∧
      ∃ t, step s = .next t ∧ t.cmdQ = s.cmdQ ∧ (cmdReady t = true ↔ t.rspValid = true))
end

