-- ==== Sys2Proof/Laws/Bits.lean ====
section
/-! SUPPORT. The laws of bit strings: a value written with `natBits` is read back by `takeNat`. -/

namespace Sys2Proof

@[simp] theorem length_natBits (w v : Nat) : (natBits w v).length = w := by
  induction w with
  | zero => rfl
  | succ w ih => simp [natBits, ih]

/-- Bit `k` of a bit string of width `w` is bit `w − 1 − k` of the value. -/
theorem getElem_natBits (w v k : Nat) (h : k < (natBits w v).length) :
    (natBits w v)[k] = v.testBit (w - 1 - k) := by
  induction w generalizing k with
  | zero => simp at h
  | succ w ih =>
    cases k with
    | zero => simp [natBits]
    | succ k =>
      simp only [natBits, List.getElem_cons_succ]
      rw [ih]
      congr 1; omega

/-- `takeNat` reads back what `natBits` wrote, whatever follows. -/
theorem takeNat_natBits (w v : Nat) (rest : List Bool) :
    takeNat w (natBits w v ++ rest) = some (v % 2 ^ w, rest) := by
  induction w with
  | zero => simp [natBits, takeNat, Nat.mod_one]
  | succ w ih =>
    simp only [natBits, List.cons_append, takeNat, ih]
    congr 2
    rw [Nat.mod_pow_succ, Nat.add_comm, Nat.mul_comm]
    congr 2
    rw [Nat.testBit_eq_decide_div_mod_eq]
    rcases Nat.mod_two_eq_zero_or_one (v / 2 ^ w) with h | h <;> simp [h]

/-- The number that `takeNat w` reads fits `w` bits, and its bits are the ones read. -/
theorem takeNat_eq_some {w : Nat} {bs rest : List Bool} {v : Nat} (h : takeNat w bs = some (v, rest)) :
    v < 2 ^ w ∧ bs = natBits w v ++ rest := by
  induction w generalizing bs v with
  | zero => simp [takeNat] at h; simp [natBits, ← h.1, h.2]
  | succ w ih =>
    cases bs with
    | nil => simp [takeNat] at h
    | cons b bs =>
      simp only [takeNat] at h
      cases hb : takeNat w bs with
      | none => simp [hb] at h
      | some p =>
        obtain ⟨u, r⟩ := p
        simp [hb] at h
        obtain ⟨h1, rfl⟩ := h
        obtain ⟨hu, rfl⟩ := ih hb
        have hw : 0 < 2 ^ w := Nat.pow_pos (by decide)
        subst h1
        refine ⟨by cases b <;> simp [Nat.pow_succ] <;> omega, ?_⟩
        have key : natBits w (b.toNat * 2 ^ w + u) = natBits w u := by
          apply List.ext_getElem (by simp)
          intro k h1 h2
          rw [getElem_natBits, getElem_natBits]
          simp at h1
          rw [Nat.mul_comm, Nat.testBit_two_pow_mul_add _ hu]
          simp; omega
        simp only [natBits, List.cons_append, key]
        congr 1
        rw [Nat.mul_comm, Nat.testBit_two_pow_mul_add _ hu]
        cases b <;> simp

/-- A value written under a constant high part `c` is the bits of `c`, then its own. -/
theorem natBits_add (u k c v : Nat) (hv : v < 2 ^ k) : natBits (u + k) (c * 2 ^ k + v) = natBits u c ++ natBits k v := by
  apply List.ext_getElem (by simp)
  intro i h1 h2
  rw [getElem_natBits, List.getElem_append]
  simp at h1
  split
  · rename_i h
    simp at h
    rw [getElem_natBits, Nat.mul_comm, Nat.testBit_two_pow_mul_add _ hv, if_neg (by omega)]
    congr 1; omega
  · rename_i h
    simp at h
    rw [getElem_natBits, Nat.mul_comm, Nat.testBit_two_pow_mul_add _ hv, if_pos (by omega)]
    simp; congr 1; omega

/-- A value field is read back. -/
theorem decodeField_natBits {w : Nat} (mk : BitVec w → Instr) (v : BitVec w) (rest : List Bool) :
    decodeField w mk (natBits w v.toNat ++ rest) = .ok (mk v, rest) := by
  simp [decodeField, takeNat_natBits, Nat.mod_eq_of_lt v.isLt]

/-- What a value field that was read stood as. -/
theorem decodeField_ok {w : Nat} {mk : BitVec w → Instr} {bs rest : List Bool} {i : Instr}
    (h : decodeField w mk bs = .ok (i, rest)) : ∃ v : BitVec w, i = mk v ∧ bs = natBits w v.toNat ++ rest := by
  unfold decodeField at h
  split at h
  · rename_i v r hv
    obtain ⟨h1, h2⟩ := takeNat_eq_some hv
    simp at h
    exact ⟨BitVec.ofNat w v, h.1.symm, by rw [BitVec.toNat_ofNat, Nat.mod_eq_of_lt h1, h2, h.2]⟩
  · cases h

/-- A run of one-bits and its zero-bit are read back. -/
theorem unaryRun_onesZero (k : Nat) (r : List Bool) : unaryRun (onesZero k ++ r) = some (k, r) := by
  induction k with
  | zero => rfl
  | succ k ih =>
    have : onesZero (k + 1) = true :: onesZero k := by simp [onesZero, List.replicate_succ]
    rw [this, List.cons_append, unaryRun, ih]

/-- What a run of one-bits that was read stood as. -/
theorem unaryRun_some {bs r : List Bool} {k : Nat} (h : unaryRun bs = some (k, r)) : bs = onesZero k ++ r := by
  induction bs generalizing k with
  | nil => simp [unaryRun] at h
  | cons b bs ih =>
    cases b
    · simp [unaryRun] at h; obtain ⟨rfl, rfl⟩ := h; rfl
    · simp only [unaryRun] at h
      cases hb : unaryRun bs with
      | none => simp [hb] at h
      | some p =>
        obtain ⟨k', r'⟩ := p
        simp [hb] at h
        obtain ⟨rfl, rfl⟩ := h
        rw [ih hb]; simp [onesZero, List.replicate_succ]

/-- A command word at the front of the bits (30_encoding R91, R92), whatever spelling gives its 32 bits. -/
theorem decode_command_of_takeNat {bs rest : List Bool} {x : Nat} (h : takeNat 32 bs = some (x, rest)) :
    (∀ i, decodeCommand (BitVec.ofNat 32 x) = .ok i → decode .command bs = .ok (i, rest)) ∧
      (∀ e, decodeCommand (BitVec.ofNat 32 x) = .error e → decode .command bs = .error e) :=
  ⟨fun i hi => by simp only [decode, h, hi], fun e he => by simp only [decode, h, he]⟩

theorem takeNat_word (c : Word) (rest : List Bool) : takeNat 32 (natBits 32 c.toNat ++ rest) = some (c.toNat, rest) := by
  rw [takeNat_natBits, Nat.mod_eq_of_lt c.isLt]

/-- A command word written out as its 32 bits is read as that word. -/
theorem decode_command_natBits (c : Word) (rest : List Bool) :
    (∀ i, decodeCommand c = .ok i → decode .command (natBits 32 c.toNat ++ rest) = .ok (i, rest)) ∧
      (∀ e, decodeCommand c = .error e → decode .command (natBits 32 c.toNat ++ rest) = .error e) := by
  have k := decode_command_of_takeNat (takeNat_word c rest)
  rwa [BitVec.ofNat_toNat, BitVec.setWidth_eq] at k

end Sys2Proof
end

