-- ==== Sys2Proof/Laws/Cells.lean ====
section
/-! SUPPORT. The laws of the sparse store: read after write, the canonical form, its fold over a run of writes. -/

namespace Sys2Proof.Machine

variable {α : Type}

@[simp] theorem readCell_nil (a : Nat) : readCell a ([] : List (Nat × α)) = none := rfl

/-- A read after a write to the same address gives the value written. -/
@[simp] theorem readCell_writeCell_same (a : Nat) (v : α) (m : List (Nat × α)) :
    readCell a (writeCell a v m) = some v := by
  induction m with
  | nil => simp [writeCell, readCell]
  | cons p m ih =>
    obtain ⟨k, u⟩ := p
    simp only [writeCell]
    split
    · simp [readCell]
    · split
      · simp [readCell]
      · rename_i h; simp [readCell, ih]; omega

/-- A write leaves every other address alone. -/
theorem readCell_writeCell_other {a b : Nat} (h : b ≠ a) (v : α) (m : List (Nat × α)) :
    readCell b (writeCell a v m) = readCell b m := by
  induction m with
  | nil => simp [writeCell, readCell]; omega
  | cons p m ih =>
    obtain ⟨k, u⟩ := p
    simp only [writeCell]
    split
    · simp [readCell]; omega
    · split
      · subst k; simp [readCell, h.symm]
      · simp [readCell, ih]

/-- A read after a write, at any address. -/
theorem readCell_writeCell (a b : Nat) (v : α) (m : List (Nat × α)) :
    readCell b (writeCell a v m) = if b = a then some v else readCell b m := by
  split
  · subst b; simp
  · exact readCell_writeCell_other ‹_› v m

/-- The least listed address of a store in canonical form is its first. -/
theorem rising_cons {a : Nat} {v : α} {m : List (Nat × α)} :
    rising ((a, v) :: m) = true ↔ rising m = true ∧ ∀ p ∈ m.head?, a < p.1 := by
  cases m with
  | nil => simp [rising]
  | cons p m => obtain ⟨k, u⟩ := p; simp [rising, and_comm]

/-- Every write keeps the canonical form. -/
theorem rising_writeCell (a : Nat) (v : α) (m : List (Nat × α)) (h : rising m = true) :
    rising (writeCell a v m) = true := by
  induction m with
  | nil => rfl
  | cons p m ih =>
    obtain ⟨k, u⟩ := p
    rw [rising_cons] at h
    simp only [writeCell]
    split
    · rename_i hk
      rw [rising_cons]
      exact ⟨rising_cons.2 h, by simp [hk]⟩
    · split
      · subst k; exact rising_cons.2 h
      · rename_i h1 h2
        rw [rising_cons]
        refine ⟨ih h.1, fun p hp => ?_⟩
        cases m with
        | nil => simp [writeCell] at hp; subst hp; simp; omega
        | cons q m =>
          obtain ⟨k', u'⟩ := q
          have := h.2 (k', u') rfl
          simp only [writeCell] at hp
          split at hp <;> [skip; split at hp] <;> simp at hp <;> subst hp <;> simp_all <;> omega

/-- Changing the values only keeps the canonical form. -/
theorem rising_map {β : Type} (f : α → β) (m : List (Nat × α)) (h : rising m = true) :
    rising (m.map fun p => (p.1, f p.2)) = true := by
  induction m with
  | nil => rfl
  | cons p m ih =>
    obtain ⟨k, u⟩ := p
    rw [rising_cons] at h
    rw [List.map_cons, rising_cons]
    refine ⟨ih h.1, fun q hq => ?_⟩
    cases m with
    | nil => simp at hq
    | cons r m => simp at hq; subst hq; exact h.2 r rfl

/-- Reading a store whose values were changed. -/
theorem readCell_map {β : Type} (f : α → β) (a : Nat) (m : List (Nat × α)) :
    readCell a (m.map fun p => (p.1, f p.2)) = (readCell a m).map f := by
  induction m with
  | nil => rfl
  | cons p m ih =>
    obtain ⟨k, u⟩ := p
    simp only [List.map_cons, readCell]
    split <;> simp [ih]

end Sys2Proof.Machine
end

