-- ==== Sys2Proof/Laws/Assembler.lean ====
section
/-! SUPPORT. What the Bit Assembler does (42_bit_assembler): one lemma for a bit, a bit string, an emit, a list of emits, FINISH. -/

namespace Sys2Proof.Safety

open Sys2Proof.Machine

/-- `t` differs from `s` in the Bit Assembler's elements only. -/
def OnlyAssembler (s t : State) : Prop :=
  t = { s with obMem := t.obMem, obIdx := t.obIdx, obBits := t.obBits }

theorem OnlyAssembler.refl (s : State) : OnlyAssembler s s := rfl

theorem OnlyAssembler.trans {s t u : State} (h : OnlyAssembler s t) (k : OnlyAssembler t u) : OnlyAssembler s u := by
  unfold OnlyAssembler at *; rw [k, h]

theorem streamPos_div {s : State} (h : s.obBits < 8) : streamPos s / 8 = s.obIdx := by
  unfold streamPos; omega

theorem streamPos_mod {s : State} (h : s.obBits < 8) : streamPos s % 8 = s.obBits := by
  unfold streamPos; omega

theorem Appended.refl {s : State} (h : s.obBits < 8) : Appended s s [] := by
  refine ⟨by simp, h, fun _ _ => rfl, fun k hk => absurd hk (by simp), fun _ _ => rfl⟩

/-- Appending twice is appending the concatenation (42 R180: emits concatenate without padding). -/
theorem Appended.trans {s t u : State} {as bs : List Bool} (h : Appended s t as) (k : Appended t u bs) :
    Appended s u (as ++ bs) := by
  obtain ⟨h1, h2, h3, h4, h5⟩ := h
  obtain ⟨k1, k2, k3, k4, k5⟩ := k
  refine ⟨by simp; omega, k2, fun m hm => ?_, fun i hi => ?_, fun a ha => ?_⟩
  · rw [k3 m (by omega), h3 m hm]
  · rw [List.getElem_append]
    split
    · rw [k3 _ (by omega), h4]
    · rename_i hlt
      have := k4 (i - as.length) (by simp at hi; omega)
      rw [← this]; congr 1; omega
  · simp only [List.length_append] at ha
    rw [k5 a (by omega), h5 a (by omega)]

theorem getLsbD_bit (bit : Bool) (k i : Nat) (hk : k < 8) (hi : i < 8) :
    (BitVec.ofNat 8 bit.toNat <<< k).getLsbD i = (decide (i = k) && bit) := by
  have : ∀ bit : Bool, ∀ k i : Fin 8, (BitVec.ofNat 8 bit.toNat <<< k.val).getLsbD i.val = (decide (i.val = k.val) && bit) := by
    decide
  exact this bit ⟨k, hk⟩ ⟨i, hi⟩

/-- One bit (42 R177, R178). -/
theorem emitBit_spec (bit : Bool) {s : State} (h : AssemblerReady s) :
    ∃ t, emitBit bit s = .ok t ∧ OnlyAssembler s t ∧ AssemblerReady t ∧ Appended s t [bit] := by
  obtain ⟨hb, htr⟩ := h
  obtain ⟨x, hx, hlow, hother⟩ : ∃ x : Byte,
      readCell s.obIdx (if s.obBits = 0 then writeCell s.obIdx 0#8 s.obMem else s.obMem) = some x ∧
      (∀ k, k < 8 - s.obBits → x.getLsbD k = false) ∧
      (0 < s.obBits → readCell s.obIdx s.obMem = some x) := by
    by_cases h0 : s.obBits = 0
    · exact ⟨0#8, by simp [h0], by simp, by omega⟩
    · obtain ⟨x, hx, hl⟩ := htr (by omega)
      exact ⟨x, by simp [h0, hx], hl, fun _ => hx⟩
  have hm : ∀ a, a ≠ s.obIdx → ∀ v : Byte,
      readCell a (writeCell s.obIdx v (if s.obBits = 0 then writeCell s.obIdx 0#8 s.obMem else s.obMem)) =
        readCell a s.obMem := by
    intro a ha v
    rw [readCell_writeCell_other ha]
    split
    · rw [readCell_writeCell_other ha]
    · rfl
  simp only [emitBit, hx]
  have hpos : streamPos s = 8 * s.obIdx + s.obBits := rfl
  have key : ∀ t : State, t.obMem = writeCell s.obIdx (x ||| (BitVec.ofNat 8 bit.toNat <<< (7 - s.obBits)))
        (if s.obBits = 0 then writeCell s.obIdx 0#8 s.obMem else s.obMem) →
      streamPos t = streamPos s + 1 → t.obBits < 8 → Appended s t [bit] := by
    intro t ht hp h8
    refine ⟨by simp [hp], h8, fun m hm' => ?_, fun k hk => ?_, fun a ha => ?_⟩
    · unfold streamBit
      by_cases hq : m / 8 = s.obIdx
      · have hr : m % 8 < s.obBits := by omega
        rw [hq, ht, readCell_writeCell_same, hother (by omega)]
        simp only [Option.map_some, BitVec.getLsbD_or]
        rw [getLsbD_bit _ _ _ (by omega) (by omega)]
        simp; omega
      · rw [ht, hm _ hq]
    · simp at hk; subst hk
      unfold streamBit
      have e1 : (streamPos s + 0) / 8 = s.obIdx := by omega
      have e2 : (streamPos s + 0) % 8 = s.obBits := by omega
      rw [e1, e2, ht, readCell_writeCell_same]
      simp only [Option.map_some, BitVec.getLsbD_or]
      rw [getLsbD_bit _ _ _ (by omega) (by omega), hlow _ (by omega)]
      simp
    · rw [ht, hm]
      simp at ha; omega
  split
  · rename_i h8
    refine ⟨_, rfl, rfl, ⟨by simp, by simp⟩, key _ rfl ?_ (by simp)⟩
    simp [streamPos]; omega
  · rename_i h8
    refine ⟨_, rfl, rfl, ⟨by simp; omega, fun _ => ⟨_, readCell_writeCell_same _ _ _, fun k hk => ?_⟩⟩, key _ rfl ?_ (by simp; omega)⟩
    · simp only at hk
      rw [BitVec.getLsbD_or, hlow _ (by omega), getLsbD_bit _ _ _ (by omega) (by omega)]
      simp; omega
    · simp [streamPos]; omega

/-- A bit string (42 R177's loop). -/
theorem emitBits_spec (bs : List Bool) {s : State} (h : AssemblerReady s) :
    ∃ t, emitBits bs s = .ok t ∧ OnlyAssembler s t ∧ AssemblerReady t ∧ Appended s t bs := by
  induction bs generalizing s with
  | nil => exact ⟨s, rfl, .refl s, h, .refl h.1⟩
  | cons bit bs ih =>
    obtain ⟨t, ht, h1, h2, h3⟩ := emitBit_spec bit h
    obtain ⟨u, hu, k1, k2, k3⟩ := ih h2
    exact ⟨u, by simp [emitBits, ht, hu], h1.trans k1, k2, h3.trans k3⟩

theorem OnlyAssembler.cap {s t : State} (h : OnlyAssembler s t) :
    Config.obCap t.build t.variant = Config.obCap s.build s.variant := by
  rw [h]

@[simp] theorem emitsString_nil : emitsString [] = [] := rfl

@[simp] theorem emitsString_cons (e : Emit) (es : List Emit) :
    emitsString (e :: es) = emitString e ++ emitsString es := rfl

@[simp] theorem length_emitString (e : Emit) : (emitString e).length = e.width := length_natBits _ _

/-- An emit that fits (42 R177). -/
theorem baEmit_spec (e : Emit) {s : State} (h : AssemblerReady s)
    (hfit : streamPos s + e.width ≤ 8 * Config.obCap s.build s.variant) :
    ∃ t, baEmit e s = .ok t ∧ OnlyAssembler s t ∧ AssemblerReady t ∧ Appended s t (emitString e) := by
  obtain ⟨t, ht, h1, h2, h3⟩ := emitBits_spec (emitString e) h
  exact ⟨t, by simp [baEmit, ht, Nat.not_lt.2 hfit], h1, h2, h3⟩

/-- An emit that does not fit writes nothing (42 R181). -/
theorem baEmit_overflow (e : Emit) {s : State}
    (hfit : 8 * Config.obCap s.build s.variant < streamPos s + e.width) : baEmit e s = .error .overflow := by
  simp [baEmit, hfit]

/-- A token's emits, where they fit together. -/
theorem baEmits_spec (es : List Emit) {s : State} (h : AssemblerReady s)
    (hfit : streamPos s + (emitsString es).length ≤ 8 * Config.obCap s.build s.variant) :
    ∃ t, baEmits es s = .ok t ∧ OnlyAssembler s t ∧ AssemblerReady t ∧ Appended s t (emitsString es) := by
  induction es generalizing s with
  | nil => exact ⟨s, rfl, .refl s, h, .refl h.1⟩
  | cons e es ih =>
    simp only [emitsString_cons, List.length_append, length_emitString] at hfit
    obtain ⟨t, ht, h1, h2, h3⟩ := baEmit_spec e h (by omega)
    obtain ⟨u, hu, k1, k2, k3⟩ := ih (s := t) h2 (by
      rw [h1.cap, h3.1, length_emitString]; omega)
    exact ⟨u, by simp [baEmits, ht, hu], h1.trans k1, k2, h3.trans k3⟩

/-- A token's emits, where they do not fit together: some emit overflows. -/
theorem baEmits_overflow (es : List Emit) {s : State} (h : AssemblerReady s)
    (hfit : 8 * Config.obCap s.build s.variant < streamPos s + (emitsString es).length)
    (hroom : streamPos s ≤ 8 * Config.obCap s.build s.variant) : baEmits es s = .error .overflow := by
  induction es generalizing s with
  | nil => simp at hfit; omega
  | cons e es ih =>
    simp only [emitsString_cons, List.length_append, length_emitString] at hfit
    by_cases he : streamPos s + e.width ≤ 8 * Config.obCap s.build s.variant
    · obtain ⟨t, ht, h1, h2, h3⟩ := baEmit_spec e h he
      have hp := h3.1
      rw [length_emitString] at hp
      simp only [baEmits, ht]
      exact ih h2 (by rw [h1.cap, hp]; omega) (by rw [h1.cap, hp]; omega)
    · simp [baEmits, baEmit_overflow (s := s) e (by omega)]

/-- The canonical form of OB is kept by one bit. -/
theorem emitBit_wf {bit : Bool} {s t : State} (h : emitBit bit s = .ok t) (hw : Memory.wf s.obMem = true) :
    Memory.wf t.obMem = true := by
  have h1 : rising (if s.obBits = 0 then writeCell s.obIdx 0#8 s.obMem else s.obMem) = true := by
    split
    · exact rising_writeCell _ _ _ hw
    · exact hw
  simp only [emitBit] at h
  split at h
  · cases h
  · split at h <;> cases h <;> exact rising_writeCell _ _ _ h1

/-- The canonical form of OB is kept by a bit string. -/
theorem emitBits_wf {bs : List Bool} {s t : State} (h : emitBits bs s = .ok t) (hw : Memory.wf s.obMem = true) :
    Memory.wf t.obMem = true := by
  induction bs generalizing s with
  | nil => cases h; exact hw
  | cons b bs ih =>
    simp only [emitBits] at h
    split at h
    · exact ih h (emitBit_wf ‹_› hw)
    · cases h

/-- The canonical form of OB is kept by a token's emits. -/
theorem baEmits_wf {es : List Emit} {s t : State} (h : baEmits es s = .ok t) (hw : Memory.wf s.obMem = true) :
    Memory.wf t.obMem = true := by
  induction es generalizing s with
  | nil => cases h; exact hw
  | cons e es ih =>
    simp only [baEmits] at h
    split at h
    · rename_i s' he
      refine ih h ?_
      simp only [baEmit] at he
      split at he
      · cases he
      · split at he
        · rename_i hb; cases he; exact emitBits_wf hb hw
        · cases he
    · cases h

/-- `BA.FINISH` (42 R179): the byte count is the bit count rounded up. -/
theorem baFinish_eq {s : State} (h : s.obBits < 8) :
    baFinish s = { s with obIdx := (streamPos s + 7) / 8, obBits := 0 } := by
  unfold baFinish streamPos
  split
  · congr 1; omega
  · rename_i h0
    have e : s.obBits = 0 := by omega
    cases s; simp_all; omega

/-- An appended byte has a value. -/
theorem Appended.isSome {s t : State} {bs : List Bool} (h : Appended s t bs) {a : Nat}
    (h0 : 0 < bs.length)
    (h1 : streamPos s ≤ 8 * a + 7) (h2 : 8 * a < streamPos s + bs.length) : (readCell a t.obMem).isSome := by
  obtain ⟨-, -, -, h4, -⟩ := h
  have hk : max (streamPos s) (8 * a) - streamPos s < bs.length := by omega
  have := h4 _ hk
  unfold streamBit at this
  have e : (streamPos s + (max (streamPos s) (8 * a) - streamPos s)) / 8 = a := by omega
  rw [e] at this
  cases hr : readCell a t.obMem <;> simp_all

/-- Emits that completed: what they appended. -/
theorem baEmits_ok {es : List Emit} {s t : State} (ha : AssemblerReady s) (h : baEmits es s = .ok t) :
    OnlyAssembler s t ∧ AssemblerReady t ∧ Appended s t (emitsString es) := by
  induction es generalizing s with
  | nil => cases h; exact ⟨.refl _, ha, .refl ha.1⟩
  | cons e es ih =>
    simp only [baEmits] at h
    split at h
    · rename_i s' he
      have : streamPos s + e.width ≤ 8 * Config.obCap s.build s.variant := by
        by_contra hn; rw [baEmit_overflow e (by omega)] at he; cases he
      obtain ⟨t', h1, h2, h3, h4⟩ := baEmit_spec e ha this
      rw [he] at h1; cases h1
      obtain ⟨k0, k1, k2⟩ := ih h3 h
      exact ⟨h2.trans k0, k1, h4.trans k2⟩
    · cases h

/-- Emits that completed stayed inside the buffer (42 R181). -/
theorem baEmits_room {es : List Emit} {s t : State} (ha : AssemblerReady s) (h : baEmits es s = .ok t)
    (hroom : streamPos s ≤ 8 * Config.obCap s.build s.variant) :
    streamPos s + (emitsString es).length ≤ 8 * Config.obCap s.build s.variant := by
  by_contra hn
  rw [baEmits_overflow es ha (by omega) hroom] at h
  cases h

/-- A run of raw bytes: where it stands, and what it leaves alone (44 R224). -/
theorem writeRun_spec (xs : List Byte) (a : Nat) (m : Memory) :
    (∀ k, k < xs.length → readCell (a + k) (writeRun a xs m) = xs[k]?) ∧
      (∀ b, b < a ∨ a + xs.length ≤ b → readCell b (writeRun a xs m) = readCell b m) := by
  induction xs generalizing a m with
  | nil => simp [writeRun]
  | cons x xs ih =>
    obtain ⟨h1, h2⟩ := ih (a + 1) (writeCell a x m)
    simp only [writeRun]
    refine ⟨fun k hk => ?_, fun b hb => ?_⟩
    · cases k with
      | zero => rw [h2 _ (by omega)]; simp
      | succ k =>
        have := h1 k (by simpa using hk)
        rw [show a + (k + 1) = a + 1 + k by omega, this]; simp
    · simp at hb
      rw [h2 _ (by omega), readCell_writeCell_other (by omega)]

/-- The canonical form is kept by a run of raw bytes. -/
theorem writeRun_wf (xs : List Byte) (a : Nat) (m : Memory) (h : rising m = true) : rising (writeRun a xs m) = true := by
  induction xs generalizing a m with
  | nil => exact h
  | cons x xs ih => exact ih _ _ (rising_writeCell _ _ _ h)

end Sys2Proof.Safety
end

