-- ==== Sys2Proof/Laws/State.lean ====
section
/-! SUPPORT. One lemma per field per update of the state: what each named operation does to each field, true by rfl. The registers
that become unspecified (log 8) have no lemma: nothing is known of them. -/

namespace Sys2Proof.Machine

/-! ### hbAppend -/

@[simp] theorem hbAppend_build (x : Byte) (s : State) : (hbAppend x s).build = s.build := rfl
@[simp] theorem hbAppend_rst (x : Byte) (s : State) : (hbAppend x s).rst = s.rst := rfl
@[simp] theorem hbAppend_accepted (x : Byte) (s : State) : (hbAppend x s).accepted = s.accepted := rfl
@[simp] theorem hbAppend_cmdQ (x : Byte) (s : State) : (hbAppend x s).cmdQ = s.cmdQ := rfl
@[simp] theorem hbAppend_inQ (x : Byte) (s : State) : (hbAppend x s).inQ = s.inQ := rfl
@[simp] theorem hbAppend_obRaddr (x : Byte) (s : State) : (hbAppend x s).obRaddr = s.obRaddr := rfl
@[simp] theorem hbAppend_rspValid (x : Byte) (s : State) : (hbAppend x s).rspValid = s.rspValid := rfl
@[simp] theorem hbAppend_sess (x : Byte) (s : State) : (hbAppend x s).sess = s.sess := rfl
@[simp] theorem hbAppend_variant (x : Byte) (s : State) : (hbAppend x s).variant = s.variant := rfl
@[simp] theorem hbAppend_firstPkt (x : Byte) (s : State) : (hbAppend x s).firstPkt = s.firstPkt := rfl
@[simp] theorem hbAppend_flagsHold (x : Byte) (s : State) : (hbAppend x s).flagsHold = s.flagsHold := rfl
@[simp] theorem hbAppend_rsp (x : Byte) (s : State) : (hbAppend x s).rsp = s.rsp := rfl
@[simp] theorem hbAppend_hbMem (x : Byte) (s : State) : (hbAppend x s).hbMem = writeCell (phys s.variant s.w) x s.hbMem := rfl
@[simp] theorem hbAppend_w (x : Byte) (s : State) : (hbAppend x s).w = s.w + 1 := rfl
@[simp] theorem hbAppend_ht (x : Byte) (s : State) : (hbAppend x s).ht = s.ht := rfl
@[simp] theorem hbAppend_obMem (x : Byte) (s : State) : (hbAppend x s).obMem = s.obMem := rfl
@[simp] theorem hbAppend_obIdx (x : Byte) (s : State) : (hbAppend x s).obIdx = s.obIdx := rfl
@[simp] theorem hbAppend_obBits (x : Byte) (s : State) : (hbAppend x s).obBits = s.obBits := rfl
@[simp] theorem hbAppend_teState (x : Byte) (s : State) : (hbAppend x s).teState = s.teState := rfl
@[simp] theorem hbAppend_j (x : Byte) (s : State) : (hbAppend x s).j = s.j := rfl
@[simp] theorem hbAppend_n (x : Byte) (s : State) : (hbAppend x s).n = s.n := rfl
@[simp] theorem hbAppend_b (x : Byte) (s : State) : (hbAppend x s).b = s.b := rfl
@[simp] theorem hbAppend_mC (x : Byte) (s : State) : (hbAppend x s).mC = s.mC := rfl
@[simp] theorem hbAppend_mD (x : Byte) (s : State) : (hbAppend x s).mD = s.mD := rfl
@[simp] theorem hbAppend_mLen (x : Byte) (s : State) : (hbAppend x s).mLen = s.mLen := rfl
@[simp] theorem hbAppend_chunk (x : Byte) (s : State) : (hbAppend x s).chunk = s.chunk := rfl
@[simp] theorem hbAppend_doFlush (x : Byte) (s : State) : (hbAppend x s).doFlush = s.doFlush := rfl
@[simp] theorem hbAppend_offSent (x : Byte) (s : State) : (hbAppend x s).offSent = s.offSent := rfl
@[simp] theorem hbAppend_spanLen (x : Byte) (s : State) : (hbAppend x s).spanLen = s.spanLen := rfl
@[simp] theorem hbAppend_freeCtr (x : Byte) (s : State) : (hbAppend x s).freeCtr = s.freeCtr := rfl

/-! ### hbReset -/

@[simp] theorem hbReset_build (s : State) : (hbReset s).build = s.build := rfl
@[simp] theorem hbReset_rst (s : State) : (hbReset s).rst = s.rst := rfl
@[simp] theorem hbReset_accepted (s : State) : (hbReset s).accepted = s.accepted := rfl
@[simp] theorem hbReset_cmdQ (s : State) : (hbReset s).cmdQ = s.cmdQ := rfl
@[simp] theorem hbReset_inQ (s : State) : (hbReset s).inQ = s.inQ := rfl
@[simp] theorem hbReset_obRaddr (s : State) : (hbReset s).obRaddr = s.obRaddr := rfl
@[simp] theorem hbReset_rspValid (s : State) : (hbReset s).rspValid = s.rspValid := rfl
@[simp] theorem hbReset_sess (s : State) : (hbReset s).sess = s.sess := rfl
@[simp] theorem hbReset_variant (s : State) : (hbReset s).variant = s.variant := rfl
@[simp] theorem hbReset_firstPkt (s : State) : (hbReset s).firstPkt = s.firstPkt := rfl
@[simp] theorem hbReset_flagsHold (s : State) : (hbReset s).flagsHold = s.flagsHold := rfl
@[simp] theorem hbReset_rsp (s : State) : (hbReset s).rsp = s.rsp := rfl
@[simp] theorem hbReset_hbMem (s : State) : (hbReset s).hbMem = s.hbMem := rfl
@[simp] theorem hbReset_w (s : State) : (hbReset s).w = 0 := rfl
@[simp] theorem hbReset_ht (s : State) : (hbReset s).ht = s.ht := rfl
@[simp] theorem hbReset_obMem (s : State) : (hbReset s).obMem = s.obMem := rfl
@[simp] theorem hbReset_obIdx (s : State) : (hbReset s).obIdx = s.obIdx := rfl
@[simp] theorem hbReset_obBits (s : State) : (hbReset s).obBits = s.obBits := rfl
@[simp] theorem hbReset_teState (s : State) : (hbReset s).teState = s.teState := rfl
@[simp] theorem hbReset_j (s : State) : (hbReset s).j = s.j := rfl
@[simp] theorem hbReset_n (s : State) : (hbReset s).n = s.n := rfl
@[simp] theorem hbReset_b (s : State) : (hbReset s).b = s.b := rfl
@[simp] theorem hbReset_mC (s : State) : (hbReset s).mC = s.mC := rfl
@[simp] theorem hbReset_mD (s : State) : (hbReset s).mD = s.mD := rfl
@[simp] theorem hbReset_mLen (s : State) : (hbReset s).mLen = s.mLen := rfl
@[simp] theorem hbReset_chunk (s : State) : (hbReset s).chunk = s.chunk := rfl
@[simp] theorem hbReset_doFlush (s : State) : (hbReset s).doFlush = s.doFlush := rfl
@[simp] theorem hbReset_offSent (s : State) : (hbReset s).offSent = s.offSent := rfl
@[simp] theorem hbReset_spanLen (s : State) : (hbReset s).spanLen = s.spanLen := rfl
@[simp] theorem hbReset_freeCtr (s : State) : (hbReset s).freeCtr = s.freeCtr := rfl

/-! ### mfRecord -/

@[simp] theorem mfRecord_build (h o : Nat) (s : State) : (mfRecord h o s).build = s.build := rfl
@[simp] theorem mfRecord_rst (h o : Nat) (s : State) : (mfRecord h o s).rst = s.rst := rfl
@[simp] theorem mfRecord_accepted (h o : Nat) (s : State) : (mfRecord h o s).accepted = s.accepted := rfl
@[simp] theorem mfRecord_cmdQ (h o : Nat) (s : State) : (mfRecord h o s).cmdQ = s.cmdQ := rfl
@[simp] theorem mfRecord_inQ (h o : Nat) (s : State) : (mfRecord h o s).inQ = s.inQ := rfl
@[simp] theorem mfRecord_obRaddr (h o : Nat) (s : State) : (mfRecord h o s).obRaddr = s.obRaddr := rfl
@[simp] theorem mfRecord_rspValid (h o : Nat) (s : State) : (mfRecord h o s).rspValid = s.rspValid := rfl
@[simp] theorem mfRecord_sess (h o : Nat) (s : State) : (mfRecord h o s).sess = s.sess := rfl
@[simp] theorem mfRecord_variant (h o : Nat) (s : State) : (mfRecord h o s).variant = s.variant := rfl
@[simp] theorem mfRecord_firstPkt (h o : Nat) (s : State) : (mfRecord h o s).firstPkt = s.firstPkt := rfl
@[simp] theorem mfRecord_flagsHold (h o : Nat) (s : State) : (mfRecord h o s).flagsHold = s.flagsHold := rfl
@[simp] theorem mfRecord_rsp (h o : Nat) (s : State) : (mfRecord h o s).rsp = s.rsp := rfl
@[simp] theorem mfRecord_hbMem (h o : Nat) (s : State) : (mfRecord h o s).hbMem = s.hbMem := rfl
@[simp] theorem mfRecord_w (h o : Nat) (s : State) : (mfRecord h o s).w = s.w := rfl
@[simp] theorem mfRecord_ht (h o : Nat) (s : State) : (mfRecord h o s).ht = { s.ht with entries := writeCell h { valid := true, off := o } s.ht.entries } := rfl
@[simp] theorem mfRecord_obMem (h o : Nat) (s : State) : (mfRecord h o s).obMem = s.obMem := rfl
@[simp] theorem mfRecord_obIdx (h o : Nat) (s : State) : (mfRecord h o s).obIdx = s.obIdx := rfl
@[simp] theorem mfRecord_obBits (h o : Nat) (s : State) : (mfRecord h o s).obBits = s.obBits := rfl
@[simp] theorem mfRecord_teState (h o : Nat) (s : State) : (mfRecord h o s).teState = s.teState := rfl
@[simp] theorem mfRecord_j (h o : Nat) (s : State) : (mfRecord h o s).j = s.j := rfl
@[simp] theorem mfRecord_n (h o : Nat) (s : State) : (mfRecord h o s).n = s.n := rfl
@[simp] theorem mfRecord_b (h o : Nat) (s : State) : (mfRecord h o s).b = s.b := rfl
@[simp] theorem mfRecord_mC (h o : Nat) (s : State) : (mfRecord h o s).mC = s.mC := rfl
@[simp] theorem mfRecord_mD (h o : Nat) (s : State) : (mfRecord h o s).mD = s.mD := rfl
@[simp] theorem mfRecord_mLen (h o : Nat) (s : State) : (mfRecord h o s).mLen = s.mLen := rfl
@[simp] theorem mfRecord_chunk (h o : Nat) (s : State) : (mfRecord h o s).chunk = s.chunk := rfl
@[simp] theorem mfRecord_doFlush (h o : Nat) (s : State) : (mfRecord h o s).doFlush = s.doFlush := rfl
@[simp] theorem mfRecord_offSent (h o : Nat) (s : State) : (mfRecord h o s).offSent = s.offSent := rfl
@[simp] theorem mfRecord_spanLen (h o : Nat) (s : State) : (mfRecord h o s).spanLen = s.spanLen := rfl
@[simp] theorem mfRecord_freeCtr (h o : Nat) (s : State) : (mfRecord h o s).freeCtr = s.freeCtr := rfl

/-! ### mfClear -/

@[simp] theorem mfClear_build (s : State) : (mfClear s).build = s.build := rfl
@[simp] theorem mfClear_rst (s : State) : (mfClear s).rst = s.rst := rfl
@[simp] theorem mfClear_accepted (s : State) : (mfClear s).accepted = s.accepted := rfl
@[simp] theorem mfClear_cmdQ (s : State) : (mfClear s).cmdQ = s.cmdQ := rfl
@[simp] theorem mfClear_inQ (s : State) : (mfClear s).inQ = s.inQ := rfl
@[simp] theorem mfClear_obRaddr (s : State) : (mfClear s).obRaddr = s.obRaddr := rfl
@[simp] theorem mfClear_rspValid (s : State) : (mfClear s).rspValid = s.rspValid := rfl
@[simp] theorem mfClear_sess (s : State) : (mfClear s).sess = s.sess := rfl
@[simp] theorem mfClear_variant (s : State) : (mfClear s).variant = s.variant := rfl
@[simp] theorem mfClear_firstPkt (s : State) : (mfClear s).firstPkt = s.firstPkt := rfl
@[simp] theorem mfClear_flagsHold (s : State) : (mfClear s).flagsHold = s.flagsHold := rfl
@[simp] theorem mfClear_rsp (s : State) : (mfClear s).rsp = s.rsp := rfl
@[simp] theorem mfClear_hbMem (s : State) : (mfClear s).hbMem = s.hbMem := rfl
@[simp] theorem mfClear_w (s : State) : (mfClear s).w = s.w := rfl
@[simp] theorem mfClear_ht (s : State) : (mfClear s).ht = { defined := true, entries := s.ht.entries.map fun p => (p.1, { p.2 with valid := false }) } := rfl
@[simp] theorem mfClear_obMem (s : State) : (mfClear s).obMem = s.obMem := rfl
@[simp] theorem mfClear_obIdx (s : State) : (mfClear s).obIdx = s.obIdx := rfl
@[simp] theorem mfClear_obBits (s : State) : (mfClear s).obBits = s.obBits := rfl
@[simp] theorem mfClear_teState (s : State) : (mfClear s).teState = s.teState := rfl
@[simp] theorem mfClear_j (s : State) : (mfClear s).j = s.j := rfl
@[simp] theorem mfClear_n (s : State) : (mfClear s).n = s.n := rfl
@[simp] theorem mfClear_b (s : State) : (mfClear s).b = s.b := rfl
@[simp] theorem mfClear_mC (s : State) : (mfClear s).mC = s.mC := rfl
@[simp] theorem mfClear_mD (s : State) : (mfClear s).mD = s.mD := rfl
@[simp] theorem mfClear_mLen (s : State) : (mfClear s).mLen = s.mLen := rfl
@[simp] theorem mfClear_chunk (s : State) : (mfClear s).chunk = s.chunk := rfl
@[simp] theorem mfClear_doFlush (s : State) : (mfClear s).doFlush = s.doFlush := rfl
@[simp] theorem mfClear_offSent (s : State) : (mfClear s).offSent = s.offSent := rfl
@[simp] theorem mfClear_spanLen (s : State) : (mfClear s).spanLen = s.spanLen := rfl
@[simp] theorem mfClear_freeCtr (s : State) : (mfClear s).freeCtr = s.freeCtr := rfl

/-! ### resetDict -/

@[simp] theorem resetDict_build (s : State) : (resetDict s).build = s.build := rfl
@[simp] theorem resetDict_rst (s : State) : (resetDict s).rst = s.rst := rfl
@[simp] theorem resetDict_accepted (s : State) : (resetDict s).accepted = s.accepted := rfl
@[simp] theorem resetDict_cmdQ (s : State) : (resetDict s).cmdQ = s.cmdQ := rfl
@[simp] theorem resetDict_inQ (s : State) : (resetDict s).inQ = s.inQ := rfl
@[simp] theorem resetDict_obRaddr (s : State) : (resetDict s).obRaddr = s.obRaddr := rfl
@[simp] theorem resetDict_rspValid (s : State) : (resetDict s).rspValid = s.rspValid := rfl
@[simp] theorem resetDict_sess (s : State) : (resetDict s).sess = s.sess := rfl
@[simp] theorem resetDict_variant (s : State) : (resetDict s).variant = s.variant := rfl
@[simp] theorem resetDict_firstPkt (s : State) : (resetDict s).firstPkt = s.firstPkt := rfl
@[simp] theorem resetDict_flagsHold (s : State) : (resetDict s).flagsHold = s.flagsHold := rfl
@[simp] theorem resetDict_rsp (s : State) : (resetDict s).rsp = s.rsp := rfl
@[simp] theorem resetDict_hbMem (s : State) : (resetDict s).hbMem = s.hbMem := rfl
@[simp] theorem resetDict_w (s : State) : (resetDict s).w = 0 := rfl
@[simp] theorem resetDict_ht (s : State) : (resetDict s).ht = (mfClear s).ht := rfl
@[simp] theorem resetDict_obMem (s : State) : (resetDict s).obMem = s.obMem := rfl
@[simp] theorem resetDict_obIdx (s : State) : (resetDict s).obIdx = s.obIdx := rfl
@[simp] theorem resetDict_obBits (s : State) : (resetDict s).obBits = s.obBits := rfl
@[simp] theorem resetDict_teState (s : State) : (resetDict s).teState = s.teState := rfl
@[simp] theorem resetDict_j (s : State) : (resetDict s).j = s.j := rfl
@[simp] theorem resetDict_n (s : State) : (resetDict s).n = s.n := rfl
@[simp] theorem resetDict_b (s : State) : (resetDict s).b = s.b := rfl
@[simp] theorem resetDict_mC (s : State) : (resetDict s).mC = s.mC := rfl
@[simp] theorem resetDict_mD (s : State) : (resetDict s).mD = s.mD := rfl
@[simp] theorem resetDict_mLen (s : State) : (resetDict s).mLen = s.mLen := rfl
@[simp] theorem resetDict_chunk (s : State) : (resetDict s).chunk = s.chunk := rfl
@[simp] theorem resetDict_doFlush (s : State) : (resetDict s).doFlush = s.doFlush := rfl
@[simp] theorem resetDict_offSent (s : State) : (resetDict s).offSent = s.offSent := rfl
@[simp] theorem resetDict_spanLen (s : State) : (resetDict s).spanLen = s.spanLen := rfl
@[simp] theorem resetDict_freeCtr (s : State) : (resetDict s).freeCtr = s.freeCtr := rfl

/-! ### baStart -/

@[simp] theorem baStart_build (s : State) : (baStart s).build = s.build := rfl
@[simp] theorem baStart_rst (s : State) : (baStart s).rst = s.rst := rfl
@[simp] theorem baStart_accepted (s : State) : (baStart s).accepted = s.accepted := rfl
@[simp] theorem baStart_cmdQ (s : State) : (baStart s).cmdQ = s.cmdQ := rfl
@[simp] theorem baStart_inQ (s : State) : (baStart s).inQ = s.inQ := rfl
@[simp] theorem baStart_obRaddr (s : State) : (baStart s).obRaddr = s.obRaddr := rfl
@[simp] theorem baStart_rspValid (s : State) : (baStart s).rspValid = s.rspValid := rfl
@[simp] theorem baStart_sess (s : State) : (baStart s).sess = s.sess := rfl
@[simp] theorem baStart_variant (s : State) : (baStart s).variant = s.variant := rfl
@[simp] theorem baStart_firstPkt (s : State) : (baStart s).firstPkt = s.firstPkt := rfl
@[simp] theorem baStart_flagsHold (s : State) : (baStart s).flagsHold = s.flagsHold := rfl
@[simp] theorem baStart_rsp (s : State) : (baStart s).rsp = s.rsp := rfl
@[simp] theorem baStart_hbMem (s : State) : (baStart s).hbMem = s.hbMem := rfl
@[simp] theorem baStart_w (s : State) : (baStart s).w = s.w := rfl
@[simp] theorem baStart_ht (s : State) : (baStart s).ht = s.ht := rfl
@[simp] theorem baStart_obMem (s : State) : (baStart s).obMem = s.obMem := rfl
@[simp] theorem baStart_obIdx (s : State) : (baStart s).obIdx = 0 := rfl
@[simp] theorem baStart_obBits (s : State) : (baStart s).obBits = 0 := rfl
@[simp] theorem baStart_teState (s : State) : (baStart s).teState = s.teState := rfl
@[simp] theorem baStart_j (s : State) : (baStart s).j = s.j := rfl
@[simp] theorem baStart_n (s : State) : (baStart s).n = s.n := rfl
@[simp] theorem baStart_b (s : State) : (baStart s).b = s.b := rfl
@[simp] theorem baStart_mC (s : State) : (baStart s).mC = s.mC := rfl
@[simp] theorem baStart_mD (s : State) : (baStart s).mD = s.mD := rfl
@[simp] theorem baStart_mLen (s : State) : (baStart s).mLen = s.mLen := rfl
@[simp] theorem baStart_chunk (s : State) : (baStart s).chunk = s.chunk := rfl
@[simp] theorem baStart_doFlush (s : State) : (baStart s).doFlush = s.doFlush := rfl
@[simp] theorem baStart_offSent (s : State) : (baStart s).offSent = s.offSent := rfl
@[simp] theorem baStart_spanLen (s : State) : (baStart s).spanLen = s.spanLen := rfl
@[simp] theorem baStart_freeCtr (s : State) : (baStart s).freeCtr = s.freeCtr := rfl

/-! ### failCmd -/

@[simp] theorem failCmd_build (e : Status) (s : State) : (failCmd e s).build = s.build := rfl
@[simp] theorem failCmd_rst (e : Status) (s : State) : (failCmd e s).rst = s.rst := rfl
@[simp] theorem failCmd_accepted (e : Status) (s : State) : (failCmd e s).accepted = s.accepted := rfl
@[simp] theorem failCmd_cmdQ (e : Status) (s : State) : (failCmd e s).cmdQ = s.cmdQ := rfl
@[simp] theorem failCmd_inQ (e : Status) (s : State) : (failCmd e s).inQ = s.inQ := rfl
@[simp] theorem failCmd_obRaddr (e : Status) (s : State) : (failCmd e s).obRaddr = s.obRaddr := rfl
@[simp] theorem failCmd_rspValid (e : Status) (s : State) : (failCmd e s).rspValid = true := rfl
@[simp] theorem failCmd_sess (e : Status) (s : State) : (failCmd e s).sess = s.sess := rfl
@[simp] theorem failCmd_variant (e : Status) (s : State) : (failCmd e s).variant = s.variant := rfl
@[simp] theorem failCmd_firstPkt (e : Status) (s : State) : (failCmd e s).firstPkt = s.firstPkt := rfl
@[simp] theorem failCmd_flagsHold (e : Status) (s : State) : (failCmd e s).flagsHold = s.flagsHold := rfl
@[simp] theorem failCmd_rsp (e : Status) (s : State) : (failCmd e s).rsp = { status := e, flags := noFlags, len := 0 } := rfl
@[simp] theorem failCmd_hbMem (e : Status) (s : State) : (failCmd e s).hbMem = s.hbMem := rfl
@[simp] theorem failCmd_w (e : Status) (s : State) : (failCmd e s).w = s.w := rfl
@[simp] theorem failCmd_ht (e : Status) (s : State) : (failCmd e s).ht = s.ht := rfl
@[simp] theorem failCmd_obMem (e : Status) (s : State) : (failCmd e s).obMem = s.obMem := rfl
@[simp] theorem failCmd_obIdx (e : Status) (s : State) : (failCmd e s).obIdx = s.obIdx := rfl
@[simp] theorem failCmd_obBits (e : Status) (s : State) : (failCmd e s).obBits = s.obBits := rfl
@[simp] theorem failCmd_teState (e : Status) (s : State) : (failCmd e s).teState = .idle := rfl
@[simp] theorem failCmd_j (e : Status) (s : State) : (failCmd e s).j = s.j := rfl
@[simp] theorem failCmd_n (e : Status) (s : State) : (failCmd e s).n = s.n := rfl
@[simp] theorem failCmd_b (e : Status) (s : State) : (failCmd e s).b = s.b := rfl
@[simp] theorem failCmd_mC (e : Status) (s : State) : (failCmd e s).mC = s.mC := rfl
@[simp] theorem failCmd_mD (e : Status) (s : State) : (failCmd e s).mD = s.mD := rfl
@[simp] theorem failCmd_mLen (e : Status) (s : State) : (failCmd e s).mLen = s.mLen := rfl
@[simp] theorem failCmd_chunk (e : Status) (s : State) : (failCmd e s).chunk = s.chunk := rfl
@[simp] theorem failCmd_doFlush (e : Status) (s : State) : (failCmd e s).doFlush = s.doFlush := rfl
@[simp] theorem failCmd_offSent (e : Status) (s : State) : (failCmd e s).offSent = s.offSent := rfl
@[simp] theorem failCmd_spanLen (e : Status) (s : State) : (failCmd e s).spanLen = s.spanLen := rfl
@[simp] theorem failCmd_freeCtr (e : Status) (s : State) : (failCmd e s).freeCtr = s.freeCtr := rfl

/-! ### succeed -/

@[simp] theorem succeed_build (f : FlagSet) (len : Nat) (s : State) : (succeed f len s).build = s.build := rfl
@[simp] theorem succeed_rst (f : FlagSet) (len : Nat) (s : State) : (succeed f len s).rst = s.rst := rfl
@[simp] theorem succeed_accepted (f : FlagSet) (len : Nat) (s : State) : (succeed f len s).accepted = s.accepted := rfl
@[simp] theorem succeed_cmdQ (f : FlagSet) (len : Nat) (s : State) : (succeed f len s).cmdQ = s.cmdQ := rfl
@[simp] theorem succeed_inQ (f : FlagSet) (len : Nat) (s : State) : (succeed f len s).inQ = s.inQ := rfl
@[simp] theorem succeed_obRaddr (f : FlagSet) (len : Nat) (s : State) : (succeed f len s).obRaddr = s.obRaddr := rfl
@[simp] theorem succeed_rspValid (f : FlagSet) (len : Nat) (s : State) : (succeed f len s).rspValid = true := rfl
@[simp] theorem succeed_sess (f : FlagSet) (len : Nat) (s : State) : (succeed f len s).sess = s.sess := rfl
@[simp] theorem succeed_variant (f : FlagSet) (len : Nat) (s : State) : (succeed f len s).variant = s.variant := rfl
@[simp] theorem succeed_firstPkt (f : FlagSet) (len : Nat) (s : State) : (succeed f len s).firstPkt = s.firstPkt := rfl
@[simp] theorem succeed_flagsHold (f : FlagSet) (len : Nat) (s : State) : (succeed f len s).flagsHold = s.flagsHold := rfl
@[simp] theorem succeed_rsp (f : FlagSet) (len : Nat) (s : State) : (succeed f len s).rsp = { status := .ok, flags := f, len := len } := rfl
@[simp] theorem succeed_hbMem (f : FlagSet) (len : Nat) (s : State) : (succeed f len s).hbMem = s.hbMem := rfl
@[simp] theorem succeed_w (f : FlagSet) (len : Nat) (s : State) : (succeed f len s).w = s.w := rfl
@[simp] theorem succeed_ht (f : FlagSet) (len : Nat) (s : State) : (succeed f len s).ht = s.ht := rfl
@[simp] theorem succeed_obMem (f : FlagSet) (len : Nat) (s : State) : (succeed f len s).obMem = s.obMem := rfl
@[simp] theorem succeed_obIdx (f : FlagSet) (len : Nat) (s : State) : (succeed f len s).obIdx = s.obIdx := rfl
@[simp] theorem succeed_obBits (f : FlagSet) (len : Nat) (s : State) : (succeed f len s).obBits = s.obBits := rfl
@[simp] theorem succeed_teState (f : FlagSet) (len : Nat) (s : State) : (succeed f len s).teState = .idle := rfl
@[simp] theorem succeed_j (f : FlagSet) (len : Nat) (s : State) : (succeed f len s).j = s.j := rfl
@[simp] theorem succeed_n (f : FlagSet) (len : Nat) (s : State) : (succeed f len s).n = s.n := rfl
@[simp] theorem succeed_b (f : FlagSet) (len : Nat) (s : State) : (succeed f len s).b = s.b := rfl
@[simp] theorem succeed_mC (f : FlagSet) (len : Nat) (s : State) : (succeed f len s).mC = s.mC := rfl
@[simp] theorem succeed_mD (f : FlagSet) (len : Nat) (s : State) : (succeed f len s).mD = s.mD := rfl
@[simp] theorem succeed_mLen (f : FlagSet) (len : Nat) (s : State) : (succeed f len s).mLen = s.mLen := rfl
@[simp] theorem succeed_chunk (f : FlagSet) (len : Nat) (s : State) : (succeed f len s).chunk = s.chunk := rfl
@[simp] theorem succeed_doFlush (f : FlagSet) (len : Nat) (s : State) : (succeed f len s).doFlush = s.doFlush := rfl
@[simp] theorem succeed_offSent (f : FlagSet) (len : Nat) (s : State) : (succeed f len s).offSent = s.offSent := rfl
@[simp] theorem succeed_spanLen (f : FlagSet) (len : Nat) (s : State) : (succeed f len s).spanLen = s.spanLen := rfl
@[simp] theorem succeed_freeCtr (f : FlagSet) (len : Nat) (s : State) : (succeed f len s).freeCtr = s.freeCtr := rfl

/-! ### freeRegisters -/

@[simp] theorem freeRegisters_build (v : Variant) (s : State) : (freeRegisters v s).build = s.build := rfl
@[simp] theorem freeRegisters_rst (v : Variant) (s : State) : (freeRegisters v s).rst = s.rst := rfl
@[simp] theorem freeRegisters_accepted (v : Variant) (s : State) : (freeRegisters v s).accepted = s.accepted := rfl
@[simp] theorem freeRegisters_cmdQ (v : Variant) (s : State) : (freeRegisters v s).cmdQ = s.cmdQ := rfl
@[simp] theorem freeRegisters_inQ (v : Variant) (s : State) : (freeRegisters v s).inQ = s.inQ := rfl
@[simp] theorem freeRegisters_obRaddr (v : Variant) (s : State) : (freeRegisters v s).obRaddr = s.obRaddr := rfl
@[simp] theorem freeRegisters_rspValid (v : Variant) (s : State) : (freeRegisters v s).rspValid = s.rspValid := rfl
@[simp] theorem freeRegisters_sess (v : Variant) (s : State) : (freeRegisters v s).sess = s.sess := rfl
@[simp] theorem freeRegisters_variant (v : Variant) (s : State) : (freeRegisters v s).variant = s.variant := rfl
@[simp] theorem freeRegisters_firstPkt (v : Variant) (s : State) : (freeRegisters v s).firstPkt = s.firstPkt := rfl
@[simp] theorem freeRegisters_flagsHold (v : Variant) (s : State) : (freeRegisters v s).flagsHold = s.flagsHold := rfl
@[simp] theorem freeRegisters_rsp (v : Variant) (s : State) : (freeRegisters v s).rsp = s.rsp := rfl
@[simp] theorem freeRegisters_hbMem (v : Variant) (s : State) : (freeRegisters v s).hbMem = s.hbMem := rfl
@[simp] theorem freeRegisters_w (v : Variant) (s : State) : (freeRegisters v s).w = s.w := rfl
@[simp] theorem freeRegisters_ht (v : Variant) (s : State) : (freeRegisters v s).ht = s.ht := rfl
@[simp] theorem freeRegisters_obMem (v : Variant) (s : State) : (freeRegisters v s).obMem = s.obMem := rfl
@[simp] theorem freeRegisters_teState (v : Variant) (s : State) : (freeRegisters v s).teState = s.teState := rfl
@[simp] theorem freeRegisters_chunk (v : Variant) (s : State) : (freeRegisters v s).chunk = s.chunk := rfl
@[simp] theorem freeRegisters_doFlush (v : Variant) (s : State) : (freeRegisters v s).doFlush = s.doFlush := rfl
@[simp] theorem freeRegisters_offSent (v : Variant) (s : State) : (freeRegisters v s).offSent = s.offSent := rfl
@[simp] theorem freeRegisters_spanLen (v : Variant) (s : State) : (freeRegisters v s).spanLen = s.spanLen := rfl
@[simp] theorem freeRegisters_freeCtr (v : Variant) (s : State) : (freeRegisters v s).freeCtr = s.freeCtr + 8 := rfl

/-! ### openSession -/

@[simp] theorem openSession_build (v : Variant) (s : State) : (openSession v s).build = s.build := rfl
@[simp] theorem openSession_rst (v : Variant) (s : State) : (openSession v s).rst = s.rst := rfl
@[simp] theorem openSession_accepted (v : Variant) (s : State) : (openSession v s).accepted = s.accepted := rfl
@[simp] theorem openSession_cmdQ (v : Variant) (s : State) : (openSession v s).cmdQ = s.cmdQ := rfl
@[simp] theorem openSession_inQ (v : Variant) (s : State) : (openSession v s).inQ = s.inQ := rfl
@[simp] theorem openSession_obRaddr (v : Variant) (s : State) : (openSession v s).obRaddr = s.obRaddr := rfl
@[simp] theorem openSession_rspValid (v : Variant) (s : State) : (openSession v s).rspValid = s.rspValid := rfl
@[simp] theorem openSession_sess (v : Variant) (s : State) : (openSession v s).sess = .ready := rfl
@[simp] theorem openSession_variant (v : Variant) (s : State) : (openSession v s).variant = v := rfl
@[simp] theorem openSession_firstPkt (v : Variant) (s : State) : (openSession v s).firstPkt = true := rfl
@[simp] theorem openSession_flagsHold (v : Variant) (s : State) : (openSession v s).flagsHold = atFrontOnly := rfl
@[simp] theorem openSession_rsp (v : Variant) (s : State) : (openSession v s).rsp = s.rsp := rfl
@[simp] theorem openSession_hbMem (v : Variant) (s : State) : (openSession v s).hbMem = s.hbMem := rfl
@[simp] theorem openSession_w (v : Variant) (s : State) : (openSession v s).w = 0 := rfl
@[simp] theorem openSession_ht (v : Variant) (s : State) : (openSession v s).ht = (mfClear s).ht := rfl
@[simp] theorem openSession_obMem (v : Variant) (s : State) : (openSession v s).obMem = s.obMem := rfl
@[simp] theorem openSession_teState (v : Variant) (s : State) : (openSession v s).teState = s.teState := rfl
@[simp] theorem openSession_chunk (v : Variant) (s : State) : (openSession v s).chunk = s.chunk := rfl
@[simp] theorem openSession_doFlush (v : Variant) (s : State) : (openSession v s).doFlush = s.doFlush := rfl
@[simp] theorem openSession_offSent (v : Variant) (s : State) : (openSession v s).offSent = s.offSent := rfl
@[simp] theorem openSession_spanLen (v : Variant) (s : State) : (openSession v s).spanLen = 0 := rfl
@[simp] theorem openSession_freeCtr (v : Variant) (s : State) : (openSession v s).freeCtr = s.freeCtr + 8 := rfl

/-! ### startPass -/

@[simp] theorem startPass_build (k : Nat) (f : Bool) (s : State) : (startPass k f s).build = s.build := rfl
@[simp] theorem startPass_rst (k : Nat) (f : Bool) (s : State) : (startPass k f s).rst = s.rst := rfl
@[simp] theorem startPass_accepted (k : Nat) (f : Bool) (s : State) : (startPass k f s).accepted = s.accepted := rfl
@[simp] theorem startPass_cmdQ (k : Nat) (f : Bool) (s : State) : (startPass k f s).cmdQ = s.cmdQ := rfl
@[simp] theorem startPass_inQ (k : Nat) (f : Bool) (s : State) : (startPass k f s).inQ = s.inQ := rfl
@[simp] theorem startPass_obRaddr (k : Nat) (f : Bool) (s : State) : (startPass k f s).obRaddr = s.obRaddr := rfl
@[simp] theorem startPass_rspValid (k : Nat) (f : Bool) (s : State) : (startPass k f s).rspValid = false := rfl
@[simp] theorem startPass_sess (k : Nat) (f : Bool) (s : State) : (startPass k f s).sess = s.sess := rfl
@[simp] theorem startPass_variant (k : Nat) (f : Bool) (s : State) : (startPass k f s).variant = s.variant := rfl
@[simp] theorem startPass_firstPkt (k : Nat) (f : Bool) (s : State) : (startPass k f s).firstPkt = s.firstPkt := rfl
@[simp] theorem startPass_flagsHold (k : Nat) (f : Bool) (s : State) : (startPass k f s).flagsHold = s.flagsHold := rfl
@[simp] theorem startPass_rsp (k : Nat) (f : Bool) (s : State) : (startPass k f s).rsp = s.rsp := rfl
@[simp] theorem startPass_hbMem (k : Nat) (f : Bool) (s : State) : (startPass k f s).hbMem = s.hbMem := rfl
@[simp] theorem startPass_w (k : Nat) (f : Bool) (s : State) : (startPass k f s).w = s.w := rfl
@[simp] theorem startPass_ht (k : Nat) (f : Bool) (s : State) : (startPass k f s).ht = s.ht := rfl
@[simp] theorem startPass_obMem (k : Nat) (f : Bool) (s : State) : (startPass k f s).obMem = s.obMem := rfl
@[simp] theorem startPass_obIdx (k : Nat) (f : Bool) (s : State) : (startPass k f s).obIdx = 0 := rfl
@[simp] theorem startPass_obBits (k : Nat) (f : Bool) (s : State) : (startPass k f s).obBits = 0 := rfl
@[simp] theorem startPass_teState (k : Nat) (f : Bool) (s : State) : (startPass k f s).teState = .scan := rfl
@[simp] theorem startPass_j (k : Nat) (f : Bool) (s : State) : (startPass k f s).j = 0 := rfl
@[simp] theorem startPass_n (k : Nat) (f : Bool) (s : State) : (startPass k f s).n = k := rfl
@[simp] theorem startPass_b (k : Nat) (f : Bool) (s : State) : (startPass k f s).b = s.w := rfl
@[simp] theorem startPass_mC (k : Nat) (f : Bool) (s : State) : (startPass k f s).mC = s.mC := rfl
@[simp] theorem startPass_mD (k : Nat) (f : Bool) (s : State) : (startPass k f s).mD = s.mD := rfl
@[simp] theorem startPass_mLen (k : Nat) (f : Bool) (s : State) : (startPass k f s).mLen = s.mLen := rfl
@[simp] theorem startPass_chunk (k : Nat) (f : Bool) (s : State) : (startPass k f s).chunk = [] := rfl
@[simp] theorem startPass_doFlush (k : Nat) (f : Bool) (s : State) : (startPass k f s).doFlush = f := rfl
@[simp] theorem startPass_offSent (k : Nat) (f : Bool) (s : State) : (startPass k f s).offSent = false := rfl
@[simp] theorem startPass_spanLen (k : Nat) (f : Bool) (s : State) : (startPass k f s).spanLen = 0 := rfl
@[simp] theorem startPass_freeCtr (k : Nat) (f : Bool) (s : State) : (startPass k f s).freeCtr = s.freeCtr := rfl

/-! ### takeInput -/

@[simp] theorem takeInput_build (s : State) : (takeInput s).build = s.build := rfl
@[simp] theorem takeInput_rst (s : State) : (takeInput s).rst = s.rst := rfl
@[simp] theorem takeInput_accepted (s : State) : (takeInput s).accepted = s.accepted := rfl
@[simp] theorem takeInput_cmdQ (s : State) : (takeInput s).cmdQ = s.cmdQ := rfl
@[simp] theorem takeInput_inQ (s : State) : (takeInput s).inQ = s.inQ.drop (s.n - s.chunk.length) := rfl
@[simp] theorem takeInput_obRaddr (s : State) : (takeInput s).obRaddr = s.obRaddr := rfl
@[simp] theorem takeInput_rspValid (s : State) : (takeInput s).rspValid = s.rspValid := rfl
@[simp] theorem takeInput_sess (s : State) : (takeInput s).sess = s.sess := rfl
@[simp] theorem takeInput_variant (s : State) : (takeInput s).variant = s.variant := rfl
@[simp] theorem takeInput_firstPkt (s : State) : (takeInput s).firstPkt = s.firstPkt := rfl
@[simp] theorem takeInput_flagsHold (s : State) : (takeInput s).flagsHold = s.flagsHold := rfl
@[simp] theorem takeInput_rsp (s : State) : (takeInput s).rsp = s.rsp := rfl
@[simp] theorem takeInput_hbMem (s : State) : (takeInput s).hbMem = s.hbMem := rfl
@[simp] theorem takeInput_w (s : State) : (takeInput s).w = s.w := rfl
@[simp] theorem takeInput_ht (s : State) : (takeInput s).ht = s.ht := rfl
@[simp] theorem takeInput_obMem (s : State) : (takeInput s).obMem = s.obMem := rfl
@[simp] theorem takeInput_obIdx (s : State) : (takeInput s).obIdx = s.obIdx := rfl
@[simp] theorem takeInput_obBits (s : State) : (takeInput s).obBits = s.obBits := rfl
@[simp] theorem takeInput_teState (s : State) : (takeInput s).teState = s.teState := rfl
@[simp] theorem takeInput_j (s : State) : (takeInput s).j = s.j := rfl
@[simp] theorem takeInput_n (s : State) : (takeInput s).n = s.n := rfl
@[simp] theorem takeInput_b (s : State) : (takeInput s).b = s.b := rfl
@[simp] theorem takeInput_mC (s : State) : (takeInput s).mC = s.mC := rfl
@[simp] theorem takeInput_mD (s : State) : (takeInput s).mD = s.mD := rfl
@[simp] theorem takeInput_mLen (s : State) : (takeInput s).mLen = s.mLen := rfl
@[simp] theorem takeInput_chunk (s : State) : (takeInput s).chunk = s.chunk ++ s.inQ.take (s.n - s.chunk.length) := rfl
@[simp] theorem takeInput_doFlush (s : State) : (takeInput s).doFlush = s.doFlush := rfl
@[simp] theorem takeInput_offSent (s : State) : (takeInput s).offSent = s.offSent := rfl
@[simp] theorem takeInput_spanLen (s : State) : (takeInput s).spanLen = s.spanLen := rfl
@[simp] theorem takeInput_freeCtr (s : State) : (takeInput s).freeCtr = s.freeCtr := rfl

/-! ### commitResult -/

@[simp] theorem commitResult_build (p : Bool) (len : Nat) (s : State) : (commitResult p len s).build = s.build := rfl
@[simp] theorem commitResult_rst (p : Bool) (len : Nat) (s : State) : (commitResult p len s).rst = s.rst := rfl
@[simp] theorem commitResult_accepted (p : Bool) (len : Nat) (s : State) : (commitResult p len s).accepted = s.accepted := rfl
@[simp] theorem commitResult_cmdQ (p : Bool) (len : Nat) (s : State) : (commitResult p len s).cmdQ = s.cmdQ := rfl
@[simp] theorem commitResult_inQ (p : Bool) (len : Nat) (s : State) : (commitResult p len s).inQ = s.inQ := rfl
@[simp] theorem commitResult_obRaddr (p : Bool) (len : Nat) (s : State) : (commitResult p len s).obRaddr = s.obRaddr := rfl
@[simp] theorem commitResult_rspValid (p : Bool) (len : Nat) (s : State) : (commitResult p len s).rspValid = true := rfl
@[simp] theorem commitResult_sess (p : Bool) (len : Nat) (s : State) : (commitResult p len s).sess = s.sess := rfl
@[simp] theorem commitResult_variant (p : Bool) (len : Nat) (s : State) : (commitResult p len s).variant = s.variant := rfl
@[simp] theorem commitResult_firstPkt (p : Bool) (len : Nat) (s : State) : (commitResult p len s).firstPkt = false := rfl
@[simp] theorem commitResult_flagsHold (p : Bool) (len : Nat) (s : State) : (commitResult p len s).flagsHold = if p then atFrontOnly else noFlags := rfl
@[simp] theorem commitResult_rsp (p : Bool) (len : Nat) (s : State) : (commitResult p len s).rsp = { status := .ok, flags := compressFlags (atFront s) s.doFlush p, len := len } := rfl
@[simp] theorem commitResult_hbMem (p : Bool) (len : Nat) (s : State) : (commitResult p len s).hbMem = s.hbMem := rfl
@[simp] theorem commitResult_w (p : Bool) (len : Nat) (s : State) : (commitResult p len s).w = s.w := rfl
@[simp] theorem commitResult_ht (p : Bool) (len : Nat) (s : State) : (commitResult p len s).ht = s.ht := rfl
@[simp] theorem commitResult_obMem (p : Bool) (len : Nat) (s : State) : (commitResult p len s).obMem = s.obMem := rfl
@[simp] theorem commitResult_obIdx (p : Bool) (len : Nat) (s : State) : (commitResult p len s).obIdx = s.obIdx := rfl
@[simp] theorem commitResult_obBits (p : Bool) (len : Nat) (s : State) : (commitResult p len s).obBits = s.obBits := rfl
@[simp] theorem commitResult_teState (p : Bool) (len : Nat) (s : State) : (commitResult p len s).teState = .idle := rfl
@[simp] theorem commitResult_j (p : Bool) (len : Nat) (s : State) : (commitResult p len s).j = s.j := rfl
@[simp] theorem commitResult_n (p : Bool) (len : Nat) (s : State) : (commitResult p len s).n = s.n := rfl
@[simp] theorem commitResult_b (p : Bool) (len : Nat) (s : State) : (commitResult p len s).b = s.b := rfl
@[simp] theorem commitResult_mC (p : Bool) (len : Nat) (s : State) : (commitResult p len s).mC = s.mC := rfl
@[simp] theorem commitResult_mD (p : Bool) (len : Nat) (s : State) : (commitResult p len s).mD = s.mD := rfl
@[simp] theorem commitResult_mLen (p : Bool) (len : Nat) (s : State) : (commitResult p len s).mLen = s.mLen := rfl
@[simp] theorem commitResult_chunk (p : Bool) (len : Nat) (s : State) : (commitResult p len s).chunk = [] := rfl
@[simp] theorem commitResult_doFlush (p : Bool) (len : Nat) (s : State) : (commitResult p len s).doFlush = false := rfl
@[simp] theorem commitResult_offSent (p : Bool) (len : Nat) (s : State) : (commitResult p len s).offSent = s.offSent := rfl
@[simp] theorem commitResult_spanLen (p : Bool) (len : Nat) (s : State) : (commitResult p len s).spanLen = len := rfl
@[simp] theorem commitResult_freeCtr (p : Bool) (len : Nat) (s : State) : (commitResult p len s).freeCtr = s.freeCtr := rfl

/-! ### unspecify -/

@[simp] theorem unspecify_build (v : Variant) (s : State) : (unspecify v s).build = s.build := rfl
@[simp] theorem unspecify_rst (v : Variant) (s : State) : (unspecify v s).rst = s.rst := rfl
@[simp] theorem unspecify_accepted (v : Variant) (s : State) : (unspecify v s).accepted = s.accepted := rfl
@[simp] theorem unspecify_cmdQ (v : Variant) (s : State) : (unspecify v s).cmdQ = s.cmdQ := rfl
@[simp] theorem unspecify_inQ (v : Variant) (s : State) : (unspecify v s).inQ = s.inQ := rfl
@[simp] theorem unspecify_obRaddr (v : Variant) (s : State) : (unspecify v s).obRaddr = s.obRaddr := rfl
@[simp] theorem unspecify_rspValid (v : Variant) (s : State) : (unspecify v s).rspValid = s.rspValid := rfl
@[simp] theorem unspecify_sess (v : Variant) (s : State) : (unspecify v s).sess = s.sess := rfl
@[simp] theorem unspecify_variant (v : Variant) (s : State) : (unspecify v s).variant = s.variant := rfl
@[simp] theorem unspecify_rsp (v : Variant) (s : State) : (unspecify v s).rsp = s.rsp := rfl
@[simp] theorem unspecify_hbMem (v : Variant) (s : State) : (unspecify v s).hbMem = [] := rfl
@[simp] theorem unspecify_ht (v : Variant) (s : State) : (unspecify v s).ht = { defined := false, entries := [] } := rfl
@[simp] theorem unspecify_obMem (v : Variant) (s : State) : (unspecify v s).obMem = [] := rfl
@[simp] theorem unspecify_teState (v : Variant) (s : State) : (unspecify v s).teState = s.teState := rfl
@[simp] theorem unspecify_chunk (v : Variant) (s : State) : (unspecify v s).chunk = [] := rfl
@[simp] theorem unspecify_doFlush (v : Variant) (s : State) : (unspecify v s).doFlush = false := rfl
@[simp] theorem unspecify_offSent (v : Variant) (s : State) : (unspecify v s).offSent = false := rfl
@[simp] theorem unspecify_spanLen (v : Variant) (s : State) : (unspecify v s).spanLen = 0 := rfl
@[simp] theorem unspecify_freeCtr (v : Variant) (s : State) : (unspecify v s).freeCtr = s.freeCtr + 12 := rfl

/-! ### raiseOverflow -/

@[simp] theorem raiseOverflow_build (s : State) : (raiseOverflow s).build = s.build := rfl
@[simp] theorem raiseOverflow_rst (s : State) : (raiseOverflow s).rst = s.rst := rfl
@[simp] theorem raiseOverflow_accepted (s : State) : (raiseOverflow s).accepted = s.accepted := rfl
@[simp] theorem raiseOverflow_cmdQ (s : State) : (raiseOverflow s).cmdQ = s.cmdQ := rfl
@[simp] theorem raiseOverflow_inQ (s : State) : (raiseOverflow s).inQ = s.inQ := rfl
@[simp] theorem raiseOverflow_obRaddr (s : State) : (raiseOverflow s).obRaddr = s.obRaddr := rfl
@[simp] theorem raiseOverflow_rspValid (s : State) : (raiseOverflow s).rspValid = true := rfl
@[simp] theorem raiseOverflow_sess (s : State) : (raiseOverflow s).sess = .faulted := rfl
@[simp] theorem raiseOverflow_variant (s : State) : (raiseOverflow s).variant = s.variant := rfl
@[simp] theorem raiseOverflow_rsp (s : State) : (raiseOverflow s).rsp = { status := .outputOverflow, flags := noFlags, len := 0 } := rfl
@[simp] theorem raiseOverflow_hbMem (s : State) : (raiseOverflow s).hbMem = [] := rfl
@[simp] theorem raiseOverflow_ht (s : State) : (raiseOverflow s).ht = { defined := false, entries := [] } := rfl
@[simp] theorem raiseOverflow_obMem (s : State) : (raiseOverflow s).obMem = [] := rfl
@[simp] theorem raiseOverflow_teState (s : State) : (raiseOverflow s).teState = .idle := rfl
@[simp] theorem raiseOverflow_chunk (s : State) : (raiseOverflow s).chunk = [] := rfl
@[simp] theorem raiseOverflow_doFlush (s : State) : (raiseOverflow s).doFlush = false := rfl
@[simp] theorem raiseOverflow_offSent (s : State) : (raiseOverflow s).offSent = false := rfl
@[simp] theorem raiseOverflow_spanLen (s : State) : (raiseOverflow s).spanLen = 0 := rfl
@[simp] theorem raiseOverflow_freeCtr (s : State) : (raiseOverflow s).freeCtr = s.freeCtr + 12 := rfl

/-! ### dropSession -/

@[simp] theorem dropSession_build (s : State) : (dropSession s).build = s.build := rfl
@[simp] theorem dropSession_rst (s : State) : (dropSession s).rst = s.rst := rfl
@[simp] theorem dropSession_accepted (s : State) : (dropSession s).accepted = s.accepted := rfl
@[simp] theorem dropSession_cmdQ (s : State) : (dropSession s).cmdQ = s.cmdQ := rfl
@[simp] theorem dropSession_inQ (s : State) : (dropSession s).inQ = s.inQ := rfl
@[simp] theorem dropSession_obRaddr (s : State) : (dropSession s).obRaddr = s.obRaddr := rfl
@[simp] theorem dropSession_rspValid (s : State) : (dropSession s).rspValid = s.rspValid := rfl
@[simp] theorem dropSession_sess (s : State) : (dropSession s).sess = .absent := rfl
@[simp] theorem dropSession_rsp (s : State) : (dropSession s).rsp = s.rsp := rfl
@[simp] theorem dropSession_hbMem (s : State) : (dropSession s).hbMem = [] := rfl
@[simp] theorem dropSession_ht (s : State) : (dropSession s).ht = { defined := false, entries := [] } := rfl
@[simp] theorem dropSession_obMem (s : State) : (dropSession s).obMem = [] := rfl
@[simp] theorem dropSession_teState (s : State) : (dropSession s).teState = s.teState := rfl
@[simp] theorem dropSession_chunk (s : State) : (dropSession s).chunk = [] := rfl
@[simp] theorem dropSession_doFlush (s : State) : (dropSession s).doFlush = false := rfl
@[simp] theorem dropSession_offSent (s : State) : (dropSession s).offSent = false := rfl
@[simp] theorem dropSession_spanLen (s : State) : (dropSession s).spanLen = 0 := rfl
@[simp] theorem dropSession_freeCtr (s : State) : (dropSession s).freeCtr = s.freeCtr + 12 := rfl

/-! ### hardReset -/

@[simp] theorem hardReset_build (s : State) : (hardReset s).build = s.build := rfl
@[simp] theorem hardReset_rst (s : State) : (hardReset s).rst = s.rst := rfl
@[simp] theorem hardReset_accepted (s : State) : (hardReset s).accepted = none := rfl
@[simp] theorem hardReset_cmdQ (s : State) : (hardReset s).cmdQ = s.cmdQ := rfl
@[simp] theorem hardReset_inQ (s : State) : (hardReset s).inQ = s.inQ := rfl
@[simp] theorem hardReset_obRaddr (s : State) : (hardReset s).obRaddr = s.obRaddr := rfl
@[simp] theorem hardReset_rspValid (s : State) : (hardReset s).rspValid = false := rfl
@[simp] theorem hardReset_sess (s : State) : (hardReset s).sess = .absent := rfl
@[simp] theorem hardReset_rsp (s : State) : (hardReset s).rsp = { status := .ok, flags := noFlags, len := 0 } := rfl
@[simp] theorem hardReset_hbMem (s : State) : (hardReset s).hbMem = [] := rfl
@[simp] theorem hardReset_ht (s : State) : (hardReset s).ht = { defined := false, entries := [] } := rfl
@[simp] theorem hardReset_obMem (s : State) : (hardReset s).obMem = [] := rfl
@[simp] theorem hardReset_teState (s : State) : (hardReset s).teState = .idle := rfl
@[simp] theorem hardReset_chunk (s : State) : (hardReset s).chunk = [] := rfl
@[simp] theorem hardReset_doFlush (s : State) : (hardReset s).doFlush = false := rfl
@[simp] theorem hardReset_offSent (s : State) : (hardReset s).offSent = false := rfl
@[simp] theorem hardReset_spanLen (s : State) : (hardReset s).spanLen = 0 := rfl
@[simp] theorem hardReset_freeCtr (s : State) : (hardReset s).freeCtr = s.freeCtr + 12 := rfl

/-! ### teConsume and teConsumeRun: they write only HB, W and HT (43 R196) -/

@[simp] theorem teConsume_build (p : Nat) (a c : Option Byte) (x : Byte) (s : State) :
    (teConsume p a c x s).build = s.build := by
  unfold teConsume; split <;> rfl
@[simp] theorem teConsume_rst (p : Nat) (a c : Option Byte) (x : Byte) (s : State) :
    (teConsume p a c x s).rst = s.rst := by
  unfold teConsume; split <;> rfl
@[simp] theorem teConsume_accepted (p : Nat) (a c : Option Byte) (x : Byte) (s : State) :
    (teConsume p a c x s).accepted = s.accepted := by
  unfold teConsume; split <;> rfl
@[simp] theorem teConsume_cmdQ (p : Nat) (a c : Option Byte) (x : Byte) (s : State) :
    (teConsume p a c x s).cmdQ = s.cmdQ := by
  unfold teConsume; split <;> rfl
@[simp] theorem teConsume_inQ (p : Nat) (a c : Option Byte) (x : Byte) (s : State) :
    (teConsume p a c x s).inQ = s.inQ := by
  unfold teConsume; split <;> rfl
@[simp] theorem teConsume_obRaddr (p : Nat) (a c : Option Byte) (x : Byte) (s : State) :
    (teConsume p a c x s).obRaddr = s.obRaddr := by
  unfold teConsume; split <;> rfl
@[simp] theorem teConsume_rspValid (p : Nat) (a c : Option Byte) (x : Byte) (s : State) :
    (teConsume p a c x s).rspValid = s.rspValid := by
  unfold teConsume; split <;> rfl
@[simp] theorem teConsume_sess (p : Nat) (a c : Option Byte) (x : Byte) (s : State) :
    (teConsume p a c x s).sess = s.sess := by
  unfold teConsume; split <;> rfl
@[simp] theorem teConsume_variant (p : Nat) (a c : Option Byte) (x : Byte) (s : State) :
    (teConsume p a c x s).variant = s.variant := by
  unfold teConsume; split <;> rfl
@[simp] theorem teConsume_firstPkt (p : Nat) (a c : Option Byte) (x : Byte) (s : State) :
    (teConsume p a c x s).firstPkt = s.firstPkt := by
  unfold teConsume; split <;> rfl
@[simp] theorem teConsume_flagsHold (p : Nat) (a c : Option Byte) (x : Byte) (s : State) :
    (teConsume p a c x s).flagsHold = s.flagsHold := by
  unfold teConsume; split <;> rfl
@[simp] theorem teConsume_rsp (p : Nat) (a c : Option Byte) (x : Byte) (s : State) :
    (teConsume p a c x s).rsp = s.rsp := by
  unfold teConsume; split <;> rfl
@[simp] theorem teConsume_obMem (p : Nat) (a c : Option Byte) (x : Byte) (s : State) :
    (teConsume p a c x s).obMem = s.obMem := by
  unfold teConsume; split <;> rfl
@[simp] theorem teConsume_obIdx (p : Nat) (a c : Option Byte) (x : Byte) (s : State) :
    (teConsume p a c x s).obIdx = s.obIdx := by
  unfold teConsume; split <;> rfl
@[simp] theorem teConsume_obBits (p : Nat) (a c : Option Byte) (x : Byte) (s : State) :
    (teConsume p a c x s).obBits = s.obBits := by
  unfold teConsume; split <;> rfl
@[simp] theorem teConsume_teState (p : Nat) (a c : Option Byte) (x : Byte) (s : State) :
    (teConsume p a c x s).teState = s.teState := by
  unfold teConsume; split <;> rfl
@[simp] theorem teConsume_j (p : Nat) (a c : Option Byte) (x : Byte) (s : State) :
    (teConsume p a c x s).j = s.j := by
  unfold teConsume; split <;> rfl
@[simp] theorem teConsume_n (p : Nat) (a c : Option Byte) (x : Byte) (s : State) :
    (teConsume p a c x s).n = s.n := by
  unfold teConsume; split <;> rfl
@[simp] theorem teConsume_b (p : Nat) (a c : Option Byte) (x : Byte) (s : State) :
    (teConsume p a c x s).b = s.b := by
  unfold teConsume; split <;> rfl
@[simp] theorem teConsume_mC (p : Nat) (a c : Option Byte) (x : Byte) (s : State) :
    (teConsume p a c x s).mC = s.mC := by
  unfold teConsume; split <;> rfl
@[simp] theorem teConsume_mD (p : Nat) (a c : Option Byte) (x : Byte) (s : State) :
    (teConsume p a c x s).mD = s.mD := by
  unfold teConsume; split <;> rfl
@[simp] theorem teConsume_mLen (p : Nat) (a c : Option Byte) (x : Byte) (s : State) :
    (teConsume p a c x s).mLen = s.mLen := by
  unfold teConsume; split <;> rfl
@[simp] theorem teConsume_chunk (p : Nat) (a c : Option Byte) (x : Byte) (s : State) :
    (teConsume p a c x s).chunk = s.chunk := by
  unfold teConsume; split <;> rfl
@[simp] theorem teConsume_doFlush (p : Nat) (a c : Option Byte) (x : Byte) (s : State) :
    (teConsume p a c x s).doFlush = s.doFlush := by
  unfold teConsume; split <;> rfl
@[simp] theorem teConsume_offSent (p : Nat) (a c : Option Byte) (x : Byte) (s : State) :
    (teConsume p a c x s).offSent = s.offSent := by
  unfold teConsume; split <;> rfl
@[simp] theorem teConsume_spanLen (p : Nat) (a c : Option Byte) (x : Byte) (s : State) :
    (teConsume p a c x s).spanLen = s.spanLen := by
  unfold teConsume; split <;> rfl
@[simp] theorem teConsume_freeCtr (p : Nat) (a c : Option Byte) (x : Byte) (s : State) :
    (teConsume p a c x s).freeCtr = s.freeCtr := by
  unfold teConsume; split <;> rfl
@[simp] theorem teConsume_hbMem (p : Nat) (a c : Option Byte) (x : Byte) (s : State) :
    (teConsume p a c x s).hbMem = writeCell (phys s.variant s.w) x s.hbMem := by
  unfold teConsume; split <;> rfl
@[simp] theorem teConsume_w (p : Nat) (a c : Option Byte) (x : Byte) (s : State) :
    (teConsume p a c x s).w = s.w + 1 := by
  unfold teConsume; split <;> rfl

@[simp] theorem teConsumeRun_build (xs : List Byte) (p : Nat) (a c : Option Byte) (s : State) :
    (teConsumeRun p a c xs s).build = s.build := by
  induction xs generalizing p a c s with
  | nil => rfl
  | cons x xs ih => simp [teConsumeRun, ih]
@[simp] theorem teConsumeRun_rst (xs : List Byte) (p : Nat) (a c : Option Byte) (s : State) :
    (teConsumeRun p a c xs s).rst = s.rst := by
  induction xs generalizing p a c s with
  | nil => rfl
  | cons x xs ih => simp [teConsumeRun, ih]
@[simp] theorem teConsumeRun_accepted (xs : List Byte) (p : Nat) (a c : Option Byte) (s : State) :
    (teConsumeRun p a c xs s).accepted = s.accepted := by
  induction xs generalizing p a c s with
  | nil => rfl
  | cons x xs ih => simp [teConsumeRun, ih]
@[simp] theorem teConsumeRun_cmdQ (xs : List Byte) (p : Nat) (a c : Option Byte) (s : State) :
    (teConsumeRun p a c xs s).cmdQ = s.cmdQ := by
  induction xs generalizing p a c s with
  | nil => rfl
  | cons x xs ih => simp [teConsumeRun, ih]
@[simp] theorem teConsumeRun_inQ (xs : List Byte) (p : Nat) (a c : Option Byte) (s : State) :
    (teConsumeRun p a c xs s).inQ = s.inQ := by
  induction xs generalizing p a c s with
  | nil => rfl
  | cons x xs ih => simp [teConsumeRun, ih]
@[simp] theorem teConsumeRun_obRaddr (xs : List Byte) (p : Nat) (a c : Option Byte) (s : State) :
    (teConsumeRun p a c xs s).obRaddr = s.obRaddr := by
  induction xs generalizing p a c s with
  | nil => rfl
  | cons x xs ih => simp [teConsumeRun, ih]
@[simp] theorem teConsumeRun_rspValid (xs : List Byte) (p : Nat) (a c : Option Byte) (s : State) :
    (teConsumeRun p a c xs s).rspValid = s.rspValid := by
  induction xs generalizing p a c s with
  | nil => rfl
  | cons x xs ih => simp [teConsumeRun, ih]
@[simp] theorem teConsumeRun_sess (xs : List Byte) (p : Nat) (a c : Option Byte) (s : State) :
    (teConsumeRun p a c xs s).sess = s.sess := by
  induction xs generalizing p a c s with
  | nil => rfl
  | cons x xs ih => simp [teConsumeRun, ih]
@[simp] theorem teConsumeRun_variant (xs : List Byte) (p : Nat) (a c : Option Byte) (s : State) :
    (teConsumeRun p a c xs s).variant = s.variant := by
  induction xs generalizing p a c s with
  | nil => rfl
  | cons x xs ih => simp [teConsumeRun, ih]
@[simp] theorem teConsumeRun_firstPkt (xs : List Byte) (p : Nat) (a c : Option Byte) (s : State) :
    (teConsumeRun p a c xs s).firstPkt = s.firstPkt := by
  induction xs generalizing p a c s with
  | nil => rfl
  | cons x xs ih => simp [teConsumeRun, ih]
@[simp] theorem teConsumeRun_flagsHold (xs : List Byte) (p : Nat) (a c : Option Byte) (s : State) :
    (teConsumeRun p a c xs s).flagsHold = s.flagsHold := by
  induction xs generalizing p a c s with
  | nil => rfl
  | cons x xs ih => simp [teConsumeRun, ih]
@[simp] theorem teConsumeRun_rsp (xs : List Byte) (p : Nat) (a c : Option Byte) (s : State) :
    (teConsumeRun p a c xs s).rsp = s.rsp := by
  induction xs generalizing p a c s with
  | nil => rfl
  | cons x xs ih => simp [teConsumeRun, ih]
@[simp] theorem teConsumeRun_obMem (xs : List Byte) (p : Nat) (a c : Option Byte) (s : State) :
    (teConsumeRun p a c xs s).obMem = s.obMem := by
  induction xs generalizing p a c s with
  | nil => rfl
  | cons x xs ih => simp [teConsumeRun, ih]
@[simp] theorem teConsumeRun_obIdx (xs : List Byte) (p : Nat) (a c : Option Byte) (s : State) :
    (teConsumeRun p a c xs s).obIdx = s.obIdx := by
  induction xs generalizing p a c s with
  | nil => rfl
  | cons x xs ih => simp [teConsumeRun, ih]
@[simp] theorem teConsumeRun_obBits (xs : List Byte) (p : Nat) (a c : Option Byte) (s : State) :
    (teConsumeRun p a c xs s).obBits = s.obBits := by
  induction xs generalizing p a c s with
  | nil => rfl
  | cons x xs ih => simp [teConsumeRun, ih]
@[simp] theorem teConsumeRun_teState (xs : List Byte) (p : Nat) (a c : Option Byte) (s : State) :
    (teConsumeRun p a c xs s).teState = s.teState := by
  induction xs generalizing p a c s with
  | nil => rfl
  | cons x xs ih => simp [teConsumeRun, ih]
@[simp] theorem teConsumeRun_j (xs : List Byte) (p : Nat) (a c : Option Byte) (s : State) :
    (teConsumeRun p a c xs s).j = s.j := by
  induction xs generalizing p a c s with
  | nil => rfl
  | cons x xs ih => simp [teConsumeRun, ih]
@[simp] theorem teConsumeRun_n (xs : List Byte) (p : Nat) (a c : Option Byte) (s : State) :
    (teConsumeRun p a c xs s).n = s.n := by
  induction xs generalizing p a c s with
  | nil => rfl
  | cons x xs ih => simp [teConsumeRun, ih]
@[simp] theorem teConsumeRun_b (xs : List Byte) (p : Nat) (a c : Option Byte) (s : State) :
    (teConsumeRun p a c xs s).b = s.b := by
  induction xs generalizing p a c s with
  | nil => rfl
  | cons x xs ih => simp [teConsumeRun, ih]
@[simp] theorem teConsumeRun_mC (xs : List Byte) (p : Nat) (a c : Option Byte) (s : State) :
    (teConsumeRun p a c xs s).mC = s.mC := by
  induction xs generalizing p a c s with
  | nil => rfl
  | cons x xs ih => simp [teConsumeRun, ih]
@[simp] theorem teConsumeRun_mD (xs : List Byte) (p : Nat) (a c : Option Byte) (s : State) :
    (teConsumeRun p a c xs s).mD = s.mD := by
  induction xs generalizing p a c s with
  | nil => rfl
  | cons x xs ih => simp [teConsumeRun, ih]
@[simp] theorem teConsumeRun_mLen (xs : List Byte) (p : Nat) (a c : Option Byte) (s : State) :
    (teConsumeRun p a c xs s).mLen = s.mLen := by
  induction xs generalizing p a c s with
  | nil => rfl
  | cons x xs ih => simp [teConsumeRun, ih]
@[simp] theorem teConsumeRun_chunk (xs : List Byte) (p : Nat) (a c : Option Byte) (s : State) :
    (teConsumeRun p a c xs s).chunk = s.chunk := by
  induction xs generalizing p a c s with
  | nil => rfl
  | cons x xs ih => simp [teConsumeRun, ih]
@[simp] theorem teConsumeRun_doFlush (xs : List Byte) (p : Nat) (a c : Option Byte) (s : State) :
    (teConsumeRun p a c xs s).doFlush = s.doFlush := by
  induction xs generalizing p a c s with
  | nil => rfl
  | cons x xs ih => simp [teConsumeRun, ih]
@[simp] theorem teConsumeRun_offSent (xs : List Byte) (p : Nat) (a c : Option Byte) (s : State) :
    (teConsumeRun p a c xs s).offSent = s.offSent := by
  induction xs generalizing p a c s with
  | nil => rfl
  | cons x xs ih => simp [teConsumeRun, ih]
@[simp] theorem teConsumeRun_spanLen (xs : List Byte) (p : Nat) (a c : Option Byte) (s : State) :
    (teConsumeRun p a c xs s).spanLen = s.spanLen := by
  induction xs generalizing p a c s with
  | nil => rfl
  | cons x xs ih => simp [teConsumeRun, ih]
@[simp] theorem teConsumeRun_freeCtr (xs : List Byte) (p : Nat) (a c : Option Byte) (s : State) :
    (teConsumeRun p a c xs s).freeCtr = s.freeCtr := by
  induction xs generalizing p a c s with
  | nil => rfl
  | cons x xs ih => simp [teConsumeRun, ih]
@[simp] theorem teConsumeRun_w (xs : List Byte) (p : Nat) (a c : Option Byte) (s : State) :
    (teConsumeRun p a c xs s).w = s.w + xs.length := by
  induction xs generalizing p a c s with
  | nil => rfl
  | cons x xs ih => simp [teConsumeRun, ih]; omega

@[simp] theorem consumeFromJ_build (l : Nat) (s : State) : (consumeFromJ l s).build = s.build := by simp [consumeFromJ]
@[simp] theorem consumeFromJ_rst (l : Nat) (s : State) : (consumeFromJ l s).rst = s.rst := by simp [consumeFromJ]
@[simp] theorem consumeFromJ_accepted (l : Nat) (s : State) : (consumeFromJ l s).accepted = s.accepted := by simp [consumeFromJ]
@[simp] theorem consumeFromJ_cmdQ (l : Nat) (s : State) : (consumeFromJ l s).cmdQ = s.cmdQ := by simp [consumeFromJ]
@[simp] theorem consumeFromJ_inQ (l : Nat) (s : State) : (consumeFromJ l s).inQ = s.inQ := by simp [consumeFromJ]
@[simp] theorem consumeFromJ_obRaddr (l : Nat) (s : State) : (consumeFromJ l s).obRaddr = s.obRaddr := by simp [consumeFromJ]
@[simp] theorem consumeFromJ_rspValid (l : Nat) (s : State) : (consumeFromJ l s).rspValid = s.rspValid := by simp [consumeFromJ]
@[simp] theorem consumeFromJ_sess (l : Nat) (s : State) : (consumeFromJ l s).sess = s.sess := by simp [consumeFromJ]
@[simp] theorem consumeFromJ_variant (l : Nat) (s : State) : (consumeFromJ l s).variant = s.variant := by simp [consumeFromJ]
@[simp] theorem consumeFromJ_firstPkt (l : Nat) (s : State) : (consumeFromJ l s).firstPkt = s.firstPkt := by simp [consumeFromJ]
@[simp] theorem consumeFromJ_flagsHold (l : Nat) (s : State) : (consumeFromJ l s).flagsHold = s.flagsHold := by simp [consumeFromJ]
@[simp] theorem consumeFromJ_rsp (l : Nat) (s : State) : (consumeFromJ l s).rsp = s.rsp := by simp [consumeFromJ]
@[simp] theorem consumeFromJ_obMem (l : Nat) (s : State) : (consumeFromJ l s).obMem = s.obMem := by simp [consumeFromJ]
@[simp] theorem consumeFromJ_obIdx (l : Nat) (s : State) : (consumeFromJ l s).obIdx = s.obIdx := by simp [consumeFromJ]
@[simp] theorem consumeFromJ_obBits (l : Nat) (s : State) : (consumeFromJ l s).obBits = s.obBits := by simp [consumeFromJ]
@[simp] theorem consumeFromJ_teState (l : Nat) (s : State) : (consumeFromJ l s).teState = s.teState := by simp [consumeFromJ]
@[simp] theorem consumeFromJ_j (l : Nat) (s : State) : (consumeFromJ l s).j = s.j := by simp [consumeFromJ]
@[simp] theorem consumeFromJ_n (l : Nat) (s : State) : (consumeFromJ l s).n = s.n := by simp [consumeFromJ]
@[simp] theorem consumeFromJ_b (l : Nat) (s : State) : (consumeFromJ l s).b = s.b := by simp [consumeFromJ]
@[simp] theorem consumeFromJ_mC (l : Nat) (s : State) : (consumeFromJ l s).mC = s.mC := by simp [consumeFromJ]
@[simp] theorem consumeFromJ_mD (l : Nat) (s : State) : (consumeFromJ l s).mD = s.mD := by simp [consumeFromJ]
@[simp] theorem consumeFromJ_mLen (l : Nat) (s : State) : (consumeFromJ l s).mLen = s.mLen := by simp [consumeFromJ]
@[simp] theorem consumeFromJ_chunk (l : Nat) (s : State) : (consumeFromJ l s).chunk = s.chunk := by simp [consumeFromJ]
@[simp] theorem consumeFromJ_doFlush (l : Nat) (s : State) : (consumeFromJ l s).doFlush = s.doFlush := by simp [consumeFromJ]
@[simp] theorem consumeFromJ_offSent (l : Nat) (s : State) : (consumeFromJ l s).offSent = s.offSent := by simp [consumeFromJ]
@[simp] theorem consumeFromJ_spanLen (l : Nat) (s : State) : (consumeFromJ l s).spanLen = s.spanLen := by simp [consumeFromJ]
@[simp] theorem consumeFromJ_freeCtr (l : Nat) (s : State) : (consumeFromJ l s).freeCtr = s.freeCtr := by simp [consumeFromJ]

/-! ### `BA.FINISH`, TE.FINALIZE and the acceptance of a chunk -/

@[simp] theorem baFinish_build (s : State) : (baFinish s).build = s.build := by unfold baFinish; split <;> rfl
@[simp] theorem baFinish_rst (s : State) : (baFinish s).rst = s.rst := by unfold baFinish; split <;> rfl
@[simp] theorem baFinish_accepted (s : State) : (baFinish s).accepted = s.accepted := by unfold baFinish; split <;> rfl
@[simp] theorem baFinish_cmdQ (s : State) : (baFinish s).cmdQ = s.cmdQ := by unfold baFinish; split <;> rfl
@[simp] theorem baFinish_inQ (s : State) : (baFinish s).inQ = s.inQ := by unfold baFinish; split <;> rfl
@[simp] theorem baFinish_obRaddr (s : State) : (baFinish s).obRaddr = s.obRaddr := by unfold baFinish; split <;> rfl
@[simp] theorem baFinish_rspValid (s : State) : (baFinish s).rspValid = s.rspValid := by unfold baFinish; split <;> rfl
@[simp] theorem baFinish_sess (s : State) : (baFinish s).sess = s.sess := by unfold baFinish; split <;> rfl
@[simp] theorem baFinish_variant (s : State) : (baFinish s).variant = s.variant := by unfold baFinish; split <;> rfl
@[simp] theorem baFinish_firstPkt (s : State) : (baFinish s).firstPkt = s.firstPkt := by unfold baFinish; split <;> rfl
@[simp] theorem baFinish_flagsHold (s : State) : (baFinish s).flagsHold = s.flagsHold := by unfold baFinish; split <;> rfl
@[simp] theorem baFinish_rsp (s : State) : (baFinish s).rsp = s.rsp := by unfold baFinish; split <;> rfl
@[simp] theorem baFinish_hbMem (s : State) : (baFinish s).hbMem = s.hbMem := by unfold baFinish; split <;> rfl
@[simp] theorem baFinish_w (s : State) : (baFinish s).w = s.w := by unfold baFinish; split <;> rfl
@[simp] theorem baFinish_ht (s : State) : (baFinish s).ht = s.ht := by unfold baFinish; split <;> rfl
@[simp] theorem baFinish_obMem (s : State) : (baFinish s).obMem = s.obMem := by unfold baFinish; split <;> rfl
@[simp] theorem baFinish_teState (s : State) : (baFinish s).teState = s.teState := by unfold baFinish; split <;> rfl
@[simp] theorem baFinish_j (s : State) : (baFinish s).j = s.j := by unfold baFinish; split <;> rfl
@[simp] theorem baFinish_n (s : State) : (baFinish s).n = s.n := by unfold baFinish; split <;> rfl
@[simp] theorem baFinish_b (s : State) : (baFinish s).b = s.b := by unfold baFinish; split <;> rfl
@[simp] theorem baFinish_mC (s : State) : (baFinish s).mC = s.mC := by unfold baFinish; split <;> rfl
@[simp] theorem baFinish_mD (s : State) : (baFinish s).mD = s.mD := by unfold baFinish; split <;> rfl
@[simp] theorem baFinish_mLen (s : State) : (baFinish s).mLen = s.mLen := by unfold baFinish; split <;> rfl
@[simp] theorem baFinish_chunk (s : State) : (baFinish s).chunk = s.chunk := by unfold baFinish; split <;> rfl
@[simp] theorem baFinish_doFlush (s : State) : (baFinish s).doFlush = s.doFlush := by unfold baFinish; split <;> rfl
@[simp] theorem baFinish_offSent (s : State) : (baFinish s).offSent = s.offSent := by unfold baFinish; split <;> rfl
@[simp] theorem baFinish_spanLen (s : State) : (baFinish s).spanLen = s.spanLen := by unfold baFinish; split <;> rfl
@[simp] theorem baFinish_freeCtr (s : State) : (baFinish s).freeCtr = s.freeCtr := by unfold baFinish; split <;> rfl

@[simp] theorem teFinalize_build (s : State) : (teFinalize s).build = s.build := by simp [teFinalize]
@[simp] theorem teFinalize_rst (s : State) : (teFinalize s).rst = s.rst := by simp [teFinalize]
@[simp] theorem teFinalize_accepted (s : State) : (teFinalize s).accepted = s.accepted := by simp [teFinalize]
@[simp] theorem teFinalize_cmdQ (s : State) : (teFinalize s).cmdQ = s.cmdQ := by simp [teFinalize]
@[simp] theorem teFinalize_inQ (s : State) : (teFinalize s).inQ = s.inQ := by simp [teFinalize]
@[simp] theorem teFinalize_obRaddr (s : State) : (teFinalize s).obRaddr = s.obRaddr := by simp [teFinalize]
@[simp] theorem teFinalize_rspValid (s : State) : (teFinalize s).rspValid = s.rspValid := by simp [teFinalize]
@[simp] theorem teFinalize_sess (s : State) : (teFinalize s).sess = s.sess := by simp [teFinalize]
@[simp] theorem teFinalize_variant (s : State) : (teFinalize s).variant = s.variant := by simp [teFinalize]
@[simp] theorem teFinalize_firstPkt (s : State) : (teFinalize s).firstPkt = s.firstPkt := by simp [teFinalize]
@[simp] theorem teFinalize_flagsHold (s : State) : (teFinalize s).flagsHold = s.flagsHold := by simp [teFinalize]
@[simp] theorem teFinalize_rsp (s : State) : (teFinalize s).rsp = s.rsp := by simp [teFinalize]
@[simp] theorem teFinalize_hbMem (s : State) : (teFinalize s).hbMem = s.hbMem := by simp [teFinalize]
@[simp] theorem teFinalize_w (s : State) : (teFinalize s).w = s.w := by simp [teFinalize]
@[simp] theorem teFinalize_ht (s : State) : (teFinalize s).ht = s.ht := by simp [teFinalize]
@[simp] theorem teFinalize_obMem (s : State) : (teFinalize s).obMem = s.obMem := by simp [teFinalize]
@[simp] theorem teFinalize_obIdx (s : State) : (teFinalize s).obIdx = (baFinish s).obIdx := rfl
@[simp] theorem teFinalize_obBits (s : State) : (teFinalize s).obBits = (baFinish s).obBits := rfl
@[simp] theorem teFinalize_teState (s : State) : (teFinalize s).teState = .done := rfl
@[simp] theorem teFinalize_j (s : State) : (teFinalize s).j = s.j := by simp [teFinalize]
@[simp] theorem teFinalize_n (s : State) : (teFinalize s).n = s.n := by simp [teFinalize]
@[simp] theorem teFinalize_b (s : State) : (teFinalize s).b = s.b := by simp [teFinalize]
@[simp] theorem teFinalize_mC (s : State) : (teFinalize s).mC = s.mC := by simp [teFinalize]
@[simp] theorem teFinalize_mD (s : State) : (teFinalize s).mD = s.mD := by simp [teFinalize]
@[simp] theorem teFinalize_mLen (s : State) : (teFinalize s).mLen = s.mLen := by simp [teFinalize]
@[simp] theorem teFinalize_chunk (s : State) : (teFinalize s).chunk = s.chunk := by simp [teFinalize]
@[simp] theorem teFinalize_doFlush (s : State) : (teFinalize s).doFlush = s.doFlush := by simp [teFinalize]
@[simp] theorem teFinalize_offSent (s : State) : (teFinalize s).offSent = s.offSent := by simp [teFinalize]
@[simp] theorem teFinalize_spanLen (s : State) : (teFinalize s).spanLen = s.spanLen := by simp [teFinalize]
@[simp] theorem teFinalize_freeCtr (s : State) : (teFinalize s).freeCtr = s.freeCtr := by simp [teFinalize]

@[simp] theorem acceptChunk_build (q : Bool) (n : Nat) (s : State) : (acceptChunk q n s).build = s.build := by
  unfold acceptChunk; split <;> simp
@[simp] theorem acceptChunk_rst (q : Bool) (n : Nat) (s : State) : (acceptChunk q n s).rst = s.rst := by
  unfold acceptChunk; split <;> simp
@[simp] theorem acceptChunk_accepted (q : Bool) (n : Nat) (s : State) : (acceptChunk q n s).accepted = s.accepted := by
  unfold acceptChunk; split <;> simp
@[simp] theorem acceptChunk_cmdQ (q : Bool) (n : Nat) (s : State) : (acceptChunk q n s).cmdQ = s.cmdQ := by
  unfold acceptChunk; split <;> simp
@[simp] theorem acceptChunk_inQ (q : Bool) (n : Nat) (s : State) : (acceptChunk q n s).inQ = s.inQ := by
  unfold acceptChunk; split <;> simp
@[simp] theorem acceptChunk_obRaddr (q : Bool) (n : Nat) (s : State) : (acceptChunk q n s).obRaddr = s.obRaddr := by
  unfold acceptChunk; split <;> simp
@[simp] theorem acceptChunk_rspValid (q : Bool) (n : Nat) (s : State) : (acceptChunk q n s).rspValid = false := by
  unfold acceptChunk; split <;> simp
@[simp] theorem acceptChunk_sess (q : Bool) (n : Nat) (s : State) : (acceptChunk q n s).sess = s.sess := by
  unfold acceptChunk; split <;> simp
@[simp] theorem acceptChunk_variant (q : Bool) (n : Nat) (s : State) : (acceptChunk q n s).variant = s.variant := by
  unfold acceptChunk; split <;> simp
@[simp] theorem acceptChunk_firstPkt (q : Bool) (n : Nat) (s : State) : (acceptChunk q n s).firstPkt = s.firstPkt := by
  unfold acceptChunk; split <;> simp
@[simp] theorem acceptChunk_flagsHold (q : Bool) (n : Nat) (s : State) : (acceptChunk q n s).flagsHold = s.flagsHold := by
  unfold acceptChunk; split <;> simp
@[simp] theorem acceptChunk_rsp (q : Bool) (n : Nat) (s : State) : (acceptChunk q n s).rsp = s.rsp := by
  unfold acceptChunk; split <;> simp
@[simp] theorem acceptChunk_hbMem (q : Bool) (n : Nat) (s : State) : (acceptChunk q n s).hbMem = s.hbMem := by
  unfold acceptChunk; split <;> simp
@[simp] theorem acceptChunk_obMem (q : Bool) (n : Nat) (s : State) : (acceptChunk q n s).obMem = s.obMem := by
  unfold acceptChunk; split <;> simp
@[simp] theorem acceptChunk_obIdx (q : Bool) (n : Nat) (s : State) : (acceptChunk q n s).obIdx = 0 := by
  unfold acceptChunk; split <;> simp
@[simp] theorem acceptChunk_obBits (q : Bool) (n : Nat) (s : State) : (acceptChunk q n s).obBits = 0 := by
  unfold acceptChunk; split <;> simp
@[simp] theorem acceptChunk_teState (q : Bool) (n : Nat) (s : State) : (acceptChunk q n s).teState = .scan := by
  unfold acceptChunk; split <;> simp
@[simp] theorem acceptChunk_j (q : Bool) (n : Nat) (s : State) : (acceptChunk q n s).j = 0 := by
  unfold acceptChunk; split <;> simp
@[simp] theorem acceptChunk_n (q : Bool) (n : Nat) (s : State) : (acceptChunk q n s).n = n := by
  unfold acceptChunk; split <;> simp
@[simp] theorem acceptChunk_mC (q : Bool) (n : Nat) (s : State) : (acceptChunk q n s).mC = s.mC := by
  unfold acceptChunk; split <;> simp
@[simp] theorem acceptChunk_mD (q : Bool) (n : Nat) (s : State) : (acceptChunk q n s).mD = s.mD := by
  unfold acceptChunk; split <;> simp
@[simp] theorem acceptChunk_mLen (q : Bool) (n : Nat) (s : State) : (acceptChunk q n s).mLen = s.mLen := by
  unfold acceptChunk; split <;> simp
@[simp] theorem acceptChunk_chunk (q : Bool) (n : Nat) (s : State) : (acceptChunk q n s).chunk = [] := by
  unfold acceptChunk; split <;> simp
@[simp] theorem acceptChunk_doFlush (q : Bool) (n : Nat) (s : State) : (acceptChunk q n s).doFlush = (q || policyFlush s.build s.w n) := by
  unfold acceptChunk; split <;> simp_all
@[simp] theorem acceptChunk_offSent (q : Bool) (n : Nat) (s : State) : (acceptChunk q n s).offSent = false := by
  unfold acceptChunk; split <;> simp
@[simp] theorem acceptChunk_spanLen (q : Bool) (n : Nat) (s : State) : (acceptChunk q n s).spanLen = 0 := by
  unfold acceptChunk; split <;> simp
@[simp] theorem acceptChunk_freeCtr (q : Bool) (n : Nat) (s : State) : (acceptChunk q n s).freeCtr = s.freeCtr := by
  unfold acceptChunk; split <;> simp
theorem acceptChunk_w (q : Bool) (n : Nat) (s : State) :
    (acceptChunk q n s).w = if q || policyFlush s.build s.w n then 0 else s.w := by
  unfold acceptChunk; split <;> simp_all
theorem acceptChunk_b (q : Bool) (n : Nat) (s : State) : (acceptChunk q n s).b = (acceptChunk q n s).w := by
  unfold acceptChunk; split <;> simp
theorem acceptChunk_ht (q : Bool) (n : Nat) (s : State) :
    (acceptChunk q n s).ht = if q || policyFlush s.build s.w n then (resetDict s).ht else s.ht := by
  unfold acceptChunk; split <;> simp_all

end Sys2Proof.Machine
end

