-- ==== Sys2Proof/Laws/Dictionary.lean ====
section
/-! SUPPORT. What the History Buffer, the Match Finder table and TE.CONSUME do (40_history_buffer, 41_match_finder, 43 R196): one
lemma for each operation, and the run of consumes of a token taken apart position by position. -/

namespace Sys2Proof.Safety

open Sys2Proof.Machine

/-! ### Addresses -/

theorem phys_lt (v : Variant) (o : Nat) : phys v o < Config.cap v := by
  cases v <;> simp [phys, Config.cap] <;> omega

theorem cap_le (v : Variant) : Config.cap v ≤ 65536 := by cases v <;> decide

/-! ### Legal parameters (00_scope R7) -/

theorem table_legal (p : Config.Build) (v : Variant) : (Config.table p v).legal v = true := by
  have h := p.checked
  simp only [Config.Params.legal, Bool.and_eq_true] at h
  cases v
  · exact h.1.2
  · exact h.2

/-- R7's constraints on the constants of a table. -/
theorem table_bounds (p : Config.Build) (v : Variant) :
    1 ≤ Config.minLen p v ∧ Config.minLen p v ≤ 3 ∧ Config.minLen p v ≤ Config.maxLen p v ∧
      Config.maxOff p v < Config.cap v := by
  have h := table_legal p v
  simp only [Config.TableParams.legal, Bool.and_eq_true, decide_eq_true_eq] at h
  exact ⟨h.1.1.1, h.1.1.2, h.1.2, h.2⟩

theorem maxOff_lt_cap (p : Config.Build) (v : Variant) : Config.maxOff p v < Config.cap v := (table_bounds p v).2.2.2

/-- R7's constraints on an instance that has memory for a variant: `OB_CAP ≥ CAP` and `2^LOFFW > 2·CAP`. -/
theorem build_bounds {p : Config.Build} {v : Variant} (h : Config.cap v ≤ p.maxCap) :
    Config.cap v ≤ Config.obCap p v ∧ 2 * Config.cap v < Config.offLimit p := by
  have hc := p.checked
  simp only [Config.Params.legal, Bool.and_eq_true, Bool.or_eq_true, decide_eq_true_eq] at hc
  obtain ⟨⟨⟨h1, h2⟩, -⟩, -⟩ := hc
  cases v
  · rcases h1 with h1 | h1
    · exact absurd h1 (by simpa [Config.cap] using h)
    · exact h1
  · rcases h2 with h2 | h2
    · exact absurd h2 (by simpa [Config.cap] using h)
    · exact h2

theorem hash3_lt (p : Config.Build) (b0 b1 b2 : Byte) : hash3 p b0 b1 b2 < Config.htSize p :=
  Nat.mod_lt _ (Nat.two_pow_pos _)

/-- Inside a window of CAP offsets all physical indices are distinct (40 R141). -/
theorem phys_inj {v : Variant} {o p : Nat} (h : phys v o = phys v p) (h1 : o < p + Config.cap v)
    (h2 : p < o + Config.cap v) : o = p := by
  cases v <;> simp only [phys, Config.cap] at * <;> omega

/-! ### Reading after the updates -/

theorem histByte_hbAppend (x : Byte) (s : State) (o : Nat) :
    histByte (hbAppend x s) o = if phys s.variant o = phys s.variant s.w then some x else histByte s o := by
  simp [histByte, readCell_writeCell]

theorem mfLookup_congr {s t : State} (h : t.ht = s.ht) (k : Nat) : mfLookup k t = mfLookup k s := by
  simp [mfLookup, h]

theorem mfLookup_mfRecord (h o k : Nat) (s : State) :
    mfLookup k (mfRecord h o s) = if k = h then .ok (some o) else mfLookup k s := by
  by_cases hk : k = h
  · subst hk; simp [mfLookup]
  · simp only [mfLookup, mfRecord_ht, readCell_writeCell_other hk, if_neg hk]
    rfl

theorem mfLookup_mfClear (k : Nat) (s : State) : mfLookup k (mfClear s) = .ok none := by
  simp only [mfLookup, mfClear_ht, readCell_map fun e : HtEntry => { e with valid := false }]
  cases readCell k s.ht.entries <;> simp

theorem mfLookup_resetDict (k : Nat) (s : State) : mfLookup k (resetDict s) = .ok none :=
  mfLookup_mfClear k (hbReset s)

/-- What a lookup means in terms of the entries. -/
theorem mfLookup_some {k c : Nat} {s : State} (h : mfLookup k s = .ok (some c)) :
    ∃ e, readCell k s.ht.entries = some e ∧ e.valid = true ∧ e.off = c := by
  simp only [mfLookup] at h
  split at h
  · rename_i e he
    by_cases hv : e.valid = true
    · simp [hv] at h; exact ⟨e, he, hv, h⟩
    · simp [hv] at h
  · split at h <;> simp at h

theorem mfLookup_defined {s : State} (h : s.ht.defined = true) (k : Nat) : ∃ r, mfLookup k s = .ok r := by
  simp only [mfLookup]
  split
  · exact ⟨_, rfl⟩
  · simp [h]

/-- HB.READ of an offset in the window (40 R143). -/
theorem hbRead_inWindow {s : State} {o : Nat} (h : InWindow s o) {x : Byte} (hx : histByte s o = some x) :
    hbRead o s = .ok x := by
  unfold InWindow at h
  unfold histByte at hx
  simp [hbRead, h, hx]

theorem hbRead_outside {s : State} {o : Nat} (h : ¬ InWindow s o) : hbRead o s = .error .outsideWindow := by
  unfold InWindow at h
  simp only [hbRead, h, if_false]

/-! ### TE.CONSUME -/

/-- A lookup after TE.CONSUME (43 R196, 41 R159). -/
theorem mfLookup_teConsume (p : Nat) (a c : Option Byte) (x : Byte) (s : State) (k : Nat) :
    mfLookup k (teConsume p a c x s) =
      match a, c with
      | some a, some c => if k = hash3 s.build a c x then .ok (some (s.b + p - 2)) else mfLookup k s
      | _, _ => mfLookup k s := by
  cases a <;> cases c <;> simp only [teConsume, mfLookup_mfRecord, mfLookup_congr (hbAppend_ht x s)]

/-- The consumes of `l` positions of the chunk of `s` from `p` on, performed on `u`. -/
def consumeSpan (s : State) (p l : Nat) (u : State) : State :=
  teConsumeRun p (byteBefore s p 2) (byteBefore s p 1) ((s.chunk.drop p).take l) u

theorem consumeFromJ_eq (l : Nat) (s : State) : consumeFromJ l s = consumeSpan s s.j l s := rfl

@[simp] theorem consumeSpan_zero (s : State) (p : Nat) (u : State) : consumeSpan s p 0 u = u := by
  simp [consumeSpan, teConsumeRun]

theorem byteBefore_succ_two (s : State) (p : Nat) : byteBefore s (p + 1) 2 = byteBefore s p 1 := by
  unfold byteBefore
  by_cases h : 1 ≤ p
  · simp [h]
  · simp [h]

theorem byteBefore_succ_one (s : State) (p : Nat) : byteBefore s (p + 1) 1 = s.chunk[p]? := by
  simp [byteBefore]

theorem consumeSpan_succ_first {s : State} {p l : Nat} {x : Byte} (u : State) (h : s.chunk[p]? = some x) :
    consumeSpan s p (l + 1) u =
      consumeSpan s (p + 1) l (teConsume p (byteBefore s p 2) (byteBefore s p 1) x u) := by
  unfold consumeSpan
  obtain ⟨hp, hx⟩ := List.getElem?_eq_some_iff.1 h
  rw [List.drop_eq_getElem_cons hp, hx, List.take_succ_cons, teConsumeRun, byteBefore_succ_two, byteBefore_succ_one, h]

/-- The last of the consumes: each position is consumed exactly once, in increasing order. -/
theorem consumeSpan_succ_last {s : State} {p l : Nat} {x : Byte} (u : State) (h : s.chunk[p + l]? = some x) :
    consumeSpan s p (l + 1) u =
      teConsume (p + l) (byteBefore s (p + l) 2) (byteBefore s (p + l) 1) x (consumeSpan s p l u) := by
  induction l generalizing p u with
  | zero => rw [consumeSpan_succ_first u (by simpa using h)]; simp
  | succ l ih =>
    have hp : p < s.chunk.length := by
      have := (List.getElem?_eq_some_iff.1 h).1; omega
    have hp' : s.chunk[p]? = some s.chunk[p] := List.getElem?_eq_getElem hp
    rw [consumeSpan_succ_first u hp', consumeSpan_succ_first u hp']
    rw [ih (p := p + 1) _ (by rw [← h]; congr 1; omega)]
    congr 1 <;> first | omega | (congr 1; omega)

/-- What the consumes leave alone: every field but HB, W and HT. -/
theorem consumeSpan_frame (s : State) (p l : Nat) (u : State) :
    consumeSpan s p l u =
      { u with
        hbMem := (consumeSpan s p l u).hbMem
        w := (consumeSpan s p l u).w
        ht := (consumeSpan s p l u).ht } := by
  unfold consumeSpan
  generalize (s.chunk.drop p).take l = xs
  generalize byteBefore s p 2 = a
  generalize byteBefore s p 1 = c
  induction xs generalizing p a c u with
  | nil => rfl
  | cons x xs ih =>
    simp only [teConsumeRun]
    rw [ih]
    unfold teConsume
    split <;> rfl

theorem consumeSpan_w {s : State} {p l : Nat} (u : State) (h : p + l ≤ s.chunk.length) :
    (consumeSpan s p l u).w = u.w + l := by
  simp [consumeSpan]; omega

theorem consumeSpan_variant (s : State) (p l : Nat) (u : State) : (consumeSpan s p l u).variant = u.variant := by
  rw [consumeSpan_frame]

theorem consumeSpan_build (s : State) (p l : Nat) (u : State) : (consumeSpan s p l u).build = u.build := by
  rw [consumeSpan_frame]

theorem consumeSpan_b (s : State) (p l : Nat) (u : State) : (consumeSpan s p l u).b = u.b := by
  rw [consumeSpan_frame]

theorem chunk_get {s : State} {p l : Nat} (h : p + (l + 1) ≤ s.chunk.length) :
    ∃ x, s.chunk[p + l]? = some x := ⟨s.chunk[p + l]'(by omega), List.getElem?_eq_getElem (by omega)⟩

/-- The bytes consumed stand in HB at the offsets from `W` on (40 R142). -/
theorem consumeSpan_hbMem {s : State} {p l : Nat} (u : State) (h : p + l ≤ s.chunk.length)
    (hl : l ≤ Config.cap u.variant) :
    (∀ k, k < l → readCell (phys u.variant (u.w + k)) (consumeSpan s p l u).hbMem = s.chunk[p + k]?) ∧
      (∀ a, (∀ k, k < l → a ≠ phys u.variant (u.w + k)) →
        readCell a (consumeSpan s p l u).hbMem = readCell a u.hbMem) := by
  induction l with
  | zero => simp
  | succ l ih =>
    obtain ⟨x, hx⟩ := chunk_get h
    obtain ⟨h1, h2⟩ := ih (by omega) (by omega)
    rw [consumeSpan_succ_last u hx]
    simp only [teConsume_hbMem, consumeSpan_variant, consumeSpan_w u (show p + l ≤ s.chunk.length by omega)]
    refine ⟨fun k hk => ?_, fun a ha => ?_⟩
    · rw [readCell_writeCell]
      split
      · rename_i heq
        have := phys_inj heq (by omega) (by omega)
        have hkl : k = l := by omega
        rw [hkl, hx]
      · rename_i hne
        refine h1 k (by
          rcases Nat.lt_succ_iff_lt_or_eq.1 hk with h | h
          · exact h
          · subst h; exact absurd rfl hne)
    · rw [readCell_writeCell, if_neg (ha l (by omega))]
      exact h2 a fun k hk => ha k (by omega)

/-- The canonical forms are kept by the consumes. -/
theorem consumeSpan_rising {s : State} {p l : Nat} (u : State) (h : p + l ≤ s.chunk.length)
    (h1 : rising u.hbMem = true) (h2 : rising u.ht.entries = true) :
    rising (consumeSpan s p l u).hbMem = true ∧ rising (consumeSpan s p l u).ht.entries = true := by
  induction l with
  | zero => simp [h1, h2]
  | succ l ih =>
    obtain ⟨x, hx⟩ := chunk_get h
    obtain ⟨k1, k2⟩ := ih (by omega)
    rw [consumeSpan_succ_last u hx]
    refine ⟨by rw [teConsume_hbMem]; exact rising_writeCell _ _ _ k1, ?_⟩
    unfold teConsume
    split
    · exact rising_writeCell _ _ _ k2
    · exact k2

/-- The consumes keep the table defined and its indices in range (41 R159, R160). -/
theorem consumeSpan_table {s : State} {p l : Nat} (u : State) (h : p + l ≤ s.chunk.length) :
    (consumeSpan s p l u).ht.defined = u.ht.defined ∧
      ((∀ k, (readCell k u.ht.entries).isSome → k < Config.htSize u.build) →
        ∀ k, (readCell k (consumeSpan s p l u).ht.entries).isSome → k < Config.htSize u.build) := by
  induction l with
  | zero => simp
  | succ l ih =>
    obtain ⟨x, hx⟩ := chunk_get h
    obtain ⟨k1, k2⟩ := ih (by omega)
    rw [consumeSpan_succ_last u hx]
    unfold teConsume
    split
    · rename_i a c _ _
      refine ⟨by simpa using k1, fun hk k hs => ?_⟩
      simp only [mfRecord_ht, hbAppend_ht, readCell_writeCell] at hs
      split at hs
      · rename_i he
        rw [he]
        have := hash3_lt (consumeSpan s p l u).build a c x
        rwa [consumeSpan_build] at this ⊢
      · exact k2 hk k hs
    · exact ⟨by simpa using k1, fun hk k hs => k2 hk k (by simpa using hs)⟩

/-- What a lookup answers where a valid entry is listed. -/
theorem mfLookup_of_entry {k : Nat} {e : HtEntry} {s : State} (h : readCell k s.ht.entries = some e) (hv : e.valid = true) :
    mfLookup k s = .ok (some e.off) := by
  simp [mfLookup, h, hv]

end Sys2Proof.Safety
end

