-- ==== Sys2Proof/Laws/PerInstr.lean ====
section
/-! SUPPORT. The per-instruction families of LAWS.json. -/

namespace Sys2Proof.Laws.EmitCodes

open Sys2Proof.Machine

/-- Every code that a token format emits is below `2 ^ width` (30_encoding R101 (a), 42 R182): no bit of an emit is cut off. -/
def Statement (i : Instr) : Prop := ∀ e ∈ emits i, e.code < 2 ^ e.width

theorem create (c : BitVec 2) : Statement (.create c) := by simp [Statement, emits]

theorem compress (f : Bool) (len : BitVec 17) : Statement (.compress f len) := by simp [Statement, emits]

theorem destroy : Statement .destroy := by simp [Statement, emits]

theorem lit7 (b : BitVec 7) : Statement (.lit7 b) := by
  have := b.isLt
  simp [Statement, emits]
  omega

theorem lit8 (b : BitVec 7) : Statement (.lit8 b) := by
  have := b.isLt
  simp [Statement, emits]
  omega

theorem off8kA (d : BitVec 6) : Statement (.off8kA d) := by
  have := d.isLt
  simp [Statement, emits]
  omega

theorem off8kB (d : BitVec 8) : Statement (.off8kB d) := by
  have := d.isLt
  simp [Statement, emits]
  omega

theorem off8kC (d : BitVec 13) : Statement (.off8kC d) := by
  have := d.isLt
  simp [Statement, emits]
  omega

theorem off64kA (d : BitVec 6) : Statement (.off64kA d) := by
  have := d.isLt
  simp [Statement, emits]
  omega

theorem off64kB (d : BitVec 8) : Statement (.off64kB d) := by
  have := d.isLt
  simp [Statement, emits]
  omega

theorem off64kC (d : BitVec 11) : Statement (.off64kC d) := by
  have := d.isLt
  simp [Statement, emits]
  omega

theorem off64kD (d : BitVec 16) : Statement (.off64kD d) := by
  have := d.isLt
  simp [Statement, emits]
  omega

theorem len3 : Statement .len3 := by simp [Statement, emits]

theorem len4 (v : BitVec 2) : Statement (.len4 v) := by
  have := v.isLt
  simp [Statement, emits]
  omega

theorem len8 (v : BitVec 3) : Statement (.len8 v) := by
  have := v.isLt
  simp [Statement, emits]
  omega

theorem len16 (v : BitVec 4) : Statement (.len16 v) := by
  have := v.isLt
  simp [Statement, emits]
  omega

theorem len32 (v : BitVec 5) : Statement (.len32 v) := by
  have := v.isLt
  simp [Statement, emits]
  omega

theorem len64 (v : BitVec 6) : Statement (.len64 v) := by
  have := v.isLt
  simp [Statement, emits]
  omega

theorem len128 (v : BitVec 7) : Statement (.len128 v) := by
  have := v.isLt
  simp [Statement, emits]
  omega

theorem len256 (v : BitVec 8) : Statement (.len256 v) := by
  have := v.isLt
  simp [Statement, emits]
  omega

theorem len512 (v : BitVec 9) : Statement (.len512 v) := by
  have := v.isLt
  simp [Statement, emits]
  omega

theorem len1024 (v : BitVec 10) : Statement (.len1024 v) := by
  have := v.isLt
  simp [Statement, emits]
  omega

theorem len2048 (v : BitVec 11) : Statement (.len2048 v) := by
  have := v.isLt
  simp [Statement, emits]
  omega

theorem len4096 (v : BitVec 12) : Statement (.len4096 v) := by
  have := v.isLt
  simp [Statement, emits]
  omega

theorem len8192 (v : BitVec 13) : Statement (.len8192 v) := by
  have := v.isLt
  simp [Statement, emits]
  omega

theorem len16384 (v : BitVec 14) : Statement (.len16384 v) := by
  have := v.isLt
  simp [Statement, emits]
  omega

theorem len32768 (v : BitVec 15) : Statement (.len32768 v) := by
  have := v.isLt
  simp [Statement, emits]
  omega

end Sys2Proof.Laws.EmitCodes
end

