-- ==== Sys2Proof/Laws/Tokens.lean ====
section
/-! SUPPORT. What a token does, once for all formats: each constructor's meaning is one of three shared operations, a token's emits
either fit or overflow, and its consumes take effect together. Also what MF.EXTEND and the selector answer. -/

namespace Sys2Proof.Safety

open Sys2Proof.Machine

/-! ### The three shared meanings -/

theorem exec_literal {i : Instr} {x : Byte} (h : literalByte i = some x) (s : State) :
    exec i s = runLiteral x (emits i) s := by
  cases i <;> simp [literalByte] at h <;> subst h <;> rfl

theorem exec_offset {i : Instr} {v : Variant} {d : Nat} (h : offsetOf i = some (v, d)) (s : State) :
    exec i s = runOffset v d (emits i) s := by
  cases i <;> simp [offsetOf] at h <;> obtain ⟨rfl, rfl⟩ := h <;> rfl

theorem exec_length {i : Instr} {l : Nat} (h : lengthOf i = some l) (s : State) :
    exec i s = runLength l (emits i) s := by
  cases i <;> simp [lengthOf] at h <;> subst h <;> rfl

/-- A token that is no literal and no offset code is a length code (30_encoding R96). -/
theorem token_kind (i : Instr) (h : i.fits .command = false) :
    (∃ x, literalByte i = some x) ∨ (∃ v d, offsetOf i = some (v, d)) ∨ (∃ l, lengthOf i = some l) := by
  cases i <;> simp [Instr.fits] at h <;> simp [literalByte, offsetOf, lengthOf]

/-! ### The code table -/

theorem literalByte_litToken (x : Byte) : literalByte (litToken x) = some x := by
  revert x; decide +kernel

theorem fits_litToken (x : Byte) (v : Variant) : (litToken x).fits (.token v) = true := by
  unfold litToken; split <;> cases v <;> rfl

/-- Inside the domain the offset table answers a format of the variant that stands for the distance (30_encoding R98, R100). -/
theorem offToken_spec {v : Variant} {d : Nat} (h1 : 1 ≤ d) (h2 : d < Config.cap v) :
    ∃ i, offToken v d = some i ∧ offsetOf i = some (v, d) ∧ i.fits (.token v) = true := by
  cases v <;> simp only [Config.cap] at h2 <;> simp only [offToken]
  · rw [if_neg (by omega)]
    split
    · refine ⟨_, rfl, ?_, rfl⟩; simp [offsetOf]; omega
    · split
      · refine ⟨_, rfl, ?_, rfl⟩; simp [offsetOf]; omega
      · rw [if_pos (by omega)]
        refine ⟨_, rfl, ?_, rfl⟩; simp [offsetOf]; omega
  · rw [if_neg (by omega)]
    split
    · refine ⟨_, rfl, ?_, rfl⟩; simp [offsetOf]; omega
    · split
      · refine ⟨_, rfl, ?_, rfl⟩; simp [offsetOf]; omega
      · split
        · refine ⟨_, rfl, ?_, rfl⟩; simp [offsetOf]; omega
        · rw [if_pos (by omega)]
          refine ⟨_, rfl, ?_, rfl⟩; simp [offsetOf]; omega

/-- Inside the domain the length table answers a format that stands for the length (30_encoding R99, R100). -/
theorem lenToken_spec {v : Variant} {l : Nat} (h1 : 3 ≤ l) (h2 : l ≤ Config.defaultMaxLen v) :
    ∃ i, lenToken v l = some i ∧ lengthOf i = some l ∧ i.fits (.length v) = true := by
  have hm : Config.defaultMaxLen v ≤ 65535 := by cases v <;> decide
  have hv : ∀ k, 8192 ≤ k → k ≤ Config.defaultMaxLen v → v = .v64k := by intro k; cases v <;> simp [Config.defaultMaxLen]; omega
  unfold lenToken
  rw [if_neg (by omega), if_neg (by omega)]
  by_cases c0 : l = 3
  · exact ⟨_, if_pos c0, by simp [lengthOf, c0], by cases v <;> rfl⟩
  rw [if_neg c0]
  by_cases c1 : l < 8
  · exact ⟨_, if_pos c1, by simp [lengthOf]; omega, by cases v <;> rfl⟩
  rw [if_neg c1]
  by_cases c2 : l < 16
  · exact ⟨_, if_pos c2, by simp [lengthOf]; omega, by cases v <;> rfl⟩
  rw [if_neg c2]
  by_cases c3 : l < 32
  · exact ⟨_, if_pos c3, by simp [lengthOf]; omega, by cases v <;> rfl⟩
  rw [if_neg c3]
  by_cases c4 : l < 64
  · exact ⟨_, if_pos c4, by simp [lengthOf]; omega, by cases v <;> rfl⟩
  rw [if_neg c4]
  by_cases c5 : l < 128
  · exact ⟨_, if_pos c5, by simp [lengthOf]; omega, by cases v <;> rfl⟩
  rw [if_neg c5]
  by_cases c6 : l < 256
  · exact ⟨_, if_pos c6, by simp [lengthOf]; omega, by cases v <;> rfl⟩
  rw [if_neg c6]
  by_cases c7 : l < 512
  · exact ⟨_, if_pos c7, by simp [lengthOf]; omega, by cases v <;> rfl⟩
  rw [if_neg c7]
  by_cases c8 : l < 1024
  · exact ⟨_, if_pos c8, by simp [lengthOf]; omega, by cases v <;> rfl⟩
  rw [if_neg c8]
  by_cases c9 : l < 2048
  · exact ⟨_, if_pos c9, by simp [lengthOf]; omega, by cases v <;> rfl⟩
  rw [if_neg c9]
  by_cases c10 : l < 4096
  · exact ⟨_, if_pos c10, by simp [lengthOf]; omega, by cases v <;> rfl⟩
  rw [if_neg c10]
  by_cases c11 : l < 8192
  · exact ⟨_, if_pos c11, by simp [lengthOf]; omega, by cases v <;> rfl⟩
  rw [if_neg c11]
  by_cases c12 : l < 16384
  · exact ⟨_, if_pos c12, by simp [lengthOf]; omega, by rw [hv l (by omega) h2]; rfl⟩
  rw [if_neg c12]
  by_cases c13 : l < 32768
  · exact ⟨_, if_pos c13, by simp [lengthOf]; omega, by rw [hv l (by omega) h2]; rfl⟩
  exact ⟨_, if_neg c13, by simp [lengthOf]; omega, by rw [hv l (by omega) h2]; rfl⟩

/-- A format that the offset table answers stands for the distance. -/
theorem offsetOf_offToken {v : Variant} {d : Nat} {i : Instr} (h : offToken v d = some i) : offsetOf i = some (v, d) := by
  have hd : 1 ≤ d ∧ d < Config.cap v := by
    by_contra hn
    cases v <;> simp only [Config.cap] at hn <;> simp only [offToken] at h <;>
      (repeat' split at h) <;> first | (cases h; done) | omega
  obtain ⟨j, h1, h2, -⟩ := offToken_spec hd.1 hd.2
  rw [h] at h1; cases h1; exact h2

/-- A format that the length table answers stands for the length. -/
theorem lengthOf_lenToken {v : Variant} {l : Nat} {i : Instr} (h : lenToken v l = some i) : lengthOf i = some l := by
  have hl : 3 ≤ l ∧ l ≤ Config.defaultMaxLen v := by
    constructor
    · by_contra hn
      simp only [lenToken, show l < 3 by omega, if_true] at h; cases h
    · by_contra hn
      by_cases h3 : l < 3
      · simp only [lenToken, h3, if_true] at h; cases h
      · simp only [lenToken, h3, if_false, show Config.defaultMaxLen v < l by omega, if_true] at h; cases h
  obtain ⟨j, h1, h2, -⟩ := lenToken_spec hl.1 hl.2
  rw [h] at h1; cases h1; exact h2

/-! ### Emits and consumes -/

/-- Emits that fit: what follows them runs on a state that differs in the Bit Assembler only. -/
theorem afterEmits_fits (es : List Emit) (hne : es ≠ []) {s : State} (h : AssemblerReady s)
    (hfit : streamPos s + (emitsString es).length ≤ 8 * Config.obCap s.build s.variant) :
    ∃ t, OnlyAssembler s t ∧ AssemblerReady t ∧ Appended s t (emitsString es) ∧ baEmits es s = .ok t ∧
      ∀ k, afterEmits es s k = k t := by
  obtain ⟨t, ht, h1, h2, h3⟩ := baEmits_spec es h hfit
  exact ⟨t, h1, h2, h3, ht, fun k => by simp [afterEmits, hne, ht]⟩

/-- Emits that do not fit: the fatal error (42 R181). -/
theorem afterEmits_overflow (es : List Emit) (hne : es ≠ []) {s : State} (h : AssemblerReady s)
    (hfit : 8 * Config.obCap s.build s.variant < streamPos s + (emitsString es).length)
    (hroom : streamPos s ≤ 8 * Config.obCap s.build s.variant) (k : State → Result) :
    afterEmits es s k = .next (raiseOverflow s) := by
  simp [afterEmits, hne, baEmits_overflow es h hfit hroom]

/-- The hash recorded when position `p` is consumed (41 R163): that of the three bytes ending there. -/
theorem hashAt_of_consume {s : State} {q : Nat} {x : Byte} (h : s.chunk[q + 2]? = some x) :
    hashAt s q = match byteBefore s (q + 2) 2, byteBefore s (q + 2) 1 with
      | some a, some c => some (hash3 s.build a c x)
      | _, _ => none := by
  simp only [hashAt, byteBefore, h, show 2 ≤ q + 2 by omega, show 1 ≤ q + 2 by omega, if_true,
    show q + 2 - 2 = q by omega, show q + 2 - 1 = q + 1 by omega]
  cases s.chunk[q]? <;> cases s.chunk[q + 1]? <;> rfl

/-- The table after the consumes of a token (41 R163): the last position of each hash is recorded. -/
theorem consumeSpan_recorded {s : State} {p l : Nat} (u : State) (h : p + l ≤ s.chunk.length) (hb : u.b = s.b) (hp : u.build = s.build) :
    (∀ k q, p ≤ q + 2 → q + 2 < p + l → hashAt s q = some k →
        (∀ r, q < r → r + 2 < p + l → hashAt s r ≠ some k) → mfLookup k (consumeSpan s p l u) = .ok (some (s.b + q))) ∧
      (∀ k, (∀ q, p ≤ q + 2 → q + 2 < p + l → hashAt s q ≠ some k) →
        mfLookup k (consumeSpan s p l u) = mfLookup k u) := by
  induction l with
  | zero => exact ⟨fun k q h1 h2 => by omega, fun k _ => by simp⟩
  | succ l ih =>
    obtain ⟨x, hx⟩ := chunk_get h
    obtain ⟨h1, h2⟩ := ih (by omega)
    rw [consumeSpan_succ_last u hx]
    simp only [mfLookup_teConsume, consumeSpan_b, consumeSpan_build, hb, hp]
    by_cases hp : 2 ≤ p + l
    · obtain ⟨m, hm⟩ : ∃ m, p + l = m + 2 := ⟨p + l - 2, by omega⟩
      have hh := hashAt_of_consume (s := s) (q := m) (x := x) (by rw [← hm]; exact hx)
      rw [hm] at hx ⊢
      have e1 : byteBefore s (m + 2) 2 = s.chunk[m]? := by simp [byteBefore]
      have e2 : byteBefore s (m + 2) 1 = s.chunk[m + 1]? := by simp [byteBefore]
      have hlen : m + 2 < s.chunk.length := (List.getElem?_eq_some_iff.1 hx).1
      obtain ⟨a, ha⟩ : ∃ a, s.chunk[m]? = some a := ⟨_, List.getElem?_eq_getElem (by omega)⟩
      obtain ⟨c, hc⟩ : ∃ c, s.chunk[m + 1]? = some c := ⟨_, List.getElem?_eq_getElem (by omega)⟩
      rw [e1, e2, ha, hc] at hh ⊢
      simp only at hh ⊢
      refine ⟨fun k q hq1 hq2 hk hlast => ?_, fun k hk => ?_⟩
      · by_cases hqm : q = m
        · subst hqm
          rw [hh] at hk
          simp only [Option.some.injEq] at hk
          rw [if_pos hk.symm]
          have e : s.b + (q + 2) - 2 = s.b + q := by omega
          rw [e]
        · rw [if_neg]
          · exact h1 k q hq1 (by omega) hk fun r hr1 hr2 => hlast r hr1 (by omega)
          · intro he
            exact hlast m (by omega) (by omega) (by rw [hh, he])
      · rw [if_neg]
        · exact h2 k fun q hq1 hq2 => hk q hq1 (by omega)
        · intro he
          exact hk m (by omega) (by omega) (by rw [hh, he])
    · have e : byteBefore s (p + l) 2 = none := by simp [byteBefore]; omega
      rw [e]
      exact ⟨fun k q hq1 hq2 => by omega, fun k hk => h2 k fun q hq1 hq2 => by omega⟩

/-- What stands after a token of `l` positions (43 R194, R195). -/
theorem finishToken_eq {l : Nat} {s : State} (h : s.j + l ≤ s.chunk.length) :
    finishToken l s = .next { consumeFromJ l s with j := s.j + l, teState := .scan, offSent := false } := by
  simp [finishToken, h]

/-- What a token of `l` positions does after its emits (43 R194 to R196): `u` is the state after the emits, `s` the one before. -/
theorem finishToken_spec {s u : State} {l : Nat} (hu : OnlyAssembler s u) (hl : s.j + l ≤ s.chunk.length)
    (hcap : l ≤ Config.cap s.variant) :
    ∃ t, finishToken l u = .next t ∧
      t = { s with
        hbMem := t.hbMem, w := s.w + l, ht := t.ht, obMem := u.obMem, obIdx := u.obIdx, obBits := u.obBits
        j := s.j + l, teState := .scan, offSent := false } ∧
      (∀ k, k < l → readCell ((s.w + k) % Config.cap s.variant) t.hbMem = s.chunk[s.j + k]?) ∧
      (∀ a, (∀ k, k < l → a ≠ (s.w + k) % Config.cap s.variant) → readCell a t.hbMem = readCell a s.hbMem) ∧
      Recorded s t s.j (s.j + l) := by
  have e : u.j = s.j ∧ u.chunk = s.chunk ∧ u.w = s.w ∧ u.variant = s.variant ∧ u.b = s.b ∧ u.hbMem = s.hbMem ∧
      u.ht = s.ht ∧ u.build = s.build := by
    rw [hu]; exact ⟨rfl, rfl, rfl, rfl, rfl, rfl, rfl, rfl⟩
  obtain ⟨e1, e2, e3, e4, e5, e6, e7, e8⟩ := e
  have hl' : u.j + l ≤ u.chunk.length := by rw [e1, e2]; exact hl
  have hb := consumeSpan_hbMem (s := u) u hl' (by rw [e4]; exact hcap)
  have hr := consumeSpan_recorded (s := u) u hl' rfl rfl
  have hw := consumeSpan_w (s := u) u hl'
  have hf := consumeSpan_frame u u.j l u
  have hh : ∀ q, hashAt u q = hashAt s q := fun q => by simp [hashAt, e2, e8]
  rw [finishToken_eq hl', consumeFromJ_eq]
  refine ⟨_, rfl, ?_, fun k hk => ?_, fun a ha => ?_, fun h q h1 h2 h3 h4 => ?_, fun h h1 => ?_⟩
  · simp only; rw [hf]; simp only [hw, e3]; rw [hu]
  · simpa only [phys, e3, e4, e1, e2] using hb.1 k hk
  · simpa only [e6] using hb.2 a (by simpa only [phys, e3, e4] using ha)
  · have := hr.1 h q (by rw [e1]; exact h1) (by rw [e1]; exact h2) (by rw [hh]; exact h3)
      (by intro r; rw [e1, hh]; exact h4 r)
    rw [e5] at this; exact this
  · exact (hr.2 h (by intro q; rw [e1, hh]; exact h1 q)).trans (mfLookup_congr e7 h)

/-! ### MF.EXTEND -/

/-- A run of matching bytes (41 R161): each compared byte equals its source, and where the run ends early the next differs. -/
theorem matchRun_spec {s : State} {o l : Nat} {ys : List Byte} (h : matchRun s o ys = .ok l) :
    l ≤ ys.length ∧ (∀ i, i < l → ∃ x, ys[i]? = some x ∧ srcByte s (o + i) = .ok x) ∧
      (l < ys.length → ∃ x y, ys[l]? = some x ∧ srcByte s (o + l) = .ok y ∧ y ≠ x) := by
  induction ys generalizing o l with
  | nil => simp [matchRun] at h; subst h; simp
  | cons y ys ih =>
    simp only [matchRun] at h
    split at h
    · cases h
    · rename_i z hz
      split at h
      · rename_i hzy
        subst hzy
        split at h
        · rename_i l' hl
          cases h
          obtain ⟨k1, k2, k3⟩ := ih hl
          refine ⟨by simp; omega, fun i hi => ?_, fun hlt => ?_⟩
          · cases i with
            | zero => exact ⟨z, rfl, hz⟩
            | succ i =>
              obtain ⟨x, hx1, hx2⟩ := k2 i (by omega)
              exact ⟨x, by simpa using hx1, by rw [← hx2]; congr 1; omega⟩
          · obtain ⟨x, w, hx1, hx2, hx3⟩ := k3 (by simpa using hlt)
            exact ⟨x, w, by simpa using hx1, by rw [← hx2]; congr 1; omega, hx3⟩
        · cases h
      · rename_i hne
        cases h
        exact ⟨by simp, by simp, fun _ => ⟨y, z, rfl, hz, hne⟩⟩

/-- A run of matching bytes is found where every source byte can be read. -/
theorem matchRun_total {s : State} {o : Nat} {ys : List Byte}
    (h : ∀ i, i < ys.length → ∃ z, srcByte s (o + i) = .ok z) : ∃ l, matchRun s o ys = .ok l := by
  induction ys generalizing o with
  | nil => exact ⟨0, rfl⟩
  | cons y ys ih =>
    obtain ⟨z, hz⟩ := h 0 (by simp)
    simp only [Nat.add_zero] at hz
    obtain ⟨l, hl⟩ := ih (o := o + 1) fun i hi => by
      obtain ⟨z, hz⟩ := h (i + 1) (by simp; omega)
      exact ⟨z, by rw [← hz]; congr 1; omega⟩
    simp only [matchRun, hz, hl]
    split <;> exact ⟨_, rfl⟩

/-- A copy that the selector chose (43 R193): where its candidate came from and what was verified. -/
theorem teSelect_copy {s : State} {c d l : Nat} (h : teSelect s = .ok (.copy c d l)) :
    ∃ b0 b1 b2 rest, 3 ≤ s.n - s.j ∧ s.chunk.drop s.j = b0 :: b1 :: b2 :: rest ∧
      mfLookup (hash3 s.build b0 b1 b2) s = .ok (some c) ∧ c < s.w ∧ s.w - c ≤ Config.maxOff s.build s.variant ∧
      mfExtend c s = .ok l ∧ Config.minLen s.build s.variant ≤ l ∧ d = s.w - c := by
  simp only [teSelect] at h
  split at h
  · cases h
  · split at h
    · rename_i b0 b1 b2 rest hd
      split at h
      · cases h
      · cases h
      · rename_i c' hc
        split at h
        · rename_i hs
          split at h
          · cases h
          · rename_i l' hl
            split at h
            · cases h
              simp [served] at hs
              exact ⟨b0, b1, b2, rest, by omega, hd, hc, hs.1, by omega, hl, by assumption, rfl⟩
            · cases h
        · cases h
    · cases h

/-- The selector decides at every position from which three bytes, or fewer than three, are left (43 R193, R199), where the lookup
and the extension answer. -/
theorem teSelect_total {s : State} (hl : s.chunk.length = s.n) (h1 : ∀ k, ∃ r, mfLookup k s = .ok r)
    (h2 : ∀ c, c < s.w → s.w - c ≤ Config.maxOff s.build s.variant → ∃ l, mfExtend c s = .ok l) : ∃ r, teSelect s = .ok r := by
  simp only [teSelect]
  split
  · exact ⟨_, rfl⟩
  · rename_i h3
    have hd : 3 ≤ (s.chunk.drop s.j).length := by simp; omega
    split
    · rename_i b0 b1 b2 rest _
      obtain ⟨r, hr⟩ := h1 (hash3 s.build b0 b1 b2)
      rw [hr]
      cases r with
      | none => exact ⟨_, rfl⟩
      | some c =>
        simp only
        split
        · rename_i hs
          simp [served] at hs
          obtain ⟨l, hl⟩ := h2 c hs.1 (by omega)
          rw [hl]
          simp only
          split <;> exact ⟨_, rfl⟩
        · exact ⟨_, rfl⟩
    · rename_i hne
      exfalso
      match hx : s.chunk.drop s.j with
      | [] => simp [hx] at hd
      | [_] => simp [hx] at hd
      | [_, _] => simp [hx] at hd
      | b0 :: b1 :: b2 :: rest => exact hne b0 b1 b2 rest hx

/-! ### The widest value field (30_encoding R101 (f)) -/

/-- A table whose widest value field has `w` bits has an offset code of `w` bits at least. -/
theorem WidestOffsetField.long_code {w : Nat} {c : CodeTable} (h : WidestOffsetField w c) :
    ∃ d, CodesOff c d ∧ w ≤ (emitsString (c.off d)).length := by
  obtain ⟨bands, ok, -, b, hb, rfl⟩ := h
  obtain ⟨⟨⟨d, hd⟩, codes⟩, -⟩ := ok b hb
  obtain ⟨coded, -, -, bits⟩ := codes d hd
  exact ⟨d, coded, by rw [bits, List.length_append, length_natBits]; omega⟩

end Sys2Proof.Safety
end

