-- ==== Sys2Proof/Laws/Steps.lean ====
section
/-! SUPPORT. What a step can do, once: every next state of a step is one of the cases of `StepTo`. -/

namespace Sys2Proof.Safety

open Sys2Proof.Machine

/-- The ways a token's emits end: they complete in `u`, or overflow. -/
inductive TokenEnd (es : List Emit) (s : State) (k : State → State) (t : State) : Prop where
  | completes (u : State) (emitted : baEmits es s = .ok u) (next : t = k u)
  | overflows (full : baEmits es s = .error .overflow) (next : t = raiseOverflow s)

/-- The next states of an accepted command word, on the state `s` without it. -/
inductive CommandTo (c : Word) (s t : State) : Prop where
  | fails (e : Status) (error : e ≠ .ok) (next : t = failCmd e s)
  | creates (v : Variant) (absent : s.sess = .absent) (fitsBuild : Config.cap v ≤ s.build.maxCap)
      (next : t = succeed noFlags 0 (openSession v s))
  | compresses (f : Bool) (len : BitVec 17) (ready : s.sess = .ready) (pos : 1 ≤ len.toNat)
      (le : len.toNat ≤ Config.cap s.variant) (next : t = acceptChunk f len.toNat s)
  | destroys (word : c = 0x80000000#32) (next : t = succeed noFlags 0 (dropSession s))

/-- The next states of a step. -/
inductive StepTo (s t : State) : Prop where
  | reset (pin : s.rst = true) (next : t = hardReset s)
  | waits (pin : s.rst = false) (idle : s.teState = .idle) (free : s.accepted = none) (empty : s.cmdQ = [])
      (next : t = s)
  | accepts (pin : s.rst = false) (idle : s.teState = .idle) (free : s.accepted = none) (c : Word) (cs : List Word)
      (queue : s.cmdQ = c :: cs) (next : t = { s with accepted := some c, cmdQ := cs, rspValid := false })
  | command (pin : s.rst = false) (idle : s.teState = .idle) (c : Word) (taken : s.accepted = some c)
      (next : CommandTo c { s with accepted := none } t)
  | takes (pin : s.rst = false) (scan : s.teState = .scan) (short : s.chunk.length < s.n) (next : t = takeInput s)
  | finalizes (pin : s.rst = false) (scan : s.teState = .scan) (full : s.n ≤ s.chunk.length) (atEnd : s.j = s.n)
      (next : t = teFinalize s)
  | literal (pin : s.rst = false) (scan : s.teState = .scan) (full : s.n ≤ s.chunk.length) (inside : s.j ≠ s.n)
      (sel : teSelect s = .ok .literal) (next : t = { s with teState := .emitLiteral })
  | copy (pin : s.rst = false) (scan : s.teState = .scan) (full : s.n ≤ s.chunk.length) (inside : s.j ≠ s.n)
      (c d l : Nat) (sel : teSelect s = .ok (.copy c d l))
      (next : t = { s with mC := c, mD := d, mLen := l, teState := .emitMatch })
  | emitsLiteral (pin : s.rst = false) (lit : s.teState = .emitLiteral) (x : Byte) (byte : s.chunk[s.j]? = some x)
      (ends : TokenEnd ((sessionTable s).lit x) s
        (fun u => { consumeFromJ 1 u with j := s.j + 1, teState := .scan, offSent := false }) t)
  | emitsOffset (pin : s.rst = false) (mat : s.teState = .emitMatch) (first : s.offSent = false)
      (ends : TokenEnd ((sessionTable s).off s.mD) s (fun u => { u with offSent := true }) t)
  | emitsLength (pin : s.rst = false) (mat : s.teState = .emitMatch) (second : s.offSent = true)
      (inside : ∀ u, baEmits ((sessionTable s).len s.mLen) s = .ok u → s.j + s.mLen ≤ s.chunk.length)
      (ends : TokenEnd ((sessionTable s).len s.mLen) s
        (fun u => { consumeFromJ s.mLen u with j := s.j + s.mLen, teState := .scan, offSent := false }) t)
  | passes (pin : s.rst = false) (isDone : s.teState = .done) (larger : s.n ≤ s.obIdx)
      (room : s.n ≤ Config.obCap s.build s.variant)
      (next : t = commitResult true s.n (resetDict { s with obMem := writeRun 0 s.chunk s.obMem }))
  | delivers (pin : s.rst = false) (isDone : s.teState = .done) (smaller : s.obIdx < s.n)
      (next : t = commitResult false s.obIdx s)

theorem baEmits_only {es : List Emit} {s t : State} (h : baEmits es s = .ok t) : OnlyAssembler s t := by
  have bit : ∀ (b : Bool) (s t : State), emitBit b s = .ok t → OnlyAssembler s t := by
    intro b s t h
    simp only [emitBit] at h
    split at h
    · cases h
    · split at h <;> cases h <;> rfl
  have bits : ∀ (bs : List Bool) (s t : State), emitBits bs s = .ok t → OnlyAssembler s t := by
    intro bs
    induction bs with
    | nil => intro s t h; cases h; rfl
    | cons b bs ih =>
      intro s t h
      simp only [emitBits] at h
      split at h
      · exact (bit _ _ _ ‹_›).trans (ih _ _ h)
      · cases h
  induction es generalizing s with
  | nil => cases h; rfl
  | cons e es ih =>
    simp only [baEmits] at h
    split at h
    · rename_i s' he
      refine OnlyAssembler.trans ?_ (ih h)
      simp only [baEmit] at he
      split at he
      · cases he
      · split at he
        · rename_i hb; cases he; exact bits _ _ _ hb
        · cases he
    · cases h

theorem afterEmits_next {es : List Emit} {s t : State} {k : State → Result} (h : afterEmits es s k = .next t) :
    (∃ u, baEmits es s = .ok u ∧ k u = .next t) ∨ (baEmits es s = .error .overflow ∧ t = raiseOverflow s) := by
  simp only [afterEmits] at h
  split at h
  · cases h
  split at h
  · exact .inl ⟨_, ‹_›, h⟩
  · cases h; exact .inr ⟨‹_›, rfl⟩
  · cases h

/-- What the three match/mask pairs answer (30_encoding R92). -/
theorem decodeCommand_ok {c : Word} {i : Instr} (h : decodeCommand c = .ok i) :
    (∃ code, i = .create code) ∨ (∃ f len, i = .compress f len) ∨ (i = .destroy ∧ c = 0x80000000#32) := by
  unfold decodeCommand at h
  split at h
  · cases h; exact .inl ⟨_, rfl⟩
  · split at h
    · cases h; exact .inr (.inl ⟨_, _, rfl⟩)
    · split at h
      · rename_i hd
        cases h
        exact .inr (.inr ⟨rfl, by rw [← hd]; exact (BitVec.and_allOnes (x := c)).symm⟩)
      · cases h

/-- A command in IDLE (44_session_controller). -/
theorem exec_command {c : Word} {i : Instr} {s t : State} (hi : s.teState = .idle) (hd : decodeCommand c = .ok i)
    (h : exec i s = .next t) : CommandTo c s t := by
  rcases decodeCommand_ok hd with ⟨code, rfl⟩ | ⟨f, len, rfl⟩ | ⟨rfl, hc⟩
  · simp only [exec, execCreate, hi, ne_eq, not_true, if_false] at h
    split at h
    · cases h; exact .fails _ (by decide) rfl
    · rename_i ha
      split at h
      · cases h; exact .fails _ (by decide) rfl
      · split at h
        · cases h; exact .fails _ (by decide) rfl
        · cases h; exact .creates _ (by simpa using ha) (by omega) rfl
  · simp only [exec, execCompress, hi, ne_eq, not_true, if_false] at h
    split at h
    · cases h; exact .fails _ (by decide) rfl
    · cases h; exact .fails _ (by decide) rfl
    · split at h
      · cases h; exact .fails _ (by decide) rfl
      · cases h; exact .compresses _ _ ‹_› (by omega) (by omega) rfl
  · simp only [exec, execDestroy, hi, ne_eq, not_true, if_false] at h
    cases h; exact .destroys hc rfl

/-- What a token's fetch comes to: the shared operation, whether or not a row of the opcode table has the codeword. -/
theorem fetchToken_run {es : List Emit} {i : Option Instr} {emit : List Emit → State → Result} {s : State}
    (h : ∀ r, i = some r → emits r = es → exec r s = emit es s) :
    perform (fetchToken es i emit s) = emit es s := by
  cases i with
  | none => rfl
  | some r =>
    by_cases he : emits r = es
    · simpa [perform, fetchToken, rowOf, Option.filter, he] using h r rfl he
    · simp [perform, fetchToken, rowOf, Option.filter, he]

/-- The emits of a token end, and what follows them is the next state. -/
theorem TokenEnd.of_afterEmits {es : List Emit} {s t : State} {k : State → Result} {f : State → State}
    (h : afterEmits es s k = .next t) (hk : ∀ u, baEmits es s = .ok u → k u = .next t → t = f u) : TokenEnd es s f t := by
  rcases afterEmits_next h with ⟨u, hu, h⟩ | ⟨hu, rfl⟩
  · exact .completes u hu (hk u hu h)
  · exact .overflows hu rfl

/-- A token of `l` positions that is finished after its emits. -/
theorem finishToken_next {es : List Emit} {s t u : State} {l : Nat} (hu : baEmits es s = .ok u)
    (h : finishToken l u = .next t) : s.j + l ≤ s.chunk.length ∧
      t = { consumeFromJ l u with j := s.j + l, teState := .scan, offSent := false } := by
  have e : u.j = s.j ∧ u.chunk = s.chunk := by rw [baEmits_only hu]; exact ⟨rfl, rfl⟩
  simp only [finishToken, e.1, e.2] at h
  split at h
  · cases h; exact ⟨‹_›, rfl⟩
  · cases h

/-- Every step that goes on is one of the cases. -/
theorem step_cases {s t : State} (h : step s = .next t) : StepTo s t := by
  simp only [step, fetch] at h
  cases hr : s.rst with
  | true => simp only [hr, if_true, perform] at h; cases h; exact .reset hr rfl
  | false =>
    simp only [hr, Bool.false_eq_true, if_false] at h
    cases ht : s.teState with
    | idle =>
      simp only [ht, fetchIdle] at h
      cases ha : s.accepted with
      | none =>
        cases hq : s.cmdQ with
        | nil => simp only [ha, hq, perform] at h; cases h; exact .waits hr ht ha hq rfl
        | cons c cs => simp only [ha, hq, perform] at h; cases h; exact .accepts hr ht ha c cs hq (by rw [← ht])
      | some c =>
        simp only [ha] at h
        refine .command hr ht c ha ?_
        cases hd : decodeCommand c with
        | ok i => simp only [hd, perform] at h; exact exec_command ht hd (by simpa only [hr, ht] using h)
        | error e =>
          simp only [hd, perform] at h; cases h
          exact .fails .illegalCmd (by decide) (by simp only [failCmd, hr])
    | scan =>
      simp only [ht, perform] at h
      split at h
      · cases h; exact .takes hr ht ‹_› rfl
      · simp only [teScan] at h
        split at h
        · cases h; exact .finalizes hr ht (by omega) ‹_› rfl
        · split at h
          · cases h
          · cases h; exact .literal hr ht (by omega) ‹_› ‹_› rfl
          · cases h; exact .copy hr ht (by omega) ‹_› _ _ _ ‹_› rfl
    | emitLiteral =>
      cases hx : s.chunk[s.j]? with
      | none => simp only [ht, hx, perform] at h; cases h
      | some x =>
        simp only [ht, hx] at h
        rw [fetchToken_run fun r hr' he => by
          rw [← Option.some.inj hr', exec_literal (literalByte_litToken x)]
          rw [← Option.some.inj hr'] at he; simp [runLiteral, ht, hx, he]] at h
        exact .emitsLiteral hr ht x hx (.of_afterEmits h fun u hu hk => (finishToken_next hu hk).2)
    | emitMatch =>
      cases ho : s.offSent with
      | false =>
        simp only [ht, ho, Bool.false_eq_true, if_false] at h
        rw [fetchToken_run fun r hr' he => by
          rw [exec_offset (offsetOf_offToken hr')]; simp [runOffset, ht, ho, he]] at h
        exact .emitsOffset hr ht ho (.of_afterEmits h fun u _ hk => by cases hk; rfl)
      | true =>
        simp only [ht, ho, if_true] at h
        rw [fetchToken_run fun r hr' he => by
          rw [exec_length (lengthOf_lenToken hr')]; simp [runLength, ht, ho, he]] at h
        refine .emitsLength hr ht ho (fun u hu => ?_) (.of_afterEmits h fun u hu hk => (finishToken_next hu hk).2)
        rcases afterEmits_next h with ⟨u', hu', hk⟩ | ⟨hu', -⟩
        · exact (finishToken_next hu' hk).1
        · rw [hu] at hu'; cases hu'
    | done =>
      simp only [ht, perform] at h
      simp only [scCommit] at h
      split at h
      · rename_i hp
        split at h
        · cases h
        · cases h; exact .passes hr ht (by simpa [passthrough] using hp) (by omega) rfl
      · rename_i hp
        cases h; exact .delivers hr ht (by simpa [passthrough] using hp) rfl

/-- A run of one more step, of any machine. -/
theorem core_run_succ {M : Host.Core} {k : Nat} {s s' : M.State} {r : Host.Outcome M.State M.Fault M.Refusal}
    (h : M.step s = .next s') (h2 : M.run k s' = r) : M.run (k + 1) s = r := by
  rw [Host.Core.run.eq_def]; simp only; rw [h]; exact h2

/-- A run of one more step. -/
theorem run_succ {k : Nat} {s s' : State} {r : Result} (h : step s = .next s')
    (h2 : Host.Core.run Sys2Proof.core k s' = r) : Host.Core.run Sys2Proof.core (k + 1) s = r :=
  core_run_succ (M := Sys2Proof.core) h h2

end Sys2Proof.Safety
end

