-- ==== Sys2Proof/Tests/Slice0.lean ====
section
/-! SUPPORT. Tests. Expected values come from the tables of 30_encoding (R91 to R99) and the vectors of 95_test_vectors (V1 to V34,
P1 to P5); where a test is a hand calculation its comment says so. Then, for every statement with hypotheses, a concrete case
that meets them. -/

namespace Sys2Proof.Tests

open Sys2Proof.Machine Sys2Proof.Safety

/-! ### Helpers -/

/-- A bit string written as digits. -/
def bits (ds : List Nat) : List Bool := ds.map fun d => d == 1

/-- `k` one-bits. -/
def ones (k : Nat) : List Nat := List.replicate k 1

/-- `k` zero-bits. -/
def zeros (k : Nat) : List Nat := List.replicate k 0

/-- What `f` sees of a next state; `none` where the machine stops. -/
def after {α : Type} (f : State → α) : Result → Option α
  | .next t => some (f t)
  | .fault _ => none
  | .refused _ => none

/-- The output buffer and its cursor. -/
def output (s : State) : List (BitVec 8) × Nat × Nat := (s.obMem.map Prod.snd, s.obIdx, s.obBits)

/-- A READY session right after CREATE (10_state R50). -/
def opened (v : Variant) : State :=
  { State.reset with
    sess := .ready, variant := v, firstPkt := true, flagsHold := atFrontOnly, ht := { defined := true, entries := [] } }

/-- A build for V8K alone whose copies are those of 3 bytes at distances up to 3, so that its tables are quickly checked. Distance 1,
which no copy has, is coded with a value field of 13 bits (30_encoding R101 (f)). -/
def tiny : Config.Build :=
  { Config.defaultBuild with
    maxCap := 8192
    table8K :=
      { Config.defaultTable .v8k with maxLen := 3, maxOff := 3, off := [(1, [{ code := 0xC001, width := 16 }])] }
    checked := by decide }

/-- `tiny` with the smallest output buffer (00_scope R7: `OB_CAP ≥ CAP`). -/
def tight : Config.Build := { tiny with obCap8K := 8192, checked := by decide }

/-- The start of an encode pass over `xs`, all bytes taken (43 R191). -/
def scanning (xs : List Byte) : State := { opened .v8k with build := tiny, teState := .scan, n := xs.length, chunk := xs }

/-- EMIT_LITERAL at position 0 of the chunk `[x]`. -/
def literalAt (x : Byte) : State := { scanning [x] with teState := .emitLiteral }

/-- EMIT_MATCH before the offset code of distance `d`. -/
def offsetAt (v : Variant) (d : Nat) : State := { opened v with teState := .emitMatch, mD := d, mLen := 3, n := 3, chunk := [0, 0, 0] }

/-- EMIT_MATCH after the offset code, at position 0 of `l` zero bytes. -/
def lengthAt (v : Variant) (l : Nat) : State :=
  { opened v with teState := .emitMatch, offSent := true, mLen := l, n := l, chunk := List.replicate l 0#8 }

/-! ### WellFormed: each check refuses an ill-formed term (30_encoding R109) -/

theorem test_wf_off8kA : Instr.wf (.off8kA 2) = false ∧ Instr.wf (.off8kA 3) = true := by decide

theorem test_wf_off8kC : Instr.wf (.off8kC 7872) = false ∧ Instr.wf (.off8kC 7871) = true := by decide

theorem test_wf_off64kA : Instr.wf (.off64kA 2) = false ∧ Instr.wf (.off64kA 3) = true := by decide

theorem test_wf_off64kD : Instr.wf (.off64kD 63168) = false ∧ Instr.wf (.off64kD 63167) = true := by decide

/-! ### Decoding words written out from the tables -/

/-- R91 and P4: CREATE V8K, V64K, and the two unsupported codes, which are CREATE words too. -/
theorem test_decode_create :
    [0x00000000#32, 0x08000000#32, 0x10000000#32, 0x18000000#32].map decodeCommand =
      [.ok (.create 0), .ok (.create 1), .ok (.create 2), .ok (.create 3)] := by decide

/-- R91, P1, P2 and P4: lengths 16, 12 with flush, 0, and 8193 with flush. -/
theorem test_decode_compress :
    [0x40000010#32, 0x6000000C#32, 0x40000000#32, 0x60002001#32].map decodeCommand =
      [.ok (.compress false 16), .ok (.compress true 12), .ok (.compress false 0), .ok (.compress true 8193)] := by decide

theorem test_decode_destroy : decodeCommand 0x80000000#32 = .ok .destroy := by decide

/-- R108: `op` 3, reserved bits, and fields the operation does not use. -/
theorem test_decode_illegal :
    [0xC0000000#32, 0x80000001#32, 0x00000010#32, 0x20000000#32, 0x48000010#32, 0x40020010#32].map decodeCommand =
      List.replicate 6 (.error .illegalCommand) := by decide

/-- 95 section 2.2: the byte 0x41. -/
theorem test_decode_lit7 : decodeWhole (.token .v8k) (bits [0, 1, 0, 0, 0, 0, 0, 1]) = some (.lit7 0x41) := by decide

/-- 95 section 2.2: the byte 0xA5. -/
theorem test_decode_lit8 : decodeWhole (.token .v64k) (bits [1, 0, 0, 1, 0, 0, 1, 0, 1]) = some (.lit8 0x25) := by decide

/-- 95 section 2.2: `d = 3`. -/
theorem test_decode_off8kA : decodeWhole (.token .v8k) (bits [1, 1, 1, 1, 0, 0, 0, 0, 1, 1]) = some (.off8kA 3) := by decide

/-- 95 section 2.2: `d = 103`, 0xE27. -/
theorem test_decode_off8kB :
    decodeWhole (.token .v8k) (bits [1, 1, 1, 0, 0, 0, 1, 0, 0, 1, 1, 1]) = some (.off8kB 39) := by decide

/-- 95 section 2.2: `d = 403`, 0xC053. -/
theorem test_decode_off8kC :
    decodeWhole (.token .v8k) (bits [1, 1, 0, 0, 0, 0, 0, 0, 0, 1, 0, 1, 0, 0, 1, 1]) = some (.off8kC 83) := by decide

/-- 95 section 2.2: `d = 3`. -/
theorem test_decode_off64kA : decodeWhole (.token .v64k) (bits [1, 1, 1, 1, 1, 0, 0, 0, 0, 1, 1]) = some (.off64kA 3) := by
  decide

/-- 95 section 2.2: `d = 103`, 0x1E27. -/
theorem test_decode_off64kB :
    decodeWhole (.token .v64k) (bits [1, 1, 1, 1, 0, 0, 0, 1, 0, 0, 1, 1, 1]) = some (.off64kB 39) := by decide

/-- 95 section 2.2: `d = 403`, 0x7053. -/
theorem test_decode_off64kC :
    decodeWhole (.token .v64k) (bits [1, 1, 1, 0, 0, 0, 0, 0, 1, 0, 1, 0, 0, 1, 1]) = some (.off64kC 83) := by decide

/-- 95 section 2.2: `d = 2403`, 0x6 in 3 bits and 0x0023 in 16. -/
theorem test_decode_off64kD :
    decodeWhole (.token .v64k) (bits ([1, 1, 0] ++ zeros 10 ++ [1, 0, 0, 0, 1, 1])) = some (.off64kD 35) := by decide

theorem test_decode_len3 : decodeWhole (.length .v8k) (bits [0]) = some .len3 := by decide

/-- 95 section 2.2: `L = 7`. -/
theorem test_decode_len4 : decodeWhole (.length .v8k) (bits [1, 0, 1, 1]) = some (.len4 3) := by decide

/-- 95 section 2.2: `L = 13`. -/
theorem test_decode_len8 : decodeWhole (.length .v64k) (bits [1, 1, 0, 1, 0, 1]) = some (.len8 5) := by decide

/-- 95 section 2.2: `L = 31`. -/
theorem test_decode_len16 : decodeWhole (.length .v8k) (bits [1, 1, 1, 0, 1, 1, 1, 1]) = some (.len16 15) := by decide

/-- 95 section 2.2: `L = 32`. -/
theorem test_decode_len32 : decodeWhole (.length .v8k) (bits [1, 1, 1, 1, 0, 0, 0, 0, 0, 0]) = some (.len32 0) := by decide

/-- 95 section 2.2: `L = 127`. -/
theorem test_decode_len64 :
    decodeWhole (.length .v8k) (bits [1, 1, 1, 1, 1, 0, 1, 1, 1, 1, 1, 1]) = some (.len64 63) := by decide

/-- 95 section 2.2: `L = 128`. -/
theorem test_decode_len128 : decodeWhole (.length .v8k) (bits (ones 6 ++ zeros 8)) = some (.len128 0) := by decide

/-- R99: `L = 257`. -/
theorem test_decode_len256 : decodeWhole (.length .v8k) (bits (ones 7 ++ zeros 8 ++ [1])) = some (.len256 1) := by decide

/-- 95 section 2.2: `L = 597`, prefix 111111110 and value 001010101. -/
theorem test_decode_len512 :
    decodeWhole (.length .v8k) (bits (ones 8 ++ [0, 0, 0, 1, 0, 1, 0, 1, 0, 1])) = some (.len512 85) := by decide

/-- 95 section 2.2: `L = 2047`. -/
theorem test_decode_len1024 : decodeWhole (.length .v8k) (bits (ones 9 ++ [0] ++ ones 10)) = some (.len1024 1023) := by decide

/-- R99: `L = 2050`. -/
theorem test_decode_len2048 :
    decodeWhole (.length .v8k) (bits (ones 10 ++ zeros 10 ++ [1, 0])) = some (.len2048 2) := by decide

/-- 95 section 2.2: `L = 8191`. -/
theorem test_decode_len4096 : decodeWhole (.length .v8k) (bits (ones 11 ++ [0] ++ ones 12)) = some (.len4096 4095) := by decide

/-- R99: `L = 8193`, of V64K only. -/
theorem test_decode_len8192 :
    decodeWhole (.length .v64k) (bits (ones 12 ++ zeros 13 ++ [1])) = some (.len8192 1) ∧
      decode (.length .v8k) (bits (ones 12 ++ zeros 13 ++ [1])) = .error .noLengthBand := by decide

/-- 95 section 2.2: `L = 32767`. -/
theorem test_decode_len16384 :
    decodeWhole (.length .v64k) (bits (ones 13 ++ [0] ++ ones 14)) = some (.len16384 16383) := by decide

/-- V32: `L = 65533`, 0x7FFE in 15 bits and 0x7FFD in 15. -/
theorem test_decode_len32768 :
    decodeWhole (.length .v64k) (bits (ones 14 ++ [0] ++ ones 13 ++ [0, 1])) = some (.len32768 32765) := by decide

/-- R109 (c): no sixteenth band; and a string that ends too early. -/
theorem test_decode_none :
    decode (.length .v64k) (bits (ones 15 ++ zeros 17)) = .error .noLengthBand ∧
      decode (.token .v8k) (bits [1, 1, 0, 1]) = .error .truncated := by decide

/-! ### The response word, the hash, the Bit Assembler -/

/-- R93: the words of P1, P3 and P4. -/
theorem test_response_words :
    responseWord { status := .ok, flags := { compressed := true, atFront := true, flushed := false }, len := 5 } = 0x06000005#32 ∧
      responseWord { status := .ok, flags := { compressed := false, atFront := true, flushed := true }, len := 8 } = 0x0C000008#32 ∧
      responseWord { status := .badState, flags := noFlags, len := 0 } = 0x50000000#32 ∧
      responseWord { status := .illegalCmd, flags := noFlags, len := 0 } = 0x60000000#32 := by decide

/-- 95 section 2.3. -/
theorem test_hash3 :
    hash3 tiny 0x61 0x62 0x63 = 0x7FB ∧ hash3 tiny 0x62 0x63 0x61 = 0x7CD ∧ hash3 tiny 0 0 4 = 4 ∧ hash3 tiny 0 1 0 = 4 ∧
      hash3 tiny 0xFF 0 0x0F = 0xFFF ∧ hash3 tiny 0xFF 0xFF 0xFF = 0xCF3 := by decide +kernel

/-- A build of 16 hash-table entries, with another value for `abc`, with the codes of 0x41 and 0x42 exchanged, with a 5-bit code for
distance 3, and with MINLEN 1 (hand-made, 93 U16). -/
def other : Config.Build :=
  { Config.defaultBuild with
    hashBits := 4
    hashCodes := [(0x616263, 9)]
    table8K :=
      { minLen := 1, maxLen := 9, maxOff := 5, lit := [(0x41, [{ code := 0x42, width := 8 }]), (0x42, [{ code := 0x41, width := 8 }])]
        off := [(3, [{ code := 0x3, width := 2 }, { code := 0x5, width := 3 }])], len := [] }
    checked := by decide }

/-- Other parameters are used: the hash, and codes that no row of the opcode table has (30_encoding R100, 41 R156). -/
theorem test_other_parameters :
    hash3 other 0x61 0x62 0x63 = 9 ∧ hash3 other 0x62 0x63 0x61 = 0xD ∧
      after (fun t => (output t, t.w, t.j)) (step { literalAt 0x41 with build := other }) = some (([0x42], 1, 0), 1, 1) ∧
      after (fun t => (output t, t.offSent)) (step { offsetAt .v8k 3 with build := other }) = some (([0xE8], 0, 5), true) ∧
      after (fun t => (output t, t.offSent)) (step { offsetAt .v8k 4 with build := other }) = some (([0xF1, 0x00], 1, 2), true) := by
  decide +kernel

/-- What a sequence of emits leaves, and the count that FINISH returns. -/
def assembled (es : List Emit) : Option ((List (BitVec 8) × Nat × Nat) × Nat) :=
  match baEmits es (baStart (opened .v8k)) with
  | .ok t => some (output t, (baFinish t).obIdx)
  | .error _ => none

/-- V2: 16 bits from cursor 3. -/
theorem test_assembler_v2 :
    assembled [{ code := 0x5, width := 3 }, { code := 0xFFFF, width := 16 }] = some (([0xBF, 0xFF, 0xE0], 2, 3), 3) := by
  decide +kernel

/-- V5: 16 bits from cursor 7. -/
theorem test_assembler_v5 :
    assembled (List.replicate 7 { code := 1, width := 1 } ++ [{ code := 0xA5A5, width := 16 }]) =
      some (([0xFF, 0x4B, 0x4A], 2, 7), 3) := by decide +kernel

/-- V6: bits of the code above the width are ignored. -/
theorem test_assembler_v6 : assembled [{ code := 0xFFFF0001, width := 16 }] = some (([0x00, 0x01], 2, 0), 2) := by
  decide +kernel

/-- All but one of the bits of the output buffer used, as in V8 (with `OB_CAP = 8192`, the smallest legal). -/
def nearlyFull : State := { opened .v8k with build := tight, obMem := [(8191, 0xFE)], obIdx := 8191, obBits := 7 }

/-- V8a and V8c: one bit fits, two are refused whole. -/
theorem test_assembler_v8 :
    (baEmit { code := 1, width := 1 } nearlyFull).map output = .ok ([0xFF], 8192, 0) ∧
      (baEmit { code := 3, width := 2 } nearlyFull).map output = .error .overflow := by decide +kernel

/-! ### One step of each command (44, 95 section 3) -/

/-- P1 step 1, P3 step 1. -/
theorem test_create :
    after (fun t => (t.sess, t.variant, t.w, rspWord t)) (exec (.create 1) State.reset) = some (.ready, .v64k, 0, 0#32) ∧
      after (fun t => (t.firstPkt, t.flagsHold, t.rspValid)) (exec (.create 1) State.reset) = some (true, atFrontOnly, true) := by
  decide +kernel

/-- P4 steps 2 and 4: unsupported variant; a session exists. -/
theorem test_create_errors :
    after (fun t => (rspWord t, t.sess)) (exec (.create 3) State.reset) = some (0x10000000#32, .absent) ∧
      after (fun t => (rspWord t, t.sess)) (exec (.create 0) (opened .v8k)) = some (0x50000000#32, .ready) := by decide +kernel

/-- A session with bytes in its dictionary (the state after the `abc` of V27, by hand). -/
def used : State :=
  { opened .v8k with
    build := tiny, w := 3, hbMem := [(0, 0x61), (1, 0x62), (2, 0x63)], ht := { defined := true, entries := [(0x7FB, { valid := true, off := 0 })] }
    firstPkt := false, flagsHold := noFlags }

/-- 44 R219, R220, 43 R191: the pass begins at the dictionary's end, or at 0 after a flush. -/
theorem test_compress :
    after (fun t => (t.teState, t.b, t.w, t.n)) (exec (.compress false 12) used) = some (.scan, 3, 3, 12) ∧
      after (fun t => (t.b, t.w, t.doFlush)) (exec (.compress true 12) used) = some (0, 0, true) ∧
      after (fun t => mfLookup 0x7FB t) (exec (.compress true 12) used) = some (.ok none) := by decide +kernel

/-- P4 steps 1, 5, 6: no session; length 0; CAP + 1, and no flush is performed. -/
theorem test_compress_errors :
    after rspWord (exec (.compress false 3) State.reset) = some 0x20000000#32 ∧
      after rspWord (exec (.compress false 0) used) = some 0x20000000#32 ∧
      after (fun t => (rspWord t, t.w, mfLookup 0x7FB t)) (exec (.compress true 8193) used) =
        some (0x20000000#32, 3, .ok (some 0)) := by decide +kernel

/-- P4 steps 9 and 10: from READY and from ABSENT. -/
theorem test_destroy :
    after (fun t => (t.sess, rspWord t)) (exec .destroy used) = some (.absent, 0#32) ∧
      after (fun t => (t.sess, rspWord t)) (exec .destroy State.reset) = some (.absent, 0#32) := by decide +kernel

/-! ### One step of each token (95 section 2.2: the bits each must append) -/

/-- 0x41 is `01000001`. -/
theorem test_lit7 :
    after (fun t => (output t, t.w, t.j, t.hbMem)) (exec (.lit7 0x41) (literalAt 0x41)) =
      some (([0x41], 1, 0), 1, 1, [(0, 0x41)]) := by decide +kernel

/-- 0xA5 is `100100101`. -/
theorem test_lit8 :
    after (fun t => (output t, t.w, t.j, t.hbMem)) (exec (.lit8 0x25) (literalAt 0xA5)) =
      some (([0x92, 0x80], 1, 1), 1, 1, [(0, 0xA5)]) := by decide +kernel

/-- `d = 6` is 0x3C6 in 10 bits. -/
theorem test_off8kA :
    after (fun t => (output t, t.offSent, t.w)) (exec (.off8kA 6) (offsetAt .v8k 6)) = some (([0xF1, 0x80], 1, 2), true, 0) := by
  decide +kernel

/-- `d = 103` is 0xE27 in 12 bits. -/
theorem test_off8kB :
    after (fun t => (output t, t.offSent)) (exec (.off8kB 39) (offsetAt .v8k 103)) = some (([0xE2, 0x70], 1, 4), true) := by
  decide +kernel

/-- `d = 8191` is 0xDEBF in 16 bits. -/
theorem test_off8kC :
    after (fun t => (output t, t.offSent)) (exec (.off8kC 7871) (offsetAt .v8k 8191)) = some (([0xDE, 0xBF], 2, 0), true) := by
  decide +kernel

/-- `d = 63` is 0x7FF in 11 bits. -/
theorem test_off64kA :
    after (fun t => (output t, t.offSent)) (exec (.off64kA 63) (offsetAt .v64k 63)) = some (([0xFF, 0xE0], 1, 3), true) := by
  decide +kernel

/-- `d = 319` is 0x1EFF in 13 bits. -/
theorem test_off64kB :
    after (fun t => (output t, t.offSent)) (exec (.off64kB 255) (offsetAt .v64k 319)) = some (([0xF7, 0xF8], 1, 5), true) := by
  decide +kernel

/-- `d = 2367` is 0x77FF in 15 bits. -/
theorem test_off64kC :
    after (fun t => (output t, t.offSent)) (exec (.off64kC 2047) (offsetAt .v64k 2367)) = some (([0xEF, 0xFE], 1, 7), true) := by
  decide +kernel

/-- `d = 65535` is 0x6 in 3 bits and 0xF6BF in 16. -/
theorem test_off64kD :
    after (fun t => (output t, t.offSent)) (exec (.off64kD 63167) (offsetAt .v64k 65535)) =
      some (([0xDE, 0xD7, 0xE0], 2, 3), true) := by decide +kernel

/-- `L = 3` is `0`; three zeros enter the dictionary and position 0 is recorded (43 R196). -/
theorem test_len3 :
    after (fun t => (output t, t.w, t.j, t.offSent)) (exec .len3 (lengthAt .v8k 3)) = some (([0x00], 0, 1), 3, 3, false) ∧
      after (fun t => (t.hbMem, t.ht.entries)) (exec .len3 (lengthAt .v8k 3)) =
        some ([(0, 0), (1, 0), (2, 0)], [(0, { valid := true, off := 0 })]) := by decide +kernel

/-- `L = 7` is `1011`; the last of the five records wins (41 R159). -/
theorem test_len4 :
    after (fun t => (output t, t.w, t.j, t.ht.entries)) (exec (.len4 3) (lengthAt .v8k 7)) =
      some (([0xB0], 0, 4), 7, 7, [(0, { valid := true, off := 4 })]) := by decide +kernel

/-- `L = 13` is 0x35 in 6 bits. -/
theorem test_len8 :
    after (fun t => (output t, t.w, t.j)) (exec (.len8 5) (lengthAt .v8k 13)) = some (([0xD4], 0, 6), 13, 13) := by decide +kernel

/-- `L = 31` is 0xEF in 8 bits. -/
theorem test_len16 :
    after (fun t => (output t, t.j)) (exec (.len16 15) (lengthAt .v8k 31)) = some (([0xEF], 1, 0), 31) := by decide +kernel

/-- `L = 63` is 0x3DF in 10 bits. -/
theorem test_len32 :
    after (fun t => (output t, t.j)) (exec (.len32 31) (lengthAt .v8k 63)) = some (([0xF7, 0xC0], 1, 2), 63) := by decide +kernel

/-- `L = 64` is 0xF80 in 12 bits. -/
theorem test_len64 :
    after (fun t => (output t, t.j)) (exec (.len64 0) (lengthAt .v8k 64)) = some (([0xF8, 0x00], 1, 4), 64) := by decide +kernel

/-- `L = 255` is 0x3F7F in 14 bits. -/
theorem test_len128 :
    after (fun t => (output t, t.j)) (exec (.len128 127) (lengthAt .v8k 255)) = some (([0xFD, 0xFC], 1, 6), 255) := by
  decide +kernel

/-- `L = 256` is 0xFE00 in 16 bits. -/
theorem test_len256 :
    after (fun t => (output t, t.j)) (exec (.len256 0) (lengthAt .v8k 256)) = some (([0xFE, 0x00], 2, 0), 256) := by decide +kernel

/-- `L = 597` is 0x1FE in 9 bits and 0x055 in 9. -/
theorem test_len512 :
    after (fun t => (output t, t.j)) (exec (.len512 85) (lengthAt .v8k 597)) = some (([0xFF, 0x15, 0x40], 2, 2), 597) := by
  decide +kernel

/-- `L = 1024` is 0x3FE in 10 bits and 0 in 10. -/
theorem test_len1024 :
    after (fun t => (output t, t.j)) (exec (.len1024 0) (lengthAt .v8k 1024)) = some (([0xFF, 0x80, 0x00], 2, 4), 1024) := by
  decide +kernel

/-- `L = 2048` is 0x7FE in 11 bits and 0 in 11. -/
theorem test_len2048 :
    after (fun t => (output t, t.j)) (exec (.len2048 0) (lengthAt .v8k 2048)) = some (([0xFF, 0xC0, 0x00], 2, 6), 2048) := by
  decide +kernel

/-- `L = 4096` is 0xFFE in 12 bits and 0 in 12. -/
theorem test_len4096 :
    after (fun t => (output t, t.j)) (exec (.len4096 0) (lengthAt .v8k 4096)) = some (([0xFF, 0xE0, 0x00], 3, 0), 4096) := by
  decide +kernel

/-- `L = 16383` is 0x1FFE in 13 bits and 0x1FFF in 13 (the emits alone: the consumes are those of every length). -/
theorem test_len8192 :
    lenToken .v64k 16383 = some (.len8192 8191) ∧
      assembled (emits (.len8192 8191)) = some (([0xFF, 0xF7, 0xFF, 0xC0], 3, 2), 4) := by decide +kernel

/-- `L = 16384` is 0x3FFE in 14 bits and 0 in 14. -/
theorem test_len16384 :
    lenToken .v64k 16384 = some (.len16384 0) ∧
      assembled (emits (.len16384 0)) = some (([0xFF, 0xF8, 0x00, 0x00], 3, 4), 4) := by decide +kernel

/-- `L = 65535` is 0x7FFE in 15 bits and 0x7FFF in 15; V8K has no such length. -/
theorem test_len32768 :
    lenToken .v64k 65535 = some (.len32768 32767) ∧ lenToken .v8k 8192 = none ∧
      assembled (emits (.len32768 32767)) = some (([0xFF, 0xFD, 0xFF, 0xFC], 3, 6), 4) := by decide +kernel

/-! ### Micro-steps, the step and the opcode table's words -/

/-- As R209 at position 3, but of six zeros, three of them consumed (V27, with zeros). -/
def zerosAt3 : State :=
  { scanning (List.replicate 6 0) with
    j := 3, w := 3, hbMem := [(0, 0), (1, 0), (2, 0)], ht := { defined := true, entries := [(0, { valid := true, off := 0 })] }
    obMem := [(0, 0), (1, 0), (2, 0)], obIdx := 3 }

/-- R209 step 7: candidate 0, distance 3, the match runs to the end of the chunk. -/
theorem test_scan_copy :
    after (fun t => (t.teState, t.mC, t.mD, t.mLen)) (step zerosAt3) = some (.emitMatch, 0, 3, 3) := by decide +kernel

/-- V18: a candidate at distance exactly CAP is not served. -/
theorem test_scan_window :
    served 0 { opened .v8k with w := 8192 } = false ∧ served 1 { opened .v8k with w := 8192 } = true := by decide

/-- V14: eight literals of 8 bits are no smaller than eight bytes. -/
theorem test_commit_raw :
    after (fun t => (rspWord t, t.w, t.flagsHold, t.spanLen))
      (step { scanning [0x61] with teState := .done, j := 1, w := 1, obIdx := 1, obMem := [(0, 0x61)] }) =
        some (0x0C000001#32, 0, atFrontOnly, 1) := by decide +kernel

/-- `literalAt 0x80` with one bit left in the output buffer. -/
def cramped : State := { literalAt 0x80 with build := tight, obMem := [(8191, 0xFE)], obIdx := 8191, obBits := 7 }

/-- V24: the fatal overflow. -/
theorem test_overflow :
    after (fun t => (t.sess, rspWord t, t.variant)) (exec (.lit8 0) cramped) = some (.faulted, 0x30000000#32, .v8k) := by
  decide +kernel

/-- 70 R282: the word is accepted in one step and carried out in the next; `rsp_valid` and `cmd_ready` are 0 between. -/
theorem test_handshake :
    after (fun t => (t.cmdQ, t.rspValid, cmdReady t)) (step { used with rspValid := true, cmdQ := [0xC0000000, 7] }) =
        some ([7], false, false) ∧
      after (fun t => (t.cmdQ, t.rspValid, cmdReady t, rspWord t))
        (step { used with accepted := some 0xC0000000, rspValid := false, cmdQ := [7] }) =
          some ([7], true, true, 0x60000000#32) := by decide +kernel

/-- The step runs the placed instruction: a command, a literal, an offset code, a length code. -/
theorem test_fetch_word :
    after (fun t => t.variant) (step (State.reset.withFetchWord 32 0x08000000)) = some .v64k ∧
      after output (step (State.reset.withFetchWord 8 0x41)) = some ([0x41], 1, 0) ∧
      after output (step (State.reset.withFetchWord 16 0xC053)) = some ([0xC0, 0x53], 2, 0) ∧
      after output (step (State.reset.withFetchWord 8 0xE5)) = some ([0xE5], 1, 0) := by decide +kernel

/-- Rows of 8, 16, 24 and 32 bits. -/
theorem test_table_words :
    decodeTableWord 8 0x7F = some (.lit7 0x7F) ∧ decodeTableWord 16 0xC053 = some (.off8kC 83) ∧
      decodeTableWord 16 0xFE00 = some (.len256 0) ∧ decodeTableWord 24 0xFFEFFF = some (.len4096 4095) ∧
      decodeTableWord 32 0x4000000C = some (.compress false 12) ∧ decodeTableWord 32 0xC0000000 = none := by decide +kernel

/-! ### Checks that decide the invariant on a concrete state -/

/-- `Widths`. -/
def widthsOk (s : State) : Bool :=
  decide (s.w < Config.offLimit s.build) && decide (s.b < Config.offLimit s.build) && decide (s.mC < Config.offLimit s.build) &&
    decide (s.mD < 2 ^ Config.offw s.variant) && decide (s.j < 2 ^ 17) &&
    decide (s.n < 2 ^ 17) && decide (s.mLen < 2 ^ 17) && decide (s.obIdx < 2 ^ 17) && decide (s.obBits < 2 ^ 3) &&
    decide (s.rsp.len < 2 ^ 17) && decide (s.spanLen < 2 ^ 17)

/-- `Stores`. -/
def storesOk (s : State) : Bool :=
  Memory.wf s.hbMem && s.hbMem.all (fun p => decide (p.1 < 65536)) && Memory.wf s.obMem &&
    s.obMem.all (fun p => decide (p.1 < max s.build.obCap8K s.build.obCap64K)) && rising s.ht.entries &&
    s.ht.entries.all (fun p => decide (p.1 < Config.htSize s.build))

/-- Whether the three bytes from logical offset `o` on are there and hash to `h`. -/
def hashesTo (s : State) (o h : Nat) : Bool :=
  match histByte s o, histByte s (o + 1), histByte s (o + 2) with
  | some a, some c, some x => decide (hash3 s.build a c x = h)
  | _, _, _ => false

/-- `Dictionary`. -/
def dictionaryOk (s : State) : Bool :=
  decide (Config.cap s.variant ≤ s.build.maxCap) && decide (s.w < Config.offLimit s.build) &&
    (List.range s.w).all (fun o => (histByte s o).isSome) && s.ht.defined &&
    s.ht.entries.all (fun p => !p.2.valid || (decide (p.2.off + 3 ≤ s.w) && hashesTo s p.2.off p.1)) &&
    !s.flagsHold.compressed && !s.flagsHold.flushed && (!s.firstPkt || s.flagsHold.atFront)

/-- `Resting`. -/
def restingOk (s : State) : Bool :=
  decide (s.chunk = []) && !s.doFlush && (decide (s.sess ≠ .ready) || (s.flagsHold.atFront == decide (s.w = 0))) &&
    (List.range s.spanLen).all (fun a => (readCell a s.obMem).isSome) && (decide (s.spanLen = 0) || decide (s.sess = .ready))

/-- `AssemblerReady`. -/
def assemblerOk (s : State) : Bool :=
  decide (s.obBits < 8) &&
    (decide (s.obBits = 0) ||
      match readCell s.obIdx s.obMem with
      | some x => (List.range (8 - s.obBits)).all fun k => !x.getLsbD k
      | none => false)

/-- `Encoding`. -/
def encodingOk (s : State) : Bool :=
  decide (s.sess = .ready) && decide (1 ≤ s.n) && decide (s.n ≤ Config.cap s.variant) && decide (s.w = s.b + s.j) &&
    decide (s.j ≤ s.n) && decide (s.b + s.n < Config.offLimit s.build) && (atFront s == decide (s.b = 0)) &&
    decide (s.chunk.length ≤ s.n) && (decide (s.chunk.length = s.n) || (decide (s.teState = .scan) && decide (s.j = 0))) &&
    (List.range s.j).all (fun q => decide (histByte s (s.b + q) = s.chunk[q]?)) && assemblerOk s &&
    (List.range s.obIdx).all (fun a => (readCell a s.obMem).isSome) &&
    decide (streamPos s ≤ 8 * Config.obCap s.build s.variant) && decide (s.spanLen = 0) && !s.rspValid &&
    (decide (s.teState = .done) || decide (streamPos s ≤ 9 * s.j + sentWidth s))

/-- `Matched`. -/
def matchedOk (s : State) : Bool :=
  decide (3 ≤ s.mD) && decide (s.mD ≤ Config.maxOff s.build s.variant) && decide (s.mC + s.mD = s.w) &&
    decide (Config.minLen s.build s.variant ≤ s.mLen) && decide (s.mLen ≤ Config.maxLen s.build s.variant) && decide (s.j + s.mLen ≤ s.n) &&
    (List.range s.mLen).all fun i =>
      match s.chunk[s.j + i]?, srcByte s (s.mC + i) with
      | some x, .ok y => decide (x = y)
      | _, _ => false

/-- `Inv` of a state with the parameters `tiny`, by the checks that the state of the sequencer calls for. -/
def invOk (s : State) : Bool :=
  decide (s.build = tiny) && (decide (s.accepted = none) || (decide (s.teState = .idle) && !s.rspValid)) && widthsOk s && storesOk s && (decide (s.sess ≠ .ready) || dictionaryOk s) &&
    (match s.teState with
    | .idle => restingOk s && !s.offSent
    | .scan => encodingOk s && !s.offSent
    | .emitLiteral => encodingOk s && decide (s.j < s.n) && !s.offSent
    | .emitMatch => encodingOk s && matchedOk s
    | .done => encodingOk s && decide (s.j = s.n) && decide (s.obBits = 0) && decide (8 * s.obIdx ≤ 9 * s.n + 7) && !s.offSent)

theorem mem_of_readCell {α : Type} {a : Nat} {v : α} {m : List (Nat × α)} (h : readCell a m = some v) : (a, v) ∈ m := by
  induction m with
  | nil => cases h
  | cons p m ih =>
    obtain ⟨k, u⟩ := p
    simp only [readCell] at h
    split at h
    · rename_i hk; cases h; subst hk; simp
    · exact List.mem_cons_of_mem _ (ih h)

theorem assemblerOk_ready {s : State} (h : assemblerOk s = true) : AssemblerReady s := by
  simp only [assemblerOk, Bool.and_eq_true, Bool.or_eq_true, decide_eq_true_eq] at h
  obtain ⟨h1, h2⟩ := h
  refine ⟨h1, fun hp => ?_⟩
  rcases h2 with h2 | h2
  · omega
  · split at h2
    · rename_i x hx
      exact ⟨x, hx, fun k hk => by simpa using List.all_eq_true.1 h2 k (List.mem_range.2 hk)⟩
    · cases h2

theorem widthsOk_widths {s : State} (h : widthsOk s = true) : Widths s := by
  simp only [widthsOk, Bool.and_eq_true, decide_eq_true_eq] at h
  obtain ⟨⟨⟨⟨⟨⟨⟨⟨⟨⟨h1, h2⟩, h3⟩, h4⟩, h5⟩, h6⟩, h7⟩, h8⟩, h9⟩, h10⟩, h11⟩ := h
  exact ⟨h1, h2, h3, h4, h5, h6, h7, h8, h9, h10, h11⟩

theorem all_of_isSome {α : Type} {m : List (Nat × α)} {f : Nat → Bool} (h : m.all (fun p => f p.1) = true) (a : Nat)
    (ha : (readCell a m).isSome) : f a = true := by
  obtain ⟨v, hv⟩ := Option.isSome_iff_exists.1 ha
  exact List.all_eq_true.1 h _ (mem_of_readCell hv)

theorem storesOk_stores {s : State} (h : storesOk s = true) : Stores s := by
  simp only [storesOk, Bool.and_eq_true] at h
  obtain ⟨⟨⟨⟨⟨h1, h2⟩, h3⟩, h4⟩, h5⟩, h6⟩ := h
  exact ⟨h1, fun a ha => by simpa using all_of_isSome (f := fun a => decide (a < 65536)) h2 a ha, h3,
    fun a ha => by simpa using all_of_isSome (f := fun a => decide (a < max s.build.obCap8K s.build.obCap64K)) h4 a ha, h5,
    fun a ha => by simpa using all_of_isSome (f := fun a => decide (a < Config.htSize s.build)) h6 a ha⟩

theorem dictionaryOk_dictionary {s : State} (h : dictionaryOk s = true) : Dictionary s := by
  simp only [dictionaryOk, Bool.and_eq_true, decide_eq_true_eq, Bool.not_eq_true'] at h
  obtain ⟨⟨⟨⟨⟨⟨⟨h1, h2⟩, h3⟩, h4⟩, h5⟩, h6⟩, h7⟩, h8⟩ := h
  have hv : ∀ k e, readCell k s.ht.entries = some e → e.valid = true → e.off + 3 ≤ s.w ∧ hashesTo s e.off k = true := by
    intro k e he hv
    simpa [hv] using List.all_eq_true.1 h5 _ (mem_of_readCell he)
  refine ⟨h1, h2, fun o ho => List.all_eq_true.1 h3 o (List.mem_range.2 ho.1), h4, fun k e he hv' => (hv k e he hv').1,
    fun k e he hv' _ => ?_, ⟨h6, h7⟩, fun hf => by simpa [hf] using h8⟩
  have := (hv k e he hv').2
  unfold hashesTo at this
  split at this
  · rename_i a c x ha hc hx
    exact ⟨a, c, x, ha, hc, hx, by simpa using this⟩
  · cases this

theorem restingOk_resting {s : State} (h : restingOk s = true) : Resting s := by
  simp only [restingOk, Bool.and_eq_true, Bool.or_eq_true, decide_eq_true_eq, Bool.not_eq_true', beq_iff_eq] at h
  obtain ⟨⟨⟨⟨h1, h2⟩, h3⟩, h4⟩, h5⟩ := h
  exact ⟨h1, h2, fun hr => by simp [h3.resolve_left fun hn => hn hr], fun a ha => List.all_eq_true.1 h4 a (List.mem_range.2 ha),
    fun hp => h5.resolve_left (by omega)⟩

theorem encodingOk_encoding {s : State} (h : encodingOk s = true) : Encoding s := by
  simp only [encodingOk, Bool.and_eq_true, Bool.or_eq_true, decide_eq_true_eq, Bool.not_eq_true', beq_iff_eq] at h
  obtain ⟨⟨⟨⟨⟨⟨⟨⟨⟨⟨⟨⟨⟨⟨⟨h1, h2⟩, h3⟩, h4⟩, h5⟩, h6⟩, h7⟩, h8⟩, h9⟩, h10⟩, h11⟩, h12⟩, h13⟩, h14⟩, h15⟩, h16⟩ := h
  exact ⟨h1, h2, h3, h4, h5, h6, h7, h8, fun hl => h9.resolve_left (by omega),
    fun q hq => by simpa using List.all_eq_true.1 h10 q (List.mem_range.2 hq), assemblerOk_ready h11,
    fun a ha => List.all_eq_true.1 h12 a (List.mem_range.2 ha), h13, h14, h15, fun hd => h16.resolve_left hd⟩

theorem matchedOk_matched {s : State} (h : matchedOk s = true) : Matched s := by
  simp only [matchedOk, Bool.and_eq_true, decide_eq_true_eq] at h
  obtain ⟨⟨⟨⟨⟨⟨h1, h2⟩, h3⟩, h4⟩, h5⟩, h6⟩, h7⟩ := h
  refine ⟨h1, h2, h3, h4, h5, h6, fun i hi => ?_⟩
  have := List.all_eq_true.1 h7 i (List.mem_range.2 hi)
  split at this
  · rename_i x y hx hy
    exact ⟨x, hx, by rw [hy]; simpa using (of_decide_eq_true this).symm⟩
  · cases this

/-- The codes of bytes, as the tests' tables have them: the first bit tells the length, and the rest the byte. -/
theorem lit_tiny (x : Byte) :
    (∀ e ∈ (codeTable tiny .v8k).lit x, e.code < 2 ^ e.width) ∧
      (emitsString ((codeTable tiny .v8k).lit x)).length =
        (if (emitsString ((codeTable tiny .v8k).lit x)).head? = some true then 9 else 8) ∧
      ((emitsString ((codeTable tiny .v8k).lit x)).foldl (fun n b => 2 * n + b.toNat) 0) % 256 =
        (if x.toNat < 128 then x.toNat else x.toNat - 128) ∧
      ((emitsString ((codeTable tiny .v8k).lit x)).head? = some true ↔ 128 ≤ x.toNat) ∧
      ∀ d, d < 4 → 1 ≤ d →
        (emitsString ((codeTable tiny .v8k).lit x)).isPrefixOf (emitsString ((codeTable tiny .v8k).off d)) = false ∧
          (emitsString ((codeTable tiny .v8k).off d)).isPrefixOf (emitsString ((codeTable tiny .v8k).lit x)) = false := by
  revert x; decide +kernel

theorem off_tiny : ∀ d, d < 4 → 1 ≤ d → (codeTable tiny .v8k).off d ≠ [] ∧
    (∀ e ∈ (codeTable tiny .v8k).off d, e.code < 2 ^ e.width) ∧
    (emitsString ((codeTable tiny .v8k).off d)).length = (if d = 1 then 16 else 10) ∧
    ∀ e, e < 4 → 1 ≤ e →
      (emitsString ((codeTable tiny .v8k).off d)).isPrefixOf (emitsString ((codeTable tiny .v8k).off e)) = true → d = e := by
  decide +kernel

/-- The bands of the tests' offset codes: distance 1 with 13 bits after 110, distances 2 and 3 with 6 bits after 1111. -/
def tinyBands : List OffsetBand :=
  [{ first := 1, last := 1, pre := [true, true, false], width := 13, base := 0 },
    { first := 2, last := 3, pre := [true, true, true, true], width := 6, base := 0 }]

theorem tiny_widest : WidestOffsetField 13 (codeTable tiny .v8k) := by
  have ok : ∀ b ∈ tinyBands, b.first ≤ b.last ∧ b.last < 4 ∧ b.width ≤ 13 ∧ ∀ d, d < 4 → b.first ≤ d → d ≤ b.last →
      1 ≤ d ∧ b.base ≤ d ∧ d - b.base < 2 ^ b.width ∧
        emitsString ((codeTable tiny .v8k).off d) = b.pre ++ natBits b.width (d - b.base) := by
    decide +kernel
  have all : ∀ d, d < 4 → 1 ≤ d → ∃ b ∈ tinyBands, b.first ≤ d ∧ d ≤ b.last := by decide
  refine ⟨tinyBands, fun b hb => ?_, fun d h => all d (Nat.lt_succ_of_le h.2) h.1, by decide⟩
  obtain ⟨hf, hl, hw, hc⟩ := ok b hb
  refine ⟨⟨⟨b.first, Nat.le_refl _, hf⟩, fun d h => ?_⟩, hw⟩
  obtain ⟨h1, h2⟩ := hc d (Nat.lt_of_le_of_lt h.2 hl) h.1 h.2
  exact ⟨⟨h1, Nat.le_of_lt_succ (Nat.lt_of_le_of_lt h.2 hl)⟩, h2⟩

/-- `tiny` with the default code of distance 1: every offset code has 10 bits. -/
def narrow : Config.Build := { tiny with table8K := { tiny.table8K with off := [] }, checked := by decide }

/-- Without a value field of 13 bits a table of V8K is not well-formed (30_encoding R101 (f)). -/
theorem test_narrow_table_is_ill_formed : ¬ TableWellFormed .v8k (codeTable narrow .v8k) := by
  intro h
  obtain ⟨d, hd, hw⟩ := h.offField.long_code
  have ten : ∀ d, d < 4 → 1 ≤ d → (emitsString ((codeTable narrow .v8k).off d)).length = 10 := by decide +kernel
  rw [ten d (Nat.lt_succ_of_le hd.2) hd.1] at hw
  exact absurd hw (by decide)

theorem tiny_tables (v : Variant) (hv : Config.cap v ≤ tiny.maxCap) : TableWellFormed v (codeTable tiny v) := by
  cases v with
  | v64k => exact absurd hv (by decide)
  | v8k =>
    have hd : ∀ d, CodesOff (codeTable tiny .v8k) d → d < 4 ∧ 1 ≤ d := fun d h => ⟨Nat.lt_succ_of_le h.2, h.1⟩
    have hl : ∀ l, CodesLen (codeTable tiny .v8k) l → l = 3 := fun l h => Nat.le_antisymm h.2 h.1
    refine ⟨fun d h => (off_tiny d (hd d h).1 (hd d h).2).1, fun l h => by rw [hl l h]; decide, fun x => (lit_tiny x).1,
      fun d h => (off_tiny d (hd d h).1 (hd d h).2).2.1, fun l h => by rw [hl l h]; decide, fun x => ?_, fun x y h => ?_,
      fun d e h1 h2 h => (off_tiny d (hd d h1).1 (hd d h1).2).2.2.2 e (hd e h2).1 (hd e h2).2 (by simpa using h),
      fun x d h => ?_, fun k l h1 h2 _ => by rw [hl k h1, hl l h2], fun d l h1 h2 => ?_, fun d l h1 h2 => ?_, tiny_widest⟩
    · have := (lit_tiny x).2.1
      split at this <;> simp [this]
    · obtain ⟨-, x1, x2, x3, -⟩ := lit_tiny x
      obtain ⟨-, y1, y2, y3, -⟩ := lit_tiny y
      have hx : emitsString ((codeTable tiny .v8k).lit x) ≠ [] := by
        intro he; rw [he] at x1; simp at x1
      have hh : (emitsString ((codeTable tiny .v8k).lit x)).head? = (emitsString ((codeTable tiny .v8k).lit y)).head? := by
        obtain ⟨r, hr⟩ := h
        rw [← hr, List.head?_append_of_ne_nil _ hx]
      have he := h.eq_of_length (by rw [x1, y1, hh])
      rw [he] at x2 x3
      apply BitVec.eq_of_toNat_eq
      have hb : x.toNat < 128 ↔ y.toNat < 128 := by
        have := x3.symm.trans y3
        omega
      rw [x2] at y2
      split at y2 <;> split at y2 <;> omega
    · have := (lit_tiny x).2.2.2.2 d (hd d h).1 (hd d h).2
      exact ⟨fun hp => by simp [List.isPrefixOf_iff_prefix.2 hp] at this, fun hp => by simp [List.isPrefixOf_iff_prefix.2 hp] at this⟩
    · have := (off_tiny d (hd d h1).1 (hd d h1).2).2.2.1
      split at this <;> omega
    · have := (off_tiny d (hd d h1).1 (hd d h1).2).2.2.1
      rw [hl l h2, this]; split <;> decide

theorem invOk_inv {s : State} (h : invOk s = true) : Inv s := by
  simp only [invOk, Bool.and_eq_true, Bool.or_eq_true, decide_eq_true_eq] at h
  obtain ⟨⟨⟨⟨⟨hb, ha⟩, h1⟩, h2⟩, h3⟩, h4⟩ := h
  have hT : ∀ v, Config.cap v ≤ s.build.maxCap → TableWellFormed v (codeTable s.build v) := by rw [hb]; exact tiny_tables
  have hA : s.accepted ≠ none → s.teState = .idle ∧ s.rspValid = false := fun hn => by
    simpa using ha.resolve_left hn
  have hd : s.sess = .ready → Dictionary s := fun hr => dictionaryOk_dictionary (h3.resolve_left fun hn => hn hr)
  cases ht : s.teState <;> rw [ht] at h4 <;>
    simp only [Bool.and_eq_true, decide_eq_true_eq, Bool.not_eq_true'] at h4
  · exact ⟨hT, by simpa only [ht] using hA, widthsOk_widths h1, storesOk_stores h2, hd,
      fun _ => restingOk_resting h4.1, by simp [ht], by simp [ht], by simp [ht],
      by simp [h4.2], by simp [ht]⟩
  · exact ⟨hT, by simpa only [ht] using hA, widthsOk_widths h1, storesOk_stores h2, hd,
      by simp [ht], fun _ => encodingOk_encoding h4.1, by simp [ht], by simp [ht],
      by simp [h4.2], by simp [ht]⟩
  · exact ⟨hT, by simpa only [ht] using hA, widthsOk_widths h1, storesOk_stores h2, hd,
      by simp [ht], fun _ => encodingOk_encoding h4.1.1, fun _ => h4.1.2,
      by simp [ht], by simp [h4.2], by simp [ht]⟩
  · exact ⟨hT, by simpa only [ht] using hA, widthsOk_widths h1, storesOk_stores h2, hd,
      by simp [ht], fun _ => encodingOk_encoding h4.1, by simp [ht],
      fun _ => matchedOk_matched h4.2, fun _ => ht, by simp [ht]⟩
  · exact ⟨hT, by simpa only [ht] using hA, widthsOk_widths h1, storesOk_stores h2, hd,
      by simp [ht], fun _ => encodingOk_encoding h4.1.1.1.1, by simp [ht],
      by simp [ht], by simp [h4.2], fun _ => ⟨h4.1.1.1.2, h4.1.1.2, h4.1.2⟩⟩

/-- `Mirrors`. -/
def mirrorsOk (D : List Byte) (s : State) : Bool :=
  decide (D.length = s.w) && (List.range s.w).all fun o => decide (histByte s o = D[o]?)

theorem mirrorsOk_mirrors {D : List Byte} {s : State} (h : mirrorsOk D s = true) : Mirrors D s := by
  simp only [mirrorsOk, Bool.and_eq_true, decide_eq_true_eq] at h
  exact ⟨h.1, fun o ho => by simpa using List.all_eq_true.1 h.2 o (List.mem_range.2 ho.1)⟩

/-! ### States of the invariant -/

/-- `zerosAt3` in EMIT_MATCH. -/
def copyAt3 : State := { zerosAt3 with teState := .emitMatch, mC := 0, mD := 3, mLen := 3 }

/-- `copyAt3` after the offset code 0x3C3. -/
def copySent : State :=
  { copyAt3 with offSent := true, obMem := [(0, 0), (1, 0), (2, 0), (3, 0xF0), (4, 0xC0)], obIdx := 4, obBits := 2 }

/-- The six zeros encoded: `00 00 00 F0 C0`. -/
def zerosDone : State :=
  { copySent with
    teState := .done, offSent := false, j := 6, w := 6, hbMem := [(0, 0), (1, 0), (2, 0), (3, 0), (4, 0), (5, 0)]
    ht := { defined := true, entries := [(0, { valid := true, off := 3 })] }, obIdx := 5, obBits := 0 }

/-- The one-byte chunk encoded: no smaller than itself. -/
def rawDone : State :=
  { scanning [0x61] with teState := .done, j := 1, w := 1, hbMem := [(0, 0x61)], obIdx := 1, obMem := [(0, 0x61)] }

/-- A session at rest with a span of one byte. -/
def spanned : State :=
  { opened .v8k with
    build := tiny, firstPkt := false, rspValid := true, spanLen := 1, obMem := [(0, 0x61)]
    rsp := { status := .ok, flags := { compressed := false, atFront := true, flushed := true }, len := 1 } }

/-- A session after the fatal overflow. -/
def faulted : State :=
  { State.reset with build := tiny, sess := .faulted, rspValid := true, rsp := { status := .outputOverflow, flags := noFlags, len := 0 } }

/-- An encode pass of one byte that the host still has to supply. -/
def awaiting : State := { scanning [] with n := 1, inQ := [0x61, 0x62] }

theorem test_inv_states :
    [{ State.reset with build := tiny }, { opened .v8k with build := tiny }, used, spanned, faulted, awaiting, scanning [0x61], literalAt 0x61, zerosAt3, copyAt3, copySent,
      zerosDone, rawDone].map invOk = List.replicate 13 true := by decide +kernel

theorem inv_zerosAt3 : Inv zerosAt3 := invOk_inv (by decide +kernel)

theorem inv_zerosDone : Inv zerosDone := invOk_inv (by decide +kernel)

theorem inv_rawDone : Inv rawDone := invOk_inv (by decide +kernel)

/-- The three literals of `zerosAt3`. -/
def threeLits : List Token := [.lit 0, .lit 0, .lit 0]

theorem coded_threeLits : Coded (codeTable tiny .v8k) threeLits := fun d l h => by simp [threeLits] at h

/-- The four tokens of `zerosDone`. -/
def zeroTokens : List Token := threeLits ++ [.copy 3 3]

theorem coded_zeros : Coded (codeTable tiny .v8k) zeroTokens := fun d l h => by
  simp [zeroTokens, threeLits] at h
  obtain ⟨rfl, rfl⟩ := h
  unfold CodesOff CodesLen
  decide

theorem faithful_zerosAt3 : Faithful [] zerosAt3 :=
  ⟨rfl, mirrorsOk_mirrors (by decide +kernel), threeLits, [], coded_threeLits, by decide +kernel, by unfold StreamIs; decide +kernel,
    by decide +kernel, by decide +kernel, by decide +kernel⟩

theorem faithful_zerosDone : Faithful [] zerosDone :=
  ⟨rfl, mirrorsOk_mirrors (by decide +kernel), zeroTokens, List.replicate 5 false, coded_zeros, by decide +kernel,
    by unfold StreamIs; decide +kernel, by decide +kernel, by decide +kernel, by decide +kernel⟩

theorem faithful_rawDone : Faithful [] rawDone :=
  ⟨rfl, mirrorsOk_mirrors (by decide +kernel), [.lit 0x61], [], fun d l h => by simp at h, by decide +kernel, by unfold StreamIs; decide +kernel,
    by decide +kernel, by decide +kernel, by decide +kernel⟩

/-! ### For each statement with hypotheses: a case that meets them, for each of its clauses -/

theorem test_hyp_DecodeReadsBackEveryEncoding :
    Instr.fits .destroy .command = true ∧ Instr.fits (.off8kA 63) (.token .v8k) = true ∧
      Instr.fits (.len32768 32767) (.length .v64k) = true := by decide

theorem test_hyp_DecodedBitsAreTheEncoding :
    decode (.length .v8k) [false, true] = .ok (.len3, [true]) ∧
      decode (.token .v8k) [false, true, true, true, true, true, true, true] = .ok (.lit7 0x7F, []) := by decide

theorem test_hyp_EmitsSpellTheCodeword : Instr.fits .len3 .command = false ∧ Instr.fits (.lit7 0) .command = false := by decide

theorem test_hyp_ResponseWordLayout : ({ status := .ok, flags := noFlags, len := 131071 } : Response).len < 2 ^ 17 := by decide

theorem test_hyp_CreateOpensAnEmptySession :
    State.reset.teState = .idle ∧ State.reset.sess = .absent ∧ Config.cap .v8k ≤ State.reset.build.maxCap ∧
      Config.cap .v64k ≤ State.reset.build.maxCap := by decide

/-- A core built without the memory for V64K. -/
def small : State := { State.reset with build := { Config.defaultBuild with maxCap := 65535, checked := by decide } }

theorem test_hyp_CreateErrorsChangeOnlyTheResponse :
    (opened .v8k).teState = .idle ∧ (opened .v8k).sess ≠ .absent ∧ State.reset.teState = .idle ∧ State.reset.sess = .absent ∧
      2 ≤ (2#2).toNat ∧ small.teState = .idle ∧ small.sess = .absent ∧ small.build.maxCap < Config.cap .v64k := by decide

theorem test_hyp_CompressStartsAnEncodePass :
    used.teState = .idle ∧ used.sess = .ready ∧ 1 ≤ (1#17).toNat ∧ (8192#17).toNat ≤ Config.cap used.variant ∧
      used.w + (8192#17).toNat < 2 ^ used.build.loffw ∧ 2 ^ used.build.loffw ≤ { used with w := 2 ^ 32 - 1 }.w + (1#17).toNat := by decide

theorem test_hyp_CompressErrorsChangeOnlyTheResponse :
    State.reset.sess = .absent ∧ faulted.sess = .faulted ∧ used.sess = .ready ∧ State.reset.teState = .idle ∧
      faulted.teState = .idle ∧ used.teState = .idle ∧ (0#17).toNat = 0 ∧ Config.cap used.variant < (8193#17).toNat := by decide

theorem test_hyp_CapacityBoundary :
    (opened .v8k).teState = .idle ∧ (opened .v8k).sess = .ready ∧ (opened .v8k).variant = .v8k ∧
      (opened .v64k).teState = .idle ∧ (opened .v64k).sess = .ready ∧ (opened .v64k).variant = .v64k := by decide

theorem test_hyp_DestroyAlwaysSucceeds : faulted.teState = .idle ∧ faulted.sess = .faulted := by decide

/-- `used` with a word on the command port. -/
def offered (c : Word) : State := { used with cmdQ := [c] }

/-- `used` after it accepted a word. -/
def accepting (c : Word) : State := { used with accepted := some c, cmdQ := [c] }

theorem inv_used : Inv used := invOk_inv (by decide +kernel)

theorem test_hyp_EveryTableAndHashCanBeGiven :
    1 ≤ 3 ∧ 3 ≤ 3 ∧ 3 ≤ 65535 ∧ 65535 + 1 ≤ Config.cap .v64k ∧ ∀ b0 b1 b2 : Byte, (b0.toNat + b1.toNat + b2.toNat) < 2 ^ tiny.hashBits :=
  ⟨by decide, by decide, by decide, by decide, fun b0 b1 b2 => by
    have : tiny.hashBits = 12 := rfl
    rw [this]; omega⟩

theorem test_hyp_CommandHandshake :
    (Inv (offered 7) ∧ (offered 7).rst = false ∧ cmdReady (offered 7) = true ∧ (offered 7).cmdQ = [7]) ∧
      (Inv (accepting 7) ∧ cmdReady (accepting 7) = false) ∧ (Inv awaiting ∧ cmdReady awaiting = false) :=
  ⟨⟨invOk_inv (by decide +kernel), rfl, rfl, rfl⟩, ⟨invOk_inv (by decide +kernel), rfl⟩, invOk_inv (by decide +kernel), rfl⟩

theorem test_hyp_IllegalWordChangesOnlyTheResponse :
    (accepting 0xC0000000).rst = false ∧ (accepting 0xC0000000).teState = .idle ∧ (accepting 0xC0000000).accepted = some 0xC0000000 ∧
      0xC0000000#32 &&& 0xE7FFFFFF#32 ≠ 0x00000000#32 ∧ 0xC0000000#32 &&& 0xDFFE0000#32 ≠ 0x40000000#32 ∧
      0xC0000000#32 ≠ 0x80000000#32 := by decide

theorem test_hyp_FailedCommandsMutateNothingElse :
    ∃ t, step (accepting 0x40000000) = .next t ∧ t.teState = .idle ∧ t.rsp.status ≠ .ok := ⟨_, rfl, rfl, by decide⟩

theorem test_hyp_LiteralTokensComplete :
    literalByte (.lit7 0x7F) = some 0x7F ∧ literalByte (.lit8 0) = some 0x80 ∧ (literalAt 0x80).chunk[(literalAt 0x80).j]? = some 0x80 ∧
      (sessionTable (literalAt 0x80)).lit 0x80 = emits (.lit8 0) ∧ AssemblerReady (literalAt 0x80) ∧ Fits (literalAt 0x80) (.lit8 0) :=
  ⟨by decide, by decide, by decide, by decide +kernel, assemblerOk_ready (by decide +kernel), by unfold Fits; decide +kernel⟩

theorem test_hyp_OffsetTokensComplete :
    offsetOf (.off64kD 63167) = some (.v64k, 65535) ∧ offsetOf (.off8kA 3) = some (.v8k, 3) ∧
      (offsetAt .v64k 65535).teState = .emitMatch ∧ (offsetAt .v64k 65535).offSent = false ∧
      (sessionTable (offsetAt .v64k 65535)).off 65535 = emits (.off64kD 63167) ∧ AssemblerReady (offsetAt .v64k 65535) ∧ Fits (offsetAt .v64k 65535) (.off64kD 63167) :=
  ⟨by decide, by decide, rfl, rfl, by decide +kernel, assemblerOk_ready (by decide +kernel), by unfold Fits; decide +kernel⟩

theorem test_hyp_LengthTokensComplete :
    lengthOf .len3 = some 3 ∧ copySent.teState = .emitMatch ∧ copySent.offSent = true ∧ copySent.mLen = 3 ∧
      (sessionTable copySent).len 3 = emits .len3 ∧ 3 ≤ Config.cap copySent.variant ∧ copySent.j + 3 ≤ copySent.chunk.length ∧
      AssemblerReady copySent ∧ Fits copySent .len3 ∧
      (codeTable Config.defaultBuild .v8k).len 8191 = emits (.len4096 4095) :=
  ⟨rfl, rfl, rfl, rfl, by decide +kernel, by decide, by decide, assemblerOk_ready (by decide +kernel),
    by unfold Fits; decide +kernel, by decide +kernel⟩

theorem test_hyp_TokenOverflowIsFatal :
    Selected (.lit8 0) cramped ∧ AssemblerReady cramped ∧ streamPos cramped ≤ 8 * Config.obCap cramped.build cramped.variant ∧
      ¬ Fits cramped (.lit8 0) :=
  ⟨.inl ⟨0x80, by decide, rfl, by decide, by decide +kernel⟩, assemblerOk_ready (by decide +kernel), by decide, by unfold Fits; decide +kernel⟩

theorem test_hyp_RefusedOutsideItsPlace :
    Instr.fits (.create 0) .command = true ∧ (literalAt 0).teState ≠ .idle ∧ Instr.fits .len3 .command = false ∧
      ¬ Selected .len3 (literalAt 0) := by
  refine ⟨by decide, by decide, by decide, ?_⟩
  rintro (⟨_, h, _⟩ | ⟨_, _, h, _⟩ | ⟨_, _, h, _⟩)
  · exact absurd h (by simp [literalByte])
  · exact absurd h (by simp [offsetOf])
  · exact absurd h (by decide)

theorem test_hyp_StepRunsTheDecodedInstruction :
    ((accepting 0x80000000).rst = false ∧ (accepting 0x80000000).teState = .idle ∧ decode .command (natBits 32 (0x80000000#32).toNat) = .ok (.destroy, [])) ∧
      ((literalAt 0x80).teState = .emitLiteral ∧
        (sessionTable (literalAt 0x80)).lit 0x80 = (codeTable Config.defaultBuild .v8k).lit 0x80 ∧
        decode (.token .v8k) (emitsString ((sessionTable (literalAt 0x80)).lit 0x80)) = .ok (.lit8 0, [])) ∧
      (copyAt3.offSent = false ∧ (sessionTable copyAt3).off copyAt3.mD = (codeTable Config.defaultBuild .v8k).off copyAt3.mD ∧
        decode (.token .v8k) (emitsString ((sessionTable copyAt3).off copyAt3.mD)) = .ok (.off8kA 3, [])) ∧
      (copySent.offSent = true ∧ (sessionTable copySent).len copySent.mLen = (codeTable Config.defaultBuild .v8k).len copySent.mLen ∧
        decode (.length .v8k) (emitsString ((sessionTable copySent).len copySent.mLen)) = .ok (.len3, [])) := by
  decide +kernel

theorem test_hyp_BitPackingExact : ∃ t, baEmits [{ code := 5, width := 3 }] (baStart used) = .ok t := ⟨_, rfl⟩

theorem test_hyp_EmitOverflowsExactlyWhenFull :
    AssemblerReady nearlyFull ∧ 8 * Config.obCap nearlyFull.build nearlyFull.variant < streamPos nearlyFull + 2 ∧
      streamPos nearlyFull + 1 ≤ 8 * Config.obCap nearlyFull.build nearlyFull.variant :=
  ⟨assemblerOk_ready (by decide +kernel), by decide, by decide⟩

theorem mirrors_used : Mirrors [0x61, 0x62, 0x63] used := mirrorsOk_mirrors (by decide +kernel)

theorem test_hyp_WindowShowsTheStream : Mirrors [0x61, 0x62, 0x63] used := mirrors_used

theorem test_hyp_ReadServesOnlyTheWindow :
    Mirrors [0x61, 0x62, 0x63] used ∧ InWindow used 0 ∧ InWindow used 2 ∧ ¬ InWindow used 3 :=
  ⟨mirrors_used, by unfold InWindow; decide, by unfold InWindow; decide, by unfold InWindow; decide⟩

theorem test_hyp_ExtendIsTheLongestMatch :
    zerosAt3.chunk.length = zerosAt3.n ∧ mfExtend 0 zerosAt3 = .ok 3 ∧
      mfExtend 0 { zerosAt3 with chunk := [0, 0, 0, 0, 9, 0] } = .ok 1 := by decide +kernel

theorem test_hyp_MemoryOperationsKeepTheCanonicalForm :
    Memory.wf zerosDone.hbMem = true ∧ Memory.wf zerosDone.obMem = true ∧ rising zerosDone.ht.entries = true := by decide

theorem test_hyp_InputTransferTakesExactlyTheChunk :
    awaiting.rst = false ∧ inReady awaiting = true ∧ inReady used = false ∧ ∃ t, step used = .next t :=
  ⟨rfl, rfl, rfl, _, rfl⟩

/-- A pass of three bytes in a session whose window has slid past the only candidate. -/
def slid : State :=
  { scanning [0, 0, 0] with w := 8192, b := 8192, ht := { defined := true, entries := [(0, { valid := true, off := 0 })] } }

/-- A pass whose only candidate is a collision of the hash (V17). -/
def collided : State :=
  { scanning [0, 1, 0] with
    w := 3, b := 3, hbMem := [(0, 0), (1, 0), (2, 4)], ht := { defined := true, entries := [(4, { valid := true, off := 0 })] } }

theorem test_hyp_ScanFollowsTheSelector :
    ((scanning [5, 6]).chunk.length = 2 ∧ (scanning [5, 6]).n - (scanning [5, 6]).j < 3) ∧
      mfLookup (hash3 tiny 5 6 7) (scanning [5, 6, 7]) = .ok none ∧
      (mfLookup (hash3 tiny 0 0 0) slid = .ok (some 0) ∧ ¬ (0 < slid.w ∧ slid.w - 0 ≤ Config.maxOff slid.build slid.variant)) ∧
      (mfLookup (hash3 tiny 0 1 0) collided = .ok (some 0) ∧ mfExtend 0 collided = .ok 1) ∧
      (zerosAt3.j < zerosAt3.n ∧ mfLookup (hash3 tiny 0 0 0) zerosAt3 = .ok (some 0) ∧ mfExtend 0 zerosAt3 = .ok 3) := by
  decide +kernel

/-- The end of a pass with `k` bits in the trailing byte. -/
def ending (k : Nat) : State := { rawDone with teState := .scan, obBits := k }

theorem test_hyp_ScanFinalizesAtTheEnd :
    (ending 7).rst = false ∧ (ending 7).teState = .scan ∧ (ending 7).chunk.length = (ending 7).n ∧ (ending 7).j = (ending 7).n ∧
      (ending 7).obBits < 8 ∧ (ending 0).obBits < 8 := by decide

theorem test_hyp_ScanChangesOnlyTheSequencer :
    (∃ t, step zerosAt3 = .next t ∧ t.teState ≠ .done) ∧ ∃ t, step (ending 0) = .next t ∧ t.teState = .done :=
  ⟨⟨_, rfl, by decide⟩, ⟨_, rfl, rfl⟩⟩

theorem test_hyp_SelectedCopiesStayInTheWindow :
    Inv zerosAt3 ∧ zerosAt3.rst = false ∧ zerosAt3.teState = .scan ∧ ∃ t, step zerosAt3 = .next t ∧ t.teState = .emitMatch :=
  ⟨inv_zerosAt3, rfl, rfl, _, rfl, rfl⟩

theorem test_hyp_CommitPassesIncompressibleChunksThrough :
    rawDone.rst = false ∧ rawDone.teState = .done ∧ rawDone.chunk.length = rawDone.n ∧ rawDone.n ≤ rawDone.obIdx ∧
      rawDone.n ≤ Config.obCap rawDone.build rawDone.variant := by decide

theorem test_hyp_CommitDeliversTheEncoding :
    zerosDone.rst = false ∧ zerosDone.teState = .done ∧ zerosDone.obIdx + 1 = zerosDone.n := by decide

theorem test_hyp_ResultNeverLongerThanTheChunk : (∃ t, step rawDone = .next t) ∧ ∃ t, step zerosDone = .next t :=
  ⟨⟨_, rfl⟩, ⟨_, rfl⟩⟩

theorem test_hyp_AtFrontMeansEmptyDictionary : Inv zerosDone ∧ zerosDone.b = 0 ∧ ∃ t, step zerosDone = .next t :=
  ⟨inv_zerosDone, rfl, _, rfl⟩

theorem inv_spanned : Inv spanned := invOk_inv (by decide +kernel)

theorem test_hyp_SpanBytesAreReadable :
    Inv spanned ∧ spanned.teState = .idle ∧ spanned.rspValid = true ∧ spanned.obRaddr.toNat < spanned.spanLen :=
  ⟨inv_spanned, rfl, rfl, by decide⟩

theorem test_hyp_HardwareResetFromAnyState : { copyAt3 with rst := true }.rst = true := rfl

theorem test_hyp_IdleLosesNothing : used.rst = false ∧ used.teState = .idle ∧ used.accepted = none ∧ used.cmdQ = [] := by decide

theorem test_hyp_VariantNeverChanges :
    ∃ t, step (accepting 0x40000003) = .next t ∧ (accepting 0x40000003).sess ≠ .absent ∧ t.sess ≠ .absent :=
  ⟨_, rfl, by decide, by decide⟩

theorem test_hyp_FaultedIsSticky :
    (∃ t, step { faulted with accepted := some 0x80000000, rspValid := false } = .next t ∧ t.sess ≠ .faulted) ∧
      (∃ t, step { faulted with rst := true } = .next t ∧ t.sess ≠ .faulted) ∧
      ∃ t, step cramped = .next t ∧ cramped.sess ≠ .faulted ∧ t.sess = .faulted :=
  ⟨⟨_, rfl, by decide +kernel⟩, ⟨_, rfl, by decide +kernel⟩, _, rfl, by decide, rfl⟩

theorem test_hyp_FirstPacketEndsWithASuccess :
    ∃ t, step zerosDone = .next t ∧ zerosDone.sess = .ready ∧ t.sess = .ready ∧ zerosDone.firstPkt = true ∧ t.firstPkt = false :=
  ⟨_, rfl, rfl, rfl, rfl, rfl⟩

theorem test_hyp_SpanStableUntilTheNextCompress :
    ∃ t, step { spanned with accepted := some 0xC0000000, rspValid := false } = .next t ∧ t.teState = .idle ∧ t.sess = .ready := ⟨_, rfl, rfl, rfl⟩

theorem test_hyp_StepsLeaveTheHostsSideAlone :
    (∃ t, step awaiting = .next t ∧ t.inQ ≠ awaiting.inQ) ∧ ∃ t, step (offered 0x80000000) = .next t ∧ t.cmdQ = [] :=
  ⟨⟨_, rfl, by decide +kernel⟩, _, rfl, rfl⟩

/-- In each state of the sequencer, and with the host's input still to come. -/
theorem test_hyp_EveryStepKeepsTheInvariant :
    (Inv (offered 0x4000000C) ∧ ∃ t, step (offered 0x4000000C) = .next t) ∧
      (Inv (accepting 0x4000000C) ∧ ∃ t, step (accepting 0x4000000C) = .next t) ∧ (Inv awaiting ∧ ∃ t, step awaiting = .next t) ∧
      (Inv (literalAt 0x61) ∧ ∃ t, step (literalAt 0x61) = .next t) ∧ (Inv copyAt3 ∧ ∃ t, step copyAt3 = .next t) ∧
      (Inv copySent ∧ ∃ t, step copySent = .next t) ∧ (Inv rawDone ∧ ∃ t, step rawDone = .next t) :=
  ⟨⟨invOk_inv (by decide +kernel), _, rfl⟩, ⟨invOk_inv (by decide +kernel), _, rfl⟩, ⟨invOk_inv (by decide +kernel), _, rfl⟩,
    ⟨invOk_inv (by decide +kernel), _, rfl⟩,
    ⟨invOk_inv (by decide +kernel), _, rfl⟩, ⟨invOk_inv (by decide +kernel), _, rfl⟩, inv_rawDone, _, rfl⟩

theorem test_hyp_NoStepStops : Inv zerosAt3 := inv_zerosAt3

theorem test_hyp_WorstCaseBufferNeverOverflows :
    Inv faulted ∧ (∀ v, 9 * Config.cap v ≤ 8 * Config.obCap faulted.build v) ∧ ∃ t, step faulted = .next t ∧ t.sess = .faulted :=
  ⟨invOk_inv (by decide +kernel), fun v => by cases v <;> decide, _, rfl, rfl⟩

theorem test_hyp_EveryCompressCompletes :
    Inv awaiting ∧ awaiting.rst = false ∧ awaiting.teState = .scan ∧ awaiting.j = 0 ∧
      awaiting.n ≤ awaiting.chunk.length + awaiting.inQ.length :=
  ⟨invOk_inv (by decide +kernel), rfl, rfl, rfl, by decide⟩

/-- `spanned` with other stale values. -/
def spannedStale : State :=
  { spanned with hbMem := [(5, 1)], obMem := [(0, 0x61), (7, 9)], j := 4, n := 9, mC := 2, obIdx := 3, freeCtr := 2 }

theorem alike_spanned : Alike spanned spannedStale := by
  have hi : ¬ spanned.teState ≠ .idle := fun h => h rfl
  have hm : spanned.teState ≠ .emitMatch := by decide
  refine ⟨rfl, rfl, rfl, rfl, rfl, rfl, rfl, rfl, rfl, rfl, rfl, fun a ha => ?_, fun _ => rfl, fun _ => rfl, fun _ => rfl, fun _ => rfl,
    fun _ o ho => absurd ho.1 (Nat.not_lt_zero o), fun _ _ => rfl, ?_, ?_, ?_, ?_, ?_, ?_, ?_, ?_, ?_, ?_, ?_, ?_⟩ <;>
    first
    | (intro h; exact absurd h hi)
    | (intro h; exact absurd h hm)
    | skip
  have : a = 0 := Nat.lt_one_iff.1 ha
  subst this
  rfl

theorem test_hyp_UnspecifiedValuesAreNeverRead :
    Alike spanned spannedStale ∧ spanned.rspValid = true ∧ spanned.obRaddr.toNat < spanned.spanLen ∧
      (readCell spanned.obRaddr.toNat spanned.obMem).isSome :=
  ⟨alike_spanned, rfl, by decide, by decide⟩

/-- A core without a session, after a DESTROY, with other values where the spec gives none. -/
def destroyed : State :=
  { State.reset with
    variant := .v64k, w := 7, hbMem := [(5, 1)], flagsHold := atFrontOnly, mLen := 3, rspValid := true
    rsp := { status := .badState, flags := noFlags, len := 0 } }

theorem test_hyp_FreshSessionsAreAlike :
    State.reset.sess = .absent ∧ destroyed.sess = .absent ∧ State.reset.teState = .idle ∧ destroyed.teState = .idle ∧
      State.reset.build = destroyed.build ∧ State.reset.cmdQ = destroyed.cmdQ ∧ State.reset.inQ = destroyed.inQ ∧
      (∃ t, exec (.create 1) State.reset = .next t ∧ t.sess = .ready) ∧ ∃ t, exec (.create 1) destroyed = .next t :=
  ⟨rfl, rfl, rfl, rfl, rfl, rfl, rfl, ⟨_, rfl, rfl⟩, _, rfl⟩

theorem test_hyp_PassBeginsInStepWithThePeer :
    (Inv used ∧ Mirrors [0x61, 0x62, 0x63] used ∧ used.teState = .idle ∧ used.sess = .ready ∧
        (∃ t, exec (.compress false 12) used = .next t ∧ t.teState = .scan ∧ atFront t = false) ∧
        ∃ t, exec (.compress true 12) used = .next t ∧ t.teState = .scan ∧ atFront t = true) ∧
      (Inv spanned ∧ spanned.flagsHold.atFront = true ∧
        ∃ t, exec (.compress false 12) spanned = .next t ∧ t.teState = .scan ∧ atFront t = true) :=
  ⟨⟨inv_used, mirrors_used, rfl, rfl, ⟨_, rfl, rfl, rfl⟩, _, rfl, rfl, rfl⟩, inv_spanned, rfl, _, rfl, rfl, rfl⟩

theorem test_hyp_EveryStepKeepsThePeerInStep :
    Inv zerosAt3 ∧ Faithful [] zerosAt3 ∧ zerosAt3.teState ≠ .idle ∧ ∃ t, step zerosAt3 = .next t ∧ t.teState ≠ .idle :=
  ⟨inv_zerosAt3, faithful_zerosAt3, by decide, _, rfl, by decide +kernel⟩

/-- The peer's first bytes do not matter: both results are at front. -/
theorem test_hyp_CommittedSpanDecodesToTheChunk :
    (Inv zerosDone ∧ Faithful (if atFront zerosDone then [] else [7]) zerosDone ∧
        ∃ t, step zerosDone = .next t ∧ t.rsp.flags.compressed = true) ∧
      (Inv rawDone ∧ Faithful (if atFront rawDone then [] else [7]) rawDone ∧
        ∃ t, step rawDone = .next t ∧ t.rsp.flags.compressed = false) :=
  ⟨⟨inv_zerosDone, faithful_zerosDone, _, rfl, rfl⟩, inv_rawDone, faithful_rawDone, _, rfl, rfl⟩

end Sys2Proof.Tests
end

section
/-! SUPPORT. 00_scope: what every step leaves alone. The host's side (R7, 70 R281 to R283), the variant of a session (R8), and the default
sizes (R7, 43 R203). -/

namespace Sys2Proof.Safety

open Sys2Proof.Machine

/-! ### The host's side -/

/-- The parameters, the pins and what the host presents are the same in `t` as in `s`. -/
structure SameHost (s t : State) : Prop where
  build : t.build = s.build
  rst : t.rst = s.rst
  obRaddr : t.obRaddr = s.obRaddr
  cmdQ : t.cmdQ = s.cmdQ
  inQ : t.inQ = s.inQ

/-- A command's completion takes nothing from the host: its word has left the port before (70 R282). -/
theorem CommandTo.sameHost {c : Word} {s t : State} (h : CommandTo c s t) : SameHost s t := by
  cases h with
  | fails e error next => subst next; exact ⟨rfl, rfl, rfl, rfl, rfl⟩
  | creates v absent fitsBuild next => subst next; exact ⟨rfl, rfl, rfl, rfl, rfl⟩
  | compresses f len ready pos le next => subst next; constructor <;> simp
  | destroys word next => subst next; exact ⟨rfl, rfl, rfl, rfl, rfl⟩

theorem OnlyAssembler.sameHost {s u : State} (h : OnlyAssembler s u) : SameHost s u := by
  rw [h]; exact ⟨rfl, rfl, rfl, rfl, rfl⟩

/-- A token takes nothing from the host, whether its emits fit or not, where what follows the emits takes nothing. -/
theorem TokenEnd.sameHost {es : List Emit} {s t : State} {k : State → State} (h : TokenEnd es s k t)
    (hk : ∀ u, SameHost u (k u)) : SameHost s t := by
  cases h with
  | completes u emitted next =>
    have hu := (baEmits_only emitted).sameHost
    have hku := hk u
    subst next
    exact ⟨hku.build.trans hu.build, hku.rst.trans hu.rst, hku.obRaddr.trans hu.obRaddr, hku.cmdQ.trans hu.cmdQ,
      hku.inQ.trans hu.inQ⟩
  | overflows full next => subst next; exact ⟨rfl, rfl, rfl, rfl, rfl⟩

theorem sameHost_finish (l j : Nat) (u : State) :
    SameHost u { consumeFromJ l u with j := j, teState := .scan, offSent := false } := by
  constructor <;> simp

/-- Every step but the acceptance of a word and the input transfer leaves the whole host's side alone. -/
theorem StepTo.sameHost {s t : State} (h : StepTo s t) :
    SameHost s t ∨ (∃ c cs, s.cmdQ = c :: cs ∧ t = { s with accepted := some c, cmdQ := cs, rspValid := false }) ∨
      (s.teState = .scan ∧ s.chunk.length < s.n ∧ t = takeInput s) := by
  cases h with
  | reset pin next => subst next; exact .inl ⟨rfl, rfl, rfl, rfl, rfl⟩
  | waits pin idle free empty next => subst next; exact .inl ⟨rfl, rfl, rfl, rfl, rfl⟩
  | accepts pin idle free c cs queue next => exact .inr (.inl ⟨c, cs, queue, next⟩)
  | command pin idle c taken next =>
    obtain ⟨build, rst, obRaddr, cmdQ, inQ⟩ := next.sameHost
    exact .inl ⟨build, rst, obRaddr, cmdQ, inQ⟩
  | takes pin scan short next => exact .inr (.inr ⟨scan, short, next⟩)
  | finalizes pin scan full atEnd next => subst next; exact .inl (by constructor <;> simp)
  | literal pin scan full inside sel next => subst next; exact .inl ⟨rfl, rfl, rfl, rfl, rfl⟩
  | copy pin scan full inside c d l sel next => subst next; exact .inl ⟨rfl, rfl, rfl, rfl, rfl⟩
  | emitsLiteral pin lit x byte ends => exact .inl (ends.sameHost (sameHost_finish 1 _))
  | emitsOffset pin mat first ends => exact .inl (ends.sameHost fun u => ⟨rfl, rfl, rfl, rfl, rfl⟩)
  | emitsLength pin mat second inside ends => exact .inl (ends.sameHost (sameHost_finish s.mLen _))
  | passes pin isDone larger room next => subst next; exact .inl ⟨rfl, rfl, rfl, rfl, rfl⟩
  | delivers pin isDone smaller next => subst next; exact .inl ⟨rfl, rfl, rfl, rfl, rfl⟩

/-- Settles O46, by the three things a step can do to the host's side. -/
theorem stepsLeaveTheHostsSideAlone : Obligations.StepsLeaveTheHostsSideAlone := by
  unfold Obligations.StepsLeaveTheHostsSideAlone
  intro s t h
  rcases (step_cases h).sameHost with same | ⟨c, cs, queue, rfl⟩ | ⟨scan, short, rfl⟩
  · exact ⟨same.build, same.rst, same.obRaddr, .inl same.cmdQ, ⟨[], same.inQ.symm⟩, fun hne => absurd same.inQ hne⟩
  · exact ⟨rfl, rfl, rfl, .inr ⟨c, queue⟩, ⟨[], rfl⟩, fun hne => absurd rfl hne⟩
  · exact ⟨rfl, rfl, rfl, .inl rfl, ⟨_, (List.take_append_drop _ _).symm⟩, fun _ => ⟨scan, short⟩⟩

/-! ### The variant of a session -/

/-- A command keeps the variant or leaves no session, unless it opens one where none is (44 R216, R231). -/
theorem CommandTo.variant {c : Word} {s t : State} (h : CommandTo c s t) (hs : s.sess ≠ .absent) (ht : t.sess ≠ .absent) :
    t.variant = s.variant := by
  cases h with
  | fails e error next => subst next; rfl
  | creates v absent fitsBuild next => exact absurd absent hs
  | compresses f len ready pos le next => subst next; simp
  | destroys word next => subst next; exact absurd rfl ht

theorem TokenEnd.variant {es : List Emit} {s t : State} {k : State → State} (h : TokenEnd es s k t)
    (hk : ∀ u, (k u).variant = u.variant) : t.variant = s.variant := by
  cases h with
  | completes u emitted next => rw [next, hk, baEmits_only emitted]
  | overflows full next => subst next; rfl

/-- Settles O42: only CREATE, which needs the session absent, and DESTROY and hardware reset, which leave it absent, write the variant. -/
theorem variantNeverChanges : Obligations.VariantNeverChanges := by
  unfold Obligations.VariantNeverChanges
  intro s t h hs ht
  cases step_cases h with
  | reset pin next => subst next; exact absurd rfl ht
  | waits pin idle free empty next => rw [next]
  | accepts pin idle free c cs queue next => rw [next]
  | command pin idle c taken next => exact next.variant hs ht
  | takes pin scan short next => rw [next, takeInput_variant]
  | finalizes pin scan full atEnd next => rw [next, teFinalize_variant]
  | literal pin scan full inside sel next => rw [next]
  | copy pin scan full inside c d l sel next => rw [next]
  | emitsLiteral pin lit x byte ends => exact ends.variant fun u => consumeFromJ_variant 1 u
  | emitsOffset pin mat first ends => exact ends.variant fun u => rfl
  | emitsLength pin mat second inside ends => exact ends.variant fun u => consumeFromJ_variant s.mLen u
  | passes pin isDone larger room next => subst next; rfl
  | delivers pin isDone smaller next => subst next; rfl

/-! ### The default sizes -/

/-- Settles O51: both default sizes are exactly `9·CAP/8`. -/
theorem defaultBufferIsWorstCaseSized : Obligations.DefaultBufferIsWorstCaseSized := by
  unfold Obligations.DefaultBufferIsWorstCaseSized WorstCaseSized
  intro v
  cases v <;> decide

end Sys2Proof.Safety
end

section
/-! SUPPORT. Every step keeps the invariant of the machine (10_state R21 to R34, 43 R191 to R204): first what each operation keeps,
then one lemma for each kind of step. -/

namespace Sys2Proof.Safety

open Sys2Proof.Machine

/-! ### Sizes -/

theorem cap_eq_two_pow_offw (v : Variant) : Config.cap v = 2 ^ Config.offw v := by cases v <;> decide

theorem obCap_le_max (p : Config.Build) (v : Variant) : Config.obCap p v ≤ max p.obCap8K p.obCap64K := by
  cases v
  · exact Nat.le_max_left _ _
  · exact Nat.le_max_right _ _

/-- A state that differs in the Bit Assembler only, spelled out. -/
theorem OnlyAssembler.spelled {s u : State} (h : OnlyAssembler s u) :
    ∃ m i k, u = { s with obMem := m, obIdx := i, obBits := k } := ⟨_, _, _, h⟩

/-! ### States without contents (10_state R50, 60 R248) -/

/-- The common shape of the states that DESTROY, hardware reset and the fatal overflow leave: a session state, a response, and nothing
else that has a value. -/
def cleared (v : Variant) (a : Sess) (acc : Option Word) (e : Status) (valid : Bool) (s : State) : State :=
  { unspecify v s with
    variant := v, sess := a, accepted := acc, rsp := { status := e, flags := noFlags, len := 0 }
    rspValid := valid, teState := .idle }

theorem raiseOverflow_eq_cleared (s : State) :
    raiseOverflow s = cleared s.variant .faulted s.accepted .outputOverflow true s := rfl

theorem hardReset_eq_cleared (s : State) :
    hardReset s = cleared (freeVariant (s.freeCtr + 11)) .absent none .ok false s := rfl

theorem destroyed_eq_cleared (s : State) :
    succeed noFlags 0 (dropSession s) = cleared (freeVariant (s.freeCtr + 11)) .absent s.accepted .ok true s := rfl

/-- Every free value fits its register. -/
theorem widths_cleared (v : Variant) (a : Sess) (acc : Option Word) (e : Status) (valid : Bool) (s : State) :
    Widths (cleared v a acc e valid s) where
  w := BitVec.isLt _
  b := BitVec.isLt _
  mC := BitVec.isLt _
  mD := BitVec.isLt _
  j := BitVec.isLt _
  n := BitVec.isLt _
  mLen := BitVec.isLt _
  obIdx := BitVec.isLt _
  obBits := BitVec.isLt _
  rspLen := Nat.two_pow_pos 17
  spanLen := Nat.two_pow_pos 17

theorem inv_cleared {s : State} (hi : Inv s) (v : Variant) {a : Sess} (ha : a ≠ .ready) {acc : Option Word} (e : Status)
    {valid : Bool} (hacc : acc ≠ none → valid = false) : Inv (cleared v a acc e valid s) where
  tables := hi.tables
  accepting h := ⟨rfl, hacc h⟩
  widths := widths_cleared v a acc e valid s
  stores := ⟨rfl, fun _ h => (nomatch h), rfl, fun _ h => (nomatch h), rfl, fun _ h => (nomatch h)⟩
  dictionary h := absurd h ha
  resting _ := ⟨rfl, rfl, fun h => absurd h ha, fun a h => absurd h (Nat.not_lt_zero a), fun h => absurd h (Nat.not_lt_zero 0)⟩
  encoding h := absurd rfl h
  literal h := nomatch h
  copy h := nomatch h
  sent h := nomatch h
  done h := nomatch h

/-! ### The dictionary (40_history_buffer, 41_match_finder) -/

/-- APPEND does not overwrite an offset that is still in the window afterwards (40 R141, R145). -/
theorem histByte_hbAppend_of_window (x : Byte) {u : State} {o : Nat} (h1 : o < u.w) (h2 : u.w < o + Config.cap u.variant) :
    histByte (hbAppend x u) o = histByte u o := by
  rw [histByte_hbAppend, if_neg]
  intro h
  have := phys_inj h (by omega) h2
  omega

theorem histByte_hbAppend_self (x : Byte) (u : State) : histByte (hbAppend x u) u.w = some x := by
  rw [histByte_hbAppend, if_pos rfl]

/-- APPEND keeps the dictionary (40 R145): the window moves by one byte, and entries that stay inside keep their three bytes. -/
theorem Dictionary.hbAppend {u : State} (hd : Dictionary u) (x : Byte) (hl : u.w + 1 < Config.offLimit u.build) :
    Dictionary (hbAppend x u) where
  built := hd.built
  limit := hl
  window o ho := by
    obtain ⟨h1, h2⟩ := ho
    simp only [hbAppend_w, hbAppend_variant] at h1 h2
    by_cases hw : o = u.w
    · rw [hw, histByte_hbAppend_self]; rfl
    · rw [histByte_hbAppend_of_window x (by omega) (by omega)]
      exact hd.window o ⟨by omega, by omega⟩
  defined := hd.defined
  recorded h e he hv := Nat.le_succ_of_le (hd.recorded h e he hv)
  hashed h e he hv hin := by
    simp only [hbAppend_w, hbAppend_variant] at hin
    have hrec := hd.recorded h e he hv
    obtain ⟨x0, x1, x2, h0, h1, h2, hh⟩ := hd.hashed h e he hv (by omega)
    refine ⟨x0, x1, x2, ?_, ?_, ?_, hh⟩
    · rwa [histByte_hbAppend_of_window x (by omega) (by omega)]
    · rwa [histByte_hbAppend_of_window x (by omega) (by omega)]
    · rwa [histByte_hbAppend_of_window x (by omega) (by omega)]
  holdOnlyFront := hd.holdOnlyFront
  firstHeld := hd.firstHeld

/-- RECORD keeps the dictionary where the three bytes at the offset stand and have the hash (41 R159, R163). -/
theorem Dictionary.mfRecord {u : State} (hd : Dictionary u) {o : Nat} {x0 x1 x2 : Byte} (ho : o + 3 ≤ u.w)
    (h0 : histByte u o = some x0) (h1 : histByte u (o + 1) = some x1) (h2 : histByte u (o + 2) = some x2) :
    Dictionary (mfRecord (hash3 u.build x0 x1 x2) o u) where
  built := hd.built
  limit := hd.limit
  window := hd.window
  defined := hd.defined
  recorded h e he hv := by
    rw [mfRecord_ht, readCell_writeCell] at he
    split at he
    · cases he; exact ho
    · exact hd.recorded h e he hv
  hashed h e he hv hin := by
    rw [mfRecord_ht, readCell_writeCell] at he
    split at he
    · rename_i hh
      cases he
      exact ⟨x0, x1, x2, h0, h1, h2, hh.symm⟩
    · exact hd.hashed h e he hv hin
  holdOnlyFront := hd.holdOnlyFront
  firstHeld := hd.firstHeld

/-- RESETDICT gives the dictionary of an empty stream (44 R221), whatever was recorded. -/
theorem dictionary_resetDict {s : State} (built : Config.cap s.variant ≤ s.build.maxCap)
    (hold : s.flagsHold.compressed = false ∧ s.flagsHold.flushed = false)
    (first : s.firstPkt = true → s.flagsHold.atFront = true) : Dictionary (resetDict s) := by
  have invalid : ∀ h e, readCell h (resetDict s).ht.entries = some e → e.valid ≠ true := by
    intro h e he hv
    have := mfLookup_of_entry he hv
    rw [mfLookup_resetDict] at this
    cases this
  exact
    { built := built
      limit := Nat.two_pow_pos _
      window := fun o ho => absurd ho.1 (Nat.not_lt_zero o)
      defined := rfl
      recorded := fun h e he hv => absurd hv (invalid h e he)
      hashed := fun h e he hv => absurd hv (invalid h e he)
      holdOnlyFront := hold
      firstHeld := first }

/-- The state `u` is the pass of `s` with `p` positions of the chunk consumed (43 R196), as far as the dictionary goes. -/
structure ConsumedTo (s : State) (p : Nat) (u : State) : Prop where
  build : u.build = s.build
  variant : u.variant = s.variant
  b : u.b = s.b
  dictionary : Dictionary u
  pos : u.w = s.b + p
  stream : ∀ q, q < p → histByte u (s.b + q) = s.chunk[q]?

/-- Consuming position `p` (43 R196): the byte enters the stream, and the entry of `p − 2` is recorded with the right hash. -/
theorem ConsumedTo.teConsume {s u : State} {p : Nat} {x : Byte} (h : ConsumedTo s p u) (hx : s.chunk[p]? = some x)
    (hcap : p < Config.cap s.variant) (hl : s.b + p + 1 < Config.offLimit s.build) :
    ConsumedTo s (p + 1) (teConsume p (byteBefore s p 2) (byteBefore s p 1) x u) := by
  have happ : Dictionary (hbAppend x u) := h.dictionary.hbAppend x (by rw [h.pos, h.build]; exact hl)
  have hstream : ∀ q, q < p + 1 → histByte (hbAppend x u) (s.b + q) = s.chunk[q]? := by
    intro q hq
    by_cases hqp : q = p
    · rw [hqp, ← h.pos, histByte_hbAppend_self, hx]
    · have hw := h.pos
      rw [histByte_hbAppend_of_window x (by omega) (by rw [h.variant]; omega)]
      exact h.stream q (by omega)
  unfold Machine.teConsume
  split
  · rename_i a c ha hc
    unfold byteBefore at ha hc
    split at ha
    · rename_i h2
      rw [if_pos (by omega)] at hc
      have hw : (hbAppend x u).w = s.b + p + 1 := by rw [hbAppend_w, h.pos]
      have e0 : u.b + p - 2 = s.b + (p - 2) := by rw [h.b]; omega
      refine ⟨h.build, h.variant, h.b, ?_, hw, hstream⟩
      rw [e0]
      refine happ.mfRecord (by rw [hw]; omega) ?_ ?_ ?_
      · rw [hstream _ (by omega), ha]
      · rw [show s.b + (p - 2) + 1 = s.b + (p - 1) by omega, hstream _ (by omega), hc]
      · rw [show s.b + (p - 2) + 2 = s.b + p by omega, hstream _ (by omega), hx]
    · cases ha
  · exact ⟨h.build, h.variant, h.b, happ, by rw [hbAppend_w, h.pos]; rfl, hstream⟩

/-- Consuming `l` positions from `p` on, position by position. -/
theorem ConsumedTo.consumeSpan {s u : State} {p l : Nat} (h : ConsumedTo s p u) (hlen : p + l ≤ s.chunk.length)
    (hcap : p + l ≤ Config.cap s.variant) (hl : s.b + (p + l) < Config.offLimit s.build) :
    ConsumedTo s (p + l) (consumeSpan s p l u) := by
  induction l with
  | zero => simpa using h
  | succ l ih =>
    obtain ⟨x, hx⟩ := chunk_get hlen
    rw [consumeSpan_succ_last u hx]
    exact (ih (by omega) (by omega) (by omega)).teConsume hx (by omega) (by omega)

/-! ### The output buffer (42_bit_assembler) -/

/-- The state `u` is `s` with the bits `bs` emitted inside the buffer. -/
structure EmittedTo (s : State) (bs : List Bool) (u : State) : Prop where
  only : OnlyAssembler s u
  ready : AssemblerReady u
  appended : Appended s u bs
  room : streamPos u ≤ 8 * Config.obCap s.build s.variant
  canonical : Memory.wf u.obMem = true

theorem emittedTo_of_baEmits {es : List Emit} {s u : State} (hr : AssemblerReady s) (hc : Memory.wf s.obMem = true)
    (hroom : streamPos s ≤ 8 * Config.obCap s.build s.variant) (h : baEmits es s = .ok u) :
    EmittedTo s (emitsString es) u := by
  obtain ⟨only, ready, appended⟩ := baEmits_ok hr h
  exact ⟨only, ready, appended, by rw [appended.1]; exact baEmits_room hr h hroom, baEmits_wf h hc⟩

/-- Every byte before the cursor has a value afterwards, where it had before. -/
theorem EmittedTo.filled {s u : State} {bs : List Bool} (h : EmittedTo s bs u) (hb : s.obBits < 8)
    (hf : ∀ a, a < s.obIdx → (readCell a s.obMem).isSome) : ∀ a, a < u.obIdx → (readCell a u.obMem).isSome := by
  intro a ha
  obtain ⟨hpos, -, -, -, hkeep⟩ := h.appended
  have hend : 8 * a + 8 ≤ streamPos s + bs.length := by rw [← hpos]; unfold streamPos; omega
  by_cases hold : a < s.obIdx
  · rw [hkeep a (.inl (by rwa [streamPos_div hb]))]
    exact hf a hold
  · have hstart : streamPos s < 8 * a + 8 := by unfold streamPos; omega
    exact h.appended.isSome (by omega) (by omega) (by omega)

/-- The emits stay at addresses that exist (20_memory R60). -/
theorem EmittedTo.stores {s u : State} {bs : List Bool} (h : EmittedTo s bs u) (hs : Stores s) : Stores u := by
  have hob : ∀ a, (readCell a u.obMem).isSome → a < max s.build.obCap8K s.build.obCap64K := by
    intro a ha
    obtain ⟨hpos, -, -, -, hkeep⟩ := h.appended
    by_cases hin : streamPos s + bs.length ≤ 8 * a
    · rw [hkeep a (.inr hin)] at ha
      exact hs.obAddr a ha
    · have := h.room
      have := obCap_le_max s.build s.variant
      omega
  have hw := h.canonical
  obtain ⟨m, i, k, rfl⟩ := h.only.spelled
  exact { hs with ob := hw, obAddr := hob }

/-- The consumes stay at addresses that exist (20_memory R60, 41 R156). -/
theorem stores_consumeSpan {s u : State} {p l : Nat} (hs : Stores u) (h : p + l ≤ s.chunk.length)
    (hcap : l ≤ Config.cap u.variant) : Stores (consumeSpan s p l u) := by
  obtain ⟨hbRising, htRising⟩ := consumeSpan_rising u h hs.hb hs.ht
  obtain ⟨written, kept⟩ := consumeSpan_hbMem u h hcap
  have hbAddr : ∀ a, (readCell a (consumeSpan s p l u).hbMem).isSome → a < 65536 := by
    intro a ha
    by_cases hk : ∃ k, k < l ∧ a = phys u.variant (u.w + k)
    · obtain ⟨k, -, rfl⟩ := hk
      exact Nat.lt_of_lt_of_le (phys_lt _ _) (cap_le _)
    · rw [kept a fun k hkl he => hk ⟨k, hkl, he⟩] at ha
      exact hs.hbAddr a ha
  have htAddr := (consumeSpan_table u h).2 hs.htAddr
  rw [consumeSpan_frame] at *
  exact ⟨hbRising, hbAddr, hs.ob, hs.obAddr, htRising, htAddr⟩

/-! ### What the invariant gives inside a pass -/

theorem Inv.free_of_pass {s : State} (hi : Inv s) (hp : s.teState ≠ .idle) : s.accepted = none := by
  by_contra h
  exact hp (hi.accepting h).1

theorem Inv.sent_false {s : State} (hi : Inv s) (hm : s.teState ≠ .emitMatch) : s.offSent = false := by
  cases h : s.offSent with
  | false => rfl
  | true => exact absurd (hi.sent h) hm

theorem Inv.dictionary_of_pass {s : State} (hi : Inv s) (hp : s.teState ≠ .idle) : Dictionary s :=
  hi.dictionary (hi.encoding hp).ready

theorem Inv.table_of_pass {s : State} (hi : Inv s) (hp : s.teState ≠ .idle) : TableWellFormed s.variant (sessionTable s) :=
  hi.tables _ (hi.dictionary_of_pass hp).built

/-- Outside SCAN the whole chunk has been taken (70 R283). -/
theorem Encoding.full {s : State} (h : Encoding s) (hs : s.teState ≠ .scan) : s.chunk.length = s.n := by
  rcases Nat.lt_or_ge s.chunk.length s.n with hlt | hge
  · exact absurd (h.waiting hlt).1 hs
  · exact Nat.le_antisymm h.taken hge

theorem sentWidth_of_not_sent {s : State} (h : s.offSent = false) : sentWidth s = 0 := by simp [sentWidth, h]

/-- The cursor of a pass within its bit budget (43 R203) fits its register. -/
theorem obIdx_lt_of_budget {u : State} {n : Nat} (h : streamPos u ≤ 9 * n) (hn : n ≤ 65536) : u.obIdx < 2 ^ 17 := by
  unfold streamPos at h
  omega

theorem Inv.n_le {s : State} (hi : Inv s) (hp : s.teState ≠ .idle) : s.n ≤ 65536 :=
  Nat.le_trans (hi.encoding hp).nCap (cap_le _)

/-! ### Commands (44_session_controller) -/

/-- A word leaves the port (70 R282): the same state otherwise. -/
theorem Inv.accepts {s : State} (hi : Inv s) (idle : s.teState = .idle) (c : Word) (cs : List Word) :
    Inv { s with accepted := some c, cmdQ := cs, rspValid := false } :=
  { hi with
    accepting := fun _ => ⟨idle, rfl⟩
    widths := { hi.widths with }
    stores := { hi.stores with }
    dictionary := fun h => { hi.dictionary h with }
    resting := fun h => { hi.resting h with }
    encoding := fun h => absurd idle h
    copy := fun h => { hi.copy h with } }

/-- The accepted word is taken away to be carried out. -/
theorem Inv.withoutAccepted {s : State} (hi : Inv s) (idle : s.teState = .idle) : Inv { s with accepted := none } :=
  { hi with
    accepting := fun h => absurd rfl h
    widths := { hi.widths with }
    stores := { hi.stores with }
    dictionary := fun h => { hi.dictionary h with }
    resting := fun h => { hi.resting h with }
    encoding := fun h => absurd idle h
    copy := fun h => { hi.copy h with } }

/-- A failing command leaves all but the response (44 R230). -/
theorem Inv.fails {s : State} (hi : Inv s) (idle : s.teState = .idle) (free : s.accepted = none) (e : Status) :
    Inv (failCmd e s) :=
  { hi with
    accepting := fun h => absurd free h
    widths := { hi.widths with rspLen := Nat.two_pow_pos 17 }
    stores := { hi.stores with }
    dictionary := fun h => { hi.dictionary h with }
    resting := fun _ => { hi.resting idle with }
    encoding := fun h => absurd rfl h
    literal := fun h => (nomatch h)
    copy := fun h => (nomatch h)
    sent := fun h => absurd (hi.sent h) (by simp [idle])
    done := fun h => nomatch h }

/-- What MF.CLEAR makes of an entry (41 R160). -/
def invalidated (e : HtEntry) : HtEntry := { e with valid := false }

theorem resetDict_entries (s : State) :
    (resetDict s).ht.entries = s.ht.entries.map fun p => (p.1, invalidated p.2) := rfl

theorem stores_resetDict {s : State} (hs : Stores s) : Stores (resetDict s) :=
  { hs with
    ht := by rw [resetDict_entries]; exact rising_map invalidated _ hs.ht
    htAddr := fun h he => by
      rw [resetDict_entries, readCell_map invalidated, Option.isSome_map] at he
      exact hs.htAddr h he }

/-- What CREATE empties the dictionary of (44 R216): the state with all that it writes besides. -/
def opening (v : Variant) (s : State) : State :=
  { freeRegisters v s with
    variant := v, firstPkt := true, flagsHold := atFrontOnly, sess := .ready, spanLen := 0
    rsp := { status := .ok, flags := noFlags, len := 0 }, rspValid := true, teState := .idle }

theorem created_eq_resetDict (v : Variant) (s : State) : succeed noFlags 0 (openSession v s) = resetDict (opening v s) := rfl

theorem widths_opening {s : State} (h : Widths s) (v : Variant) : Widths (opening v s) where
  w := h.w
  b := BitVec.isLt _
  mC := BitVec.isLt _
  mD := BitVec.isLt _
  j := BitVec.isLt _
  n := BitVec.isLt _
  mLen := BitVec.isLt _
  obIdx := BitVec.isLt _
  obBits := BitVec.isLt _
  rspLen := Nat.two_pow_pos 17
  spanLen := Nat.two_pow_pos 17

theorem stores_opening {s : State} (h : Stores s) (v : Variant) : Stores (opening v s) :=
  ⟨h.hb, h.hbAddr, h.ob, h.obAddr, h.ht, h.htAddr⟩

/-- CREATE opens a session with an empty dictionary (44 R216). -/
theorem Inv.creates {s : State} (hi : Inv s) (idle : s.teState = .idle) (free : s.accepted = none) {v : Variant}
    (built : Config.cap v ≤ s.build.maxCap) : Inv (succeed noFlags 0 (openSession v s)) := by
  rw [created_eq_resetDict]
  exact
    { tables := hi.tables
      accepting := fun h => absurd free h
      widths := { widths_opening hi.widths v with w := Nat.two_pow_pos _ }
      stores := stores_resetDict (stores_opening hi.stores v)
      dictionary := fun _ => dictionary_resetDict built ⟨rfl, rfl⟩ fun _ => rfl
      resting := fun _ =>
        { noChunk := (hi.resting idle).noChunk
          noFlush := (hi.resting idle).noFlush
          front := fun _ => ⟨fun _ => rfl, fun _ => rfl⟩
          spanRead := fun a h => absurd h (Nat.not_lt_zero a)
          spanSession := fun h => absurd h (Nat.not_lt_zero 0) }
      encoding := fun h => absurd rfl h
      literal := fun h => (nomatch h)
      copy := fun h => (nomatch h)
      sent := fun h => absurd (hi.sent h) (by simp [idle])
      done := fun h => (nomatch h) }

/-- The start of a pass of `n` bytes (43 R191), from a session's state whose dictionary may just have been emptied. -/
theorem inv_startPass {s : State} {n : Nat} {f : Bool}
    (tables : ∀ v, Config.cap v ≤ s.build.maxCap → TableWellFormed v (codeTable s.build v))
    (free : s.accepted = none) (widths : Widths s) (stores : Stores s) (ready : s.sess = .ready) (dict : Dictionary s)
    (pos : 1 ≤ n) (le : n ≤ Config.cap s.variant) (limit : s.w + n < Config.offLimit s.build)
    (front : (s.firstPkt || s.flagsHold.atFront || f) = decide (s.w = 0)) : Inv (startPass n f s) where
  tables := tables
  accepting h := absurd free h
  widths :=
    { widths with
      b := widths.w
      j := Nat.two_pow_pos 17
      n := Nat.lt_of_le_of_lt (Nat.le_trans le (cap_le _)) (by decide)
      obIdx := Nat.two_pow_pos 17
      obBits := Nat.two_pow_pos 3
      spanLen := Nat.two_pow_pos 17 }
  stores := { stores with }
  dictionary _ := { dict with }
  resting h := nomatch h
  encoding _ :=
    { ready := ready
      nPos := pos
      nCap := le
      pos := rfl
      jn := Nat.zero_le _
      limit := limit
      front := front
      taken := Nat.zero_le _
      waiting := fun _ => ⟨rfl, rfl⟩
      stream := fun q hq => absurd hq (Nat.not_lt_zero q)
      assembler := ⟨Nat.zero_lt_succ 7, fun h => absurd h (Nat.not_lt_zero 0)⟩
      filled := fun a ha => absurd ha (Nat.not_lt_zero a)
      room := Nat.zero_le _
      noSpan := rfl
      noRsp := rfl
      budget := fun _ => Nat.zero_le _ }
  literal h := nomatch h
  copy h := nomatch h
  sent h := nomatch h
  done h := nomatch h

/-- An accepted COMPRESS starts its pass (44 R219): with a flush at offset 0, without one below the offset limit (R222). -/
theorem Inv.compresses {s : State} (hi : Inv s) (idle : s.teState = .idle) (free : s.accepted = none) (ready : s.sess = .ready)
    (f : Bool) {n : Nat} (pos : 1 ≤ n) (le : n ≤ Config.cap s.variant) : Inv (acceptChunk f n s) := by
  have dict := hi.dictionary ready
  unfold acceptChunk
  split
  · have := (build_bounds dict.built).2
    exact inv_startPass (s := resetDict s) hi.tables free
      { hi.widths with w := Nat.two_pow_pos _ } (stores_resetDict hi.stores) ready
      (dictionary_resetDict dict.built dict.holdOnlyFront dict.firstHeld) pos le
      (by simp only [resetDict_w, resetDict_build]; omega) (by simp)
  · rename_i noFlush
    simp only [Bool.or_eq_true, not_or, policyFlush, decide_eq_true_eq] at noFlush
    refine inv_startPass hi.tables free hi.widths hi.stores ready dict pos le (by omega) ?_
    have front := (hi.resting idle).front ready
    have first := dict.firstHeld
    rw [Bool.eq_iff_iff]
    simp only [Bool.or_false, Bool.or_eq_true, decide_eq_true_eq]
    exact ⟨fun h => front.1 (h.elim first id), fun h => .inr (front.2 h)⟩

theorem Inv.command {s t : State} {c : Word} (hi : Inv s) (idle : s.teState = .idle) (free : s.accepted = none)
    (h : CommandTo c s t) : Inv t := by
  cases h with
  | fails e error next => subst next; exact hi.fails idle free e
  | creates v absent fitsBuild next => subst next; exact hi.creates idle free fitsBuild
  | compresses f len ready pos le next => subst next; exact hi.compresses idle free ready f pos le
  | destroys word next =>
    subst next
    rw [destroyed_eq_cleared]
    exact inv_cleared hi _ (by decide) _ fun h => absurd free h

/-! ### SCAN (43 R192, 70 R283) -/

/-- The input transfer only lengthens the chunk, up to `n` (70 R283). -/
theorem Inv.takes {s : State} (hi : Inv s) (scan : s.teState = .scan) (short : s.chunk.length < s.n) : Inv (takeInput s) := by
  have hp : s.teState ≠ .idle := by simp [scan]
  have enc := hi.encoding hp
  have hj := (enc.waiting short).2
  exact
    { hi with
      widths := { hi.widths with }
      stores := { hi.stores with }
      dictionary := fun h => { hi.dictionary h with }
      resting := fun h => absurd h hp
      encoding := fun _ =>
        { enc with
          taken := by
            simp only [takeInput_chunk, takeInput_n, List.length_append, List.length_take]
            omega
          waiting := fun _ => ⟨scan, hj⟩
          stream := fun q hq => by
            rw [takeInput_j, hj] at hq
            exact absurd hq (Nat.not_lt_zero q) }
      copy := fun h => absurd (scan.symm.trans h) (by decide) }

/-- TE.FINALIZE closes the trailing byte (43 R197): the bits emitted, rounded up to bytes. -/
theorem Inv.finalizes {s : State} (hi : Inv s) (scan : s.teState = .scan) (atEnd : s.j = s.n) : Inv (teFinalize s) := by
  have hp : s.teState ≠ .idle := by simp [scan]
  have enc := hi.encoding hp
  have hb := enc.assembler.1
  have budget := enc.budget (by simp [scan])
  rw [sentWidth_of_not_sent (hi.sent_false (by simp [scan])), Nat.add_zero, atEnd] at budget
  have hn := hi.n_le hp
  have room := enc.room
  have trailing : ∀ a, a < (streamPos s + 7) / 8 → (readCell a s.obMem).isSome := by
    intro a ha
    unfold streamPos at ha
    by_cases hlt : a < s.obIdx
    · exact enc.filled a hlt
    · obtain ⟨x, hx, -⟩ := enc.assembler.2 (by omega)
      have : a = s.obIdx := by omega
      rw [this, hx]
      rfl
  unfold teFinalize
  rw [baFinish_eq hb]
  exact
    { tables := hi.tables
      accepting := fun h => absurd (hi.free_of_pass hp) h
      widths :=
        { hi.widths with
          obIdx := by simp only; omega
          obBits := Nat.two_pow_pos 3 }
      stores := { hi.stores with }
      dictionary := fun h => { hi.dictionary h with }
      resting := fun h => (nomatch h)
      encoding := fun _ =>
        { enc with
          waiting := fun h => absurd (enc.waiting h).2 (by have := enc.nPos; omega)
          assembler := ⟨Nat.zero_lt_succ 7, fun h => absurd h (Nat.not_lt_zero 0)⟩
          filled := trailing
          room := by simp only [streamPos]; unfold streamPos at room; omega
          budget := fun h => absurd rfl h }
      literal := fun h => (nomatch h)
      copy := fun h => (nomatch h)
      sent := fun h => absurd h (by simp [hi.sent_false (show s.teState ≠ .emitMatch by simp [scan])])
      done := fun _ => ⟨atEnd, rfl, by simp only; omega⟩ }

/-- The selector chose a literal (43 R193): only the sequencing state changes. -/
theorem Inv.selectsLiteral {s : State} (hi : Inv s) (scan : s.teState = .scan) (full : s.n ≤ s.chunk.length)
    (inside : s.j ≠ s.n) : Inv { s with teState := .emitLiteral } := by
  have hp : s.teState ≠ .idle := by simp [scan]
  have enc := hi.encoding hp
  exact
    { tables := hi.tables
      accepting := fun h => absurd (hi.free_of_pass hp) h
      widths := { hi.widths with }
      stores := { hi.stores with }
      dictionary := fun h => { hi.dictionary h with }
      resting := fun h => (nomatch h)
      encoding := fun _ =>
        { enc with
          waiting := fun h => absurd h (Nat.not_lt.2 full)
          budget := fun _ => enc.budget (by simp [scan]) }
      literal := fun _ => Nat.lt_of_le_of_ne enc.jn inside
      copy := fun h => (nomatch h)
      sent := fun h => absurd (hi.sent h) (by simp [scan])
      done := fun h => (nomatch h) }

/-- A copy that the selector chose is a verified match inside the dictionary and the chunk (43 R193, 41 R158 to R164). -/
theorem matched_of_teSelect {s : State} {c d l : Nat} (hd : Dictionary s) (hjn : s.j ≤ s.n)
    (sel : teSelect s = .ok (.copy c d l)) : Matched { s with mC := c, mD := d, mLen := l, teState := .emitMatch } := by
  obtain ⟨b0, b1, b2, rest, h3, -, found, before, near, extended, long, rfl⟩ := teSelect_copy sel
  obtain ⟨e, listed, valid, rfl⟩ := mfLookup_some found
  have recorded := hd.recorded _ e listed valid
  obtain ⟨within, verified, -⟩ := matchRun_spec extended
  rw [List.length_take] at within
  have bound : l ≤ min (s.n - s.j) (Config.maxLen s.build s.variant) := Nat.le_trans within (Nat.min_le_left _ _)
  exact
    { dMin := by simp only; omega
      dMax := near
      origin := by simp only; omega
      lMin := long
      lMax := by simp only; omega
      inside := by simp only; omega
      verified := fun i hl => by
        obtain ⟨x, byte, source⟩ := verified i hl
        rw [List.getElem?_take_of_lt (Nat.lt_of_lt_of_le hl bound), List.getElem?_drop] at byte
        exact ⟨x, byte, source⟩ }

/-- The selector chose a copy (43 R193). -/
theorem Inv.selectsCopy {s : State} (hi : Inv s) (scan : s.teState = .scan) (full : s.n ≤ s.chunk.length) {c d l : Nat}
    (sel : teSelect s = .ok (.copy c d l)) : Inv { s with mC := c, mD := d, mLen := l, teState := .emitMatch } := by
  have hp : s.teState ≠ .idle := by simp [scan]
  have enc := hi.encoding hp
  have hn := hi.n_le hp
  have mat := matched_of_teSelect (hi.dictionary_of_pass hp) enc.jn sel
  have origin := mat.origin
  have dMax := mat.dMax
  have inside := mat.inside
  simp only at origin dMax inside
  have hw := hi.widths.w
  exact
    { tables := hi.tables
      accepting := fun h => absurd (hi.free_of_pass hp) h
      widths :=
        { hi.widths with
          mC := by simp only; omega
          mD := by
            rw [← cap_eq_two_pow_offw]
            exact Nat.lt_of_le_of_lt dMax (maxOff_lt_cap _ _)
          mLen := by simp only; omega }
      stores := { hi.stores with }
      dictionary := fun h => { hi.dictionary h with }
      resting := fun h => (nomatch h)
      encoding := fun _ =>
        { enc with
          waiting := fun h => absurd h (Nat.not_lt.2 full)
          budget := fun _ => by
            have budget := enc.budget (by simp [scan])
            rw [sentWidth_of_not_sent (hi.sent_false (by simp [scan]))] at budget
            exact Nat.le_trans budget (Nat.add_le_add_left (Nat.zero_le _) _) }
      literal := fun h => (nomatch h)
      copy := fun _ => mat
      sent := fun _ => rfl
      done := fun h => (nomatch h) }

/-! ### Tokens (43 R194, R195) -/

/-- In a pass, the emits that complete. -/
theorem Inv.emitted {s u : State} {es : List Emit} (hi : Inv s) (hp : s.teState ≠ .idle) (h : baEmits es s = .ok u) :
    EmittedTo s (emitsString es) u :=
  emittedTo_of_baEmits (hi.encoding hp).assembler hi.stores.ob (hi.encoding hp).room h

/-- Emits that do not fit leave no session contents (60 R248). -/
theorem Inv.overflows {s : State} (hi : Inv s) (hp : s.teState ≠ .idle) : Inv (raiseOverflow s) := by
  rw [raiseOverflow_eq_cleared]
  exact inv_cleared hi _ (by decide) _ fun h => absurd (hi.free_of_pass hp) h

/-- After its emits a token's consumes begin where the pass stands. -/
theorem Inv.consumedTo_of_emitted {s u : State} (hi : Inv s) (hp : s.teState ≠ .idle) (h : OnlyAssembler s u) :
    ConsumedTo s s.j u := by
  have enc := hi.encoding hp
  obtain ⟨m, i, k, rfl⟩ := h.spelled
  exact ⟨rfl, rfl, rfl, { hi.dictionary_of_pass hp with }, enc.pos, enc.stream⟩

theorem OnlyAssembler.consumeFromJ_eq {s u : State} (h : OnlyAssembler s u) (l : Nat) :
    consumeFromJ l u = consumeSpan s s.j l u := by
  obtain ⟨m, i, k, rfl⟩ := h.spelled
  rfl

/-- A token that is over (43 R194 to R196): its last emits within 9 bits for each of its `l` positions (R203), then its consumes. -/
theorem Inv.finishes {s u : State} {l : Nat} {bs : List Bool} (hi : Inv s) (hp : s.teState ≠ .idle) (hs : s.teState ≠ .scan)
    (hnd : s.teState ≠ .done) (he : EmittedTo s bs u) (cost : sentWidth s + bs.length ≤ 9 * l) (inside : s.j + l ≤ s.n) :
    Inv { consumeFromJ l u with j := s.j + l, teState := .scan, offSent := false } := by
  have enc := hi.encoding hp
  have hn := hi.n_le hp
  have full := enc.full hs
  have nCap := enc.nCap
  have limit := enc.limit
  have budget : streamPos u ≤ 9 * (s.j + l) := by
    have := enc.budget hnd
    rw [he.appended.1]
    omega
  have obIdx : u.obIdx < 2 ^ 17 := obIdx_lt_of_budget (n := s.n) (by omega) hn
  have filled := he.filled enc.assembler.1 enc.filled
  have start := hi.consumedTo_of_emitted hp he.only
  have consumed := start.consumeSpan (l := l) (by omega) (by omega) (by omega)
  have stores := stores_consumeSpan (s := s) (p := s.j) (l := l) (he.stores hi.stores) (by omega)
    (by rw [start.variant]; omega)
  have ready := he.ready
  have room := he.room
  have frame := consumeSpan_frame s s.j l u
  have dict := consumed.dictionary
  rw [he.only.consumeFromJ_eq]
  obtain ⟨m, i, k, rfl⟩ := he.only.spelled
  rw [frame] at consumed stores dict ⊢
  exact
    { tables := hi.tables
      accepting := fun h => absurd (hi.free_of_pass hp) h
      widths :=
        { hi.widths with
          w := dict.limit
          j := by simp only; omega
          obIdx := obIdx
          obBits := ready.1 }
      stores := { stores with }
      dictionary := fun _ => { dict with }
      resting := fun h => (nomatch h)
      encoding := fun _ =>
        { ready := enc.ready
          nPos := enc.nPos
          nCap := enc.nCap
          pos := consumed.pos
          jn := inside
          limit := enc.limit
          front := enc.front
          taken := enc.taken
          waiting := fun h => absurd full (Nat.ne_of_lt h)
          stream := consumed.stream
          assembler := ready
          filled := filled
          room := room
          noSpan := enc.noSpan
          noRsp := enc.noRsp
          budget := fun _ => budget }
      literal := fun h => (nomatch h)
      copy := fun h => (nomatch h)
      sent := fun h => (nomatch h)
      done := fun h => (nomatch h) }

theorem Matched.codesOff {s : State} (h : Matched s) : CodesOff (sessionTable s) s.mD :=
  ⟨Nat.le_trans (by decide) h.dMin, h.dMax⟩

theorem Matched.codesLen {s : State} (h : Matched s) : CodesLen (sessionTable s) s.mLen := ⟨h.lMin, h.lMax⟩

/-- The offset code of a copy token is emitted (43 R195), at most the share of the budget that R101 leaves it. -/
theorem Inv.offset {s u : State} (hi : Inv s) (mat : s.teState = .emitMatch) (first : s.offSent = false)
    (he : EmittedTo s (emitsString ((sessionTable s).off s.mD)) u) : Inv { u with offSent := true } := by
  have hp : s.teState ≠ .idle := by simp [mat]
  have enc := hi.encoding hp
  have hm := hi.copy mat
  have hn := hi.n_le hp
  have cheap := (hi.table_of_pass hp).copyCheap _ _ hm.codesOff hm.codesLen
  have inside := hm.inside
  have budget : streamPos u ≤ 9 * s.j + (emitsString ((sessionTable s).off s.mD)).length := by
    have := enc.budget (by simp [mat])
    rw [sentWidth_of_not_sent first] at this
    rw [he.appended.1]
    omega
  have filled := he.filled enc.assembler.1 enc.filled
  have stores := he.stores hi.stores
  have ready := he.ready
  have room := he.room
  have obIdx : u.obIdx < 2 ^ 17 := obIdx_lt_of_budget (n := s.n) (by omega) hn
  obtain ⟨m, i, k, rfl⟩ := he.only.spelled
  exact
    { tables := hi.tables
      accepting := hi.accepting
      widths := { hi.widths with obIdx := obIdx, obBits := ready.1 }
      stores := { stores with }
      dictionary := fun h => { hi.dictionary h with }
      resting := fun h => absurd h hp
      encoding := fun _ => { enc with assembler := ready, filled := filled, room := room, budget := fun _ => budget }
      literal := hi.literal
      copy := fun _ => { hm with }
      sent := fun _ => mat
      done := fun h => absurd (mat.symm.trans h) (by decide) }

theorem Inv.emitsLiteral {s t : State} (hi : Inv s) (lit : s.teState = .emitLiteral) {x : Byte}
    (ends : TokenEnd ((sessionTable s).lit x) s
      (fun u => { consumeFromJ 1 u with j := s.j + 1, teState := .scan, offSent := false }) t) : Inv t := by
  have hp : s.teState ≠ .idle := by simp [lit]
  cases ends with
  | completes u emitted next =>
    subst next
    have cost := (hi.table_of_pass hp).litWidth x
    have unsent := sentWidth_of_not_sent (hi.sent_false (by simp [lit]))
    exact hi.finishes hp (by simp [lit]) (by simp [lit]) (hi.emitted hp emitted) (by omega) (hi.literal lit)
  | overflows full next => subst next; exact hi.overflows hp

theorem Inv.emitsOffset {s t : State} (hi : Inv s) (mat : s.teState = .emitMatch) (first : s.offSent = false)
    (ends : TokenEnd ((sessionTable s).off s.mD) s (fun u => { u with offSent := true }) t) : Inv t := by
  have hp : s.teState ≠ .idle := by simp [mat]
  cases ends with
  | completes u emitted next => subst next; exact hi.offset mat first (hi.emitted hp emitted)
  | overflows full next => subst next; exact hi.overflows hp

theorem Inv.emitsLength {s t : State} (hi : Inv s) (mat : s.teState = .emitMatch) (second : s.offSent = true)
    (ends : TokenEnd ((sessionTable s).len s.mLen) s
      (fun u => { consumeFromJ s.mLen u with j := s.j + s.mLen, teState := .scan, offSent := false }) t) : Inv t := by
  have hp : s.teState ≠ .idle := by simp [mat]
  have hm := hi.copy mat
  cases ends with
  | completes u emitted next =>
    subst next
    have cheap := (hi.table_of_pass hp).copyCheap _ _ hm.codesOff hm.codesLen
    have sent : sentWidth s = (emitsString ((sessionTable s).off s.mD)).length := by simp [sentWidth, second]
    exact hi.finishes hp (by simp [mat]) (by simp [mat]) (hi.emitted hp emitted) (by omega) hm.inside
  | overflows full next => subst next; exact hi.overflows hp

/-! ### The commit (44 R219, R223 to R228) -/

/-- The raw copy stays at addresses that exist, and gives each of them a value (44 R224). -/
theorem stores_writeRun {s : State} (hs : Stores s) (h : s.chunk.length ≤ Config.obCap s.build s.variant) :
    Stores { s with obMem := writeRun 0 s.chunk s.obMem } :=
  { hs with
    ob := writeRun_wf _ _ _ hs.ob
    obAddr := fun a ha => by
      have := obCap_le_max s.build s.variant
      by_cases hin : a < s.chunk.length
      · exact Nat.lt_of_lt_of_le hin (Nat.le_trans h this)
      · rw [(writeRun_spec s.chunk 0 s.obMem).2 a (.inr (by omega))] at ha
        exact hs.obAddr a ha }

/-- The commit of a pass (44 R219), from a state with the span in place: what is left is the session at rest. -/
theorem inv_commitResult {s : State} {p : Bool} {len : Nat}
    (tables : ∀ v, Config.cap v ≤ s.build.maxCap → TableWellFormed v (codeTable s.build v))
    (free : s.accepted = none) (widths : Widths s) (stores : Stores s) (ready : s.sess = .ready) (dict : Dictionary s)
    (unsent : s.offSent = false) (hlen : len < 2 ^ 17) (span : ∀ a, a < len → (readCell a s.obMem).isSome)
    (front : p = true ↔ s.w = 0) : Inv (commitResult p len s) where
  tables := tables
  accepting h := absurd free h
  widths := { widths with rspLen := hlen, spanLen := hlen }
  stores := { stores with }
  dictionary _ :=
    { dict with
      holdOnlyFront := by cases p <;> exact ⟨rfl, rfl⟩
      firstHeld := fun h => (nomatch h) }
  resting _ :=
    { noChunk := rfl
      noFlush := rfl
      front := fun _ => by rw [commitResult_w, ← front]; cases p <;> simp [atFrontOnly, noFlags]
      spanRead := span
      spanSession := fun _ => ready }
  encoding h := absurd rfl h
  literal h := nomatch h
  copy h := nomatch h
  sent h := absurd (unsent.symm.trans h) (by decide)
  done h := nomatch h

theorem Inv.passes {s : State} (hi : Inv s) (isDone : s.teState = .done) (room : s.n ≤ Config.obCap s.build s.variant) :
    Inv (commitResult true s.n (resetDict { s with obMem := writeRun 0 s.chunk s.obMem })) := by
  have hp : s.teState ≠ .idle := by simp [isDone]
  have enc := hi.encoding hp
  have full := enc.full (by simp [isDone])
  have dict := hi.dictionary_of_pass hp
  refine inv_commitResult hi.tables (hi.free_of_pass hp) { hi.widths with w := Nat.two_pow_pos _ }
    (stores_resetDict (stores_writeRun hi.stores (by omega))) enc.ready
    (dictionary_resetDict dict.built dict.holdOnlyFront dict.firstHeld) (hi.sent_false (by simp [isDone])) hi.widths.n
    (fun a ha => ?_) (by simp)
  have copied := (writeRun_spec s.chunk 0 s.obMem).1 a (by omega)
  rw [Nat.zero_add] at copied
  rw [resetDict_obMem, copied, List.getElem?_eq_getElem (by omega)]
  rfl

theorem Inv.delivers {s : State} (hi : Inv s) (isDone : s.teState = .done) : Inv (commitResult false s.obIdx s) := by
  have hp : s.teState ≠ .idle := by simp [isDone]
  have enc := hi.encoding hp
  have nonempty : s.w ≠ 0 := by
    have := enc.pos
    have := (hi.done isDone).1
    have := enc.nPos
    omega
  exact inv_commitResult hi.tables (hi.free_of_pass hp) hi.widths hi.stores enc.ready (hi.dictionary_of_pass hp)
    (hi.sent_false (by simp [isDone])) hi.widths.obIdx enc.filled (by simp [nonempty])

/-! ### Every step -/

/-- Settles O48, by the cases of a step. -/
theorem everyStepKeepsTheInvariant : Obligations.EveryStepKeepsTheInvariant := by
  unfold Obligations.EveryStepKeepsTheInvariant
  intro s t hi h
  cases step_cases h with
  | reset pin next =>
    rw [next, hardReset_eq_cleared]
    exact inv_cleared hi _ (by decide) _ fun h => absurd rfl h
  | waits pin idle free empty next => rw [next]; exact hi
  | accepts pin idle free c cs queue next => rw [next]; exact hi.accepts idle c cs
  | command pin idle c taken next => exact (hi.withoutAccepted idle).command idle rfl next
  | takes pin scan short next => rw [next]; exact hi.takes scan short
  | finalizes pin scan full atEnd next => rw [next]; exact hi.finalizes scan atEnd
  | literal pin scan full inside sel next => rw [next]; exact hi.selectsLiteral scan full inside
  | copy pin scan full inside c d l sel next => rw [next]; exact hi.selectsCopy scan full sel
  | emitsLiteral pin lit x byte ends => exact hi.emitsLiteral lit ends
  | emitsOffset pin mat first ends => exact hi.emitsOffset mat first ends
  | emitsLength pin mat second inside ends => exact hi.emitsLength mat second ends
  | passes pin isDone larger room next => rw [next]; exact hi.passes isDone room
  | delivers pin isDone smaller next => rw [next]; exact hi.delivers isDone

end Sys2Proof.Safety
end

section
/-! SUPPORT. No step reads an unspecified value (00_scope R11, 10_state R55): each operation, from two states that agree on what it may
read, answers two such states or the same stop. -/

namespace Sys2Proof.Safety

open Sys2Proof.Machine

/-! ### The parts of `Alike` -/

/-- What every state shows: the host's side, the response, the session state, the sequencing state, the span. -/
structure AlikeFrame (s t : State) : Prop where
  build : s.build = t.build
  rst : s.rst = t.rst
  accepted : s.accepted = t.accepted
  cmdQ : s.cmdQ = t.cmdQ
  inQ : s.inQ = t.inQ
  obRaddr : s.obRaddr = t.obRaddr
  rspValid : s.rspValid = t.rspValid
  rsp : s.rsp = t.rsp
  sess : s.sess = t.sess
  teState : s.teState = t.teState
  spanLen : s.spanLen = t.spanLen
  span : ∀ a, a < s.spanLen → readCell a s.obMem = readCell a t.obMem

/-- What a session shows: its registers, its window, its table. -/
structure AlikeSession (s t : State) : Prop where
  variant : s.variant = t.variant
  firstPkt : s.firstPkt = t.firstPkt
  flagsHold : s.flagsHold = t.flagsHold
  w : s.w = t.w
  window : ∀ o, InWindow s o → histByte s o = histByte t o
  lookup : ∀ h, mfLookup h s = mfLookup h t

/-- What a COMPRESS in progress shows: its registers, the chunk, the bytes emitted. -/
structure AlikePass (s t : State) : Prop where
  j : s.j = t.j
  n : s.n = t.n
  b : s.b = t.b
  chunk : s.chunk = t.chunk
  doFlush : s.doFlush = t.doFlush
  offSent : s.offSent = t.offSent
  obIdx : s.obIdx = t.obIdx
  obBits : s.obBits = t.obBits
  emitted : ∀ a, a < s.obIdx ∨ (a = s.obIdx ∧ 0 < s.obBits) → readCell a s.obMem = readCell a t.obMem

/-- The match registers agree. -/
structure AlikeMatch (s t : State) : Prop where
  mC : s.mC = t.mC
  mD : s.mD = t.mD
  mLen : s.mLen = t.mLen

theorem Alike.frame {s t : State} (h : Alike s t) : AlikeFrame s t := { h with }

theorem Alike.session {s t : State} (h : Alike s t) (hs : s.sess = .ready ∨ s.teState ≠ .idle) : AlikeSession s t :=
  ⟨h.variant hs, h.firstPkt hs, h.flagsHold hs, h.w hs, h.window hs, h.lookup hs⟩

theorem Alike.pass {s t : State} (h : Alike s t) (hp : s.teState ≠ .idle) : AlikePass s t :=
  ⟨h.j hp, h.n hp, h.b hp, h.chunk hp, h.doFlush hp, h.offSent hp, h.obIdx hp, h.obBits hp, h.emitted hp⟩

theorem Alike.matches {s t : State} (h : Alike s t) (hm : s.teState = .emitMatch) : AlikeMatch s t :=
  ⟨h.mC hm, h.mD hm, h.mLen hm⟩

/-- Alike in a pass: all parts agree, the match registers in EMIT_MATCH. -/
theorem alike_of_pass {s t : State} (f : AlikeFrame s t) (d : AlikeSession s t) (p : AlikePass s t)
    (m : s.teState = .emitMatch → AlikeMatch s t) : Alike s t :=
  { f with
    variant := fun _ => d.variant
    firstPkt := fun _ => d.firstPkt
    flagsHold := fun _ => d.flagsHold
    w := fun _ => d.w
    window := fun _ => d.window
    lookup := fun _ => d.lookup
    j := fun _ => p.j
    n := fun _ => p.n
    b := fun _ => p.b
    chunk := fun _ => p.chunk
    doFlush := fun _ => p.doFlush
    offSent := fun _ => p.offSent
    obIdx := fun _ => p.obIdx
    obBits := fun _ => p.obBits
    emitted := fun _ => p.emitted
    mC := fun hm => (m hm).mC
    mD := fun hm => (m hm).mD
    mLen := fun hm => (m hm).mLen }

/-- Alike in IDLE: the per-call registers do not count, and the session's elements only where there is a session. -/
theorem alike_of_idle {s t : State} (f : AlikeFrame s t) (idle : s.teState = .idle)
    (d : s.sess = .ready → AlikeSession s t) : Alike s t := by
  have session : s.sess = .ready ∨ s.teState ≠ .idle → AlikeSession s t := fun h => d (h.resolve_right fun hn => hn idle)
  have noPass : ∀ {P : Prop}, s.teState ≠ .idle → P := fun hn => absurd idle hn
  have noMatch : ∀ {P : Prop}, s.teState = .emitMatch → P := fun hm => absurd (idle.symm.trans hm) (by decide)
  exact
    { f with
      variant := fun h => (session h).variant
      firstPkt := fun h => (session h).firstPkt
      flagsHold := fun h => (session h).flagsHold
      w := fun h => (session h).w
      window := fun h => (session h).window
      lookup := fun h => (session h).lookup
      j := noPass
      n := noPass
      b := noPass
      chunk := noPass
      doFlush := noPass
      offSent := noPass
      obIdx := noPass
      obBits := noPass
      emitted := noPass
      mC := noMatch
      mD := noMatch
      mLen := noMatch }

/-- States without contents are alike, whatever free values they drew. -/
theorem alike_cleared {s t : State} (f : AlikeFrame s t) (v v' : Variant) {a : Sess} (ha : a ≠ .ready) (acc : Option Word)
    (e : Status) (valid : Bool) : Alike (cleared v a acc e valid s) (cleared v' a acc e valid t) :=
  alike_of_idle
    { f with
      accepted := rfl
      rspValid := rfl
      rsp := rfl
      sess := rfl
      teState := rfl
      spanLen := rfl
      span := fun _ _ => rfl }
    rfl fun h => absurd h ha

theorem alike_hardReset {s t : State} (f : AlikeFrame s t) : Alike (hardReset s) (hardReset t) := by
  rw [hardReset_eq_cleared, hardReset_eq_cleared]
  exact alike_cleared f _ _ (by decide) _ _ _

theorem alike_raiseOverflow {s t : State} (f : AlikeFrame s t) : Alike (raiseOverflow s) (raiseOverflow t) := by
  rw [raiseOverflow_eq_cleared, raiseOverflow_eq_cleared, ← f.accepted]
  exact alike_cleared f _ _ (by decide) _ _ _

theorem alike_destroyed {s t : State} (f : AlikeFrame s t) :
    Alike (succeed noFlags 0 (dropSession s)) (succeed noFlags 0 (dropSession t)) := by
  rw [destroyed_eq_cleared, destroyed_eq_cleared, ← f.accepted]
  exact alike_cleared f _ _ (by decide) _ _ _

/-! ### The dictionary -/

theorem AlikeSession.inWindow {s t : State} (h : AlikeSession s t) (o : Nat) : InWindow s o ↔ InWindow t o := by
  unfold InWindow
  rw [h.w, h.variant]

/-- HB.READ faults on both sides or answers the same byte (40 R143). -/
theorem AlikeSession.hbRead {s t : State} (h : AlikeSession s t) (o : Nat) : hbRead o s = hbRead o t := by
  by_cases hw : InWindow s o
  · have same := h.window o hw
    unfold histByte at same
    have hw' := (h.inWindow o).1 hw
    unfold InWindow at hw hw'
    simp only [Machine.hbRead, if_pos hw, if_pos hw', same]
  · rw [hbRead_outside hw, hbRead_outside fun k => hw ((h.inWindow o).2 k)]

theorem AlikeSession.resetDict {s t : State} (h : AlikeSession s t) : AlikeSession (resetDict s) (resetDict t) where
  variant := h.variant
  firstPkt := h.firstPkt
  flagsHold := h.flagsHold
  w := rfl
  window o ho := absurd ho.1 (Nat.not_lt_zero o)
  lookup k := by rw [mfLookup_resetDict, mfLookup_resetDict]

theorem AlikeSession.hbAppend {s t : State} (h : AlikeSession s t) (x : Byte) :
    AlikeSession (hbAppend x s) (hbAppend x t) where
  variant := h.variant
  firstPkt := h.firstPkt
  flagsHold := h.flagsHold
  w := by rw [hbAppend_w, hbAppend_w, h.w]
  window o ho := by
    obtain ⟨below, above⟩ := ho
    simp only [hbAppend_w, hbAppend_variant] at below above
    rw [histByte_hbAppend, histByte_hbAppend, ← h.variant, ← h.w]
    split
    · rfl
    · rename_i other
      have : o ≠ s.w := fun he => other (by rw [he])
      exact h.window o ⟨by omega, by omega⟩
  lookup := h.lookup

theorem AlikeSession.mfRecord {s t : State} (h : AlikeSession s t) (k o : Nat) :
    AlikeSession (mfRecord k o s) (mfRecord k o t) where
  variant := h.variant
  firstPkt := h.firstPkt
  flagsHold := h.flagsHold
  w := h.w
  window := h.window
  lookup i := by rw [mfLookup_mfRecord, mfLookup_mfRecord, h.lookup]

theorem AlikeSession.teConsume {s t : State} (h : AlikeSession s t) (build : s.build = t.build) (b : s.b = t.b) (p : Nat)
    (x2 x1 : Option Byte) (x : Byte) : AlikeSession (teConsume p x2 x1 x s) (teConsume p x2 x1 x t) := by
  unfold Machine.teConsume
  split
  · rw [build, b]
    exact (h.hbAppend x).mfRecord _ _
  · exact h.hbAppend x

theorem AlikeSession.teConsumeRun {s t : State} (h : AlikeSession s t) (build : s.build = t.build) (b : s.b = t.b) (p : Nat)
    (x2 x1 : Option Byte) (xs : List Byte) : AlikeSession (teConsumeRun p x2 x1 xs s) (teConsumeRun p x2 x1 xs t) := by
  induction xs generalizing p x2 x1 s t with
  | nil => exact h
  | cons x xs ih => exact ih (h.teConsume build b p x2 x1 x) (by simp [build]) (by simp [b]) (p + 1) x1 (some x)

theorem AlikeSession.consumeFromJ {s t : State} (h : AlikeSession s t) (build : s.build = t.build) (p : AlikePass s t)
    (l : Nat) : AlikeSession (consumeFromJ l s) (consumeFromJ l t) := by
  unfold Machine.consumeFromJ byteBefore
  rw [← p.j, ← p.chunk]
  exact h.teConsumeRun build p.b _ _ _ _

/-! ### The selector (43 R193) -/

theorem srcByte_alike {s t : State} (d : AlikeSession s t) (p : AlikePass s t) (o : Nat) : srcByte s o = srcByte t o := by
  unfold srcByte
  rw [d.w, d.hbRead, p.chunk, p.b]

theorem matchRun_alike {s t : State} (d : AlikeSession s t) (p : AlikePass s t) (o : Nat) (ys : List Byte) :
    matchRun s o ys = matchRun t o ys := by
  induction ys generalizing o with
  | nil => rfl
  | cons y ys ih => simp only [matchRun, srcByte_alike d p, ih]

theorem mfExtend_alike {s t : State} (build : s.build = t.build) (d : AlikeSession s t) (p : AlikePass s t) (c : Nat) :
    mfExtend c s = mfExtend c t := by
  unfold mfExtend
  rw [matchRun_alike d p, p.chunk, p.j, p.n, build, d.variant]

theorem served_alike {s t : State} (build : s.build = t.build) (d : AlikeSession s t) (c : Nat) : served c s = served c t := by
  unfold served
  rw [d.w, build, d.variant]

theorem teSelect_alike {s t : State} (build : s.build = t.build) (d : AlikeSession s t) (p : AlikePass s t) :
    teSelect s = teSelect t := by
  unfold teSelect
  simp only [mfExtend_alike build d p, served_alike build d, d.lookup, p.chunk, p.j, p.n, build, d.variant, d.w]

/-! ### The Bit Assembler (42_bit_assembler) -/

/-- What an emit may read of the output buffer, and what the host may. -/
structure AlikeBuffer (s t : State) : Prop where
  cap : Config.obCap s.build s.variant = Config.obCap t.build t.variant
  obIdx : s.obIdx = t.obIdx
  obBits : s.obBits = t.obBits
  emitted : ∀ a, a < s.obIdx ∨ (a = s.obIdx ∧ 0 < s.obBits) → readCell a s.obMem = readCell a t.obMem
  spanLen : s.spanLen = t.spanLen
  span : ∀ a, a < s.spanLen → readCell a s.obMem = readCell a t.obMem

/-- Two answers of an operation on the buffer: alike states, or the same error. -/
def AlikeEnd {ε : Type} : Except ε State → Except ε State → Prop
  | .ok u, .ok v => AlikeBuffer u v
  | .error e, .error f => e = f
  | _, _ => False

/-- The same byte written on both sides keeps agreement, at that address and at all others. -/
theorem readCell_writeCell_alike {a k : Nat} {m m' : Memory} (x : Byte) (h : a ≠ k → readCell a m = readCell a m') :
    readCell a (writeCell k x m) = readCell a (writeCell k x m') := by
  rw [readCell_writeCell, readCell_writeCell]
  split
  · rfl
  · exact h ‹_›

/-- The buffer written anew on both sides, where the bytes that may be read agree. -/
theorem AlikeBuffer.advance {s t : State} (h : AlikeBuffer s t) {m m' : Memory} {i k : Nat}
    (agree : ∀ a, a < i ∨ (a = i ∧ 0 < k) ∨ a < s.spanLen → readCell a m = readCell a m') :
    AlikeBuffer { s with obMem := m, obIdx := i, obBits := k } { t with obMem := m', obIdx := i, obBits := k } :=
  { h with
    obIdx := rfl
    obBits := rfl
    emitted := fun a ha => agree a (ha.imp_right .inl)
    span := fun a ha => agree a (.inr (.inr ha)) }

/-- One bit (42 R177) depends on the trailing byte only where the cursor is inside it. -/
theorem emitBit_alike (bit : Bool) {s t : State} (h : AlikeBuffer s t) : AlikeEnd (emitBit bit s) (emitBit bit t) := by
  have known : ∀ a, a < s.obIdx ∨ a < s.spanLen ∨ a = s.obIdx → (a = s.obIdx → 0 < s.obBits) →
      readCell a s.obMem = readCell a t.obMem := by
    intro a ha inside
    rcases ha with before | inSpan | trailing
    · exact h.emitted a (.inl before)
    · exact h.span a inSpan
    · exact h.emitted a (.inr ⟨trailing, inside trailing⟩)
  have opened : ∀ a, a < s.obIdx ∨ a < s.spanLen ∨ a = s.obIdx →
      readCell a (if s.obBits = 0 then writeCell s.obIdx 0#8 s.obMem else s.obMem) =
        readCell a (if s.obBits = 0 then writeCell s.obIdx 0#8 t.obMem else t.obMem) := by
    intro a ha
    split
    · exact readCell_writeCell_alike _ fun other => known a ha fun same => absurd same other
    · exact known a ha fun _ => by omega
  have trailing := opened s.obIdx (.inr (.inr rfl))
  simp only [emitBit, ← h.obIdx, ← h.obBits]
  generalize (if s.obBits = 0 then writeCell s.obIdx 0#8 s.obMem else s.obMem) = m at *
  generalize (if s.obBits = 0 then writeCell s.obIdx 0#8 t.obMem else t.obMem) = m' at *
  rw [← trailing]
  cases readCell s.obIdx m with
  | none => rfl
  | some x =>
    have written : ∀ y : Byte, ∀ a, a < s.obIdx ∨ a < s.spanLen ∨ a = s.obIdx →
        readCell a (writeCell s.obIdx y m) = readCell a (writeCell s.obIdx y m') :=
      fun y a ha => readCell_writeCell_alike y fun _ => opened a ha
    simp only
    split
    · exact h.advance fun a ha => written _ a (by omega)
    · exact h.advance fun a ha => written _ a (by omega)

theorem emitBits_alike (bs : List Bool) {s t : State} (h : AlikeBuffer s t) : AlikeEnd (emitBits bs s) (emitBits bs t) := by
  induction bs generalizing s t with
  | nil => exact h
  | cons bit bs ih =>
    have first := emitBit_alike bit h
    simp only [emitBits]
    cases hs : emitBit bit s <;> cases ht : emitBit bit t <;> rw [hs, ht] at first
    · exact first
    · exact first.elim
    · exact first.elim
    · exact ih first

theorem baEmit_alike (e : Emit) {s t : State} (h : AlikeBuffer s t) : AlikeEnd (baEmit e s) (baEmit e t) := by
  have bits := emitBits_alike (emitString e) h
  have pos : streamPos s = streamPos t := by unfold streamPos; rw [h.obIdx, h.obBits]
  by_cases full : 8 * Config.obCap s.build s.variant < streamPos s + e.width
  · rw [baEmit_overflow e full, baEmit_overflow e (by rwa [← h.cap, ← pos])]
    rfl
  · unfold baEmit
    rw [if_neg full, if_neg (by rwa [← h.cap, ← pos])]
    cases hs : emitBits (emitString e) s <;> cases ht : emitBits (emitString e) t <;> rw [hs, ht] at bits
    · exact congrArg Stop.fault bits
    · exact bits.elim
    · exact bits.elim
    · exact bits

theorem baEmits_alike (es : List Emit) {s t : State} (h : AlikeBuffer s t) : AlikeEnd (baEmits es s) (baEmits es t) := by
  induction es generalizing s t with
  | nil => exact h
  | cons e es ih =>
    have first := baEmit_alike e h
    simp only [baEmits]
    cases hs : baEmit e s <;> cases ht : baEmit e t <;> rw [hs, ht] at first
    · exact first
    · exact first.elim
    · exact first.elim
    · exact ih first

/-! ### Tokens (43 R194, R195) -/

theorem Alike.buffer {s t : State} (h : Alike s t) (hp : s.teState ≠ .idle) : AlikeBuffer s t :=
  { h.pass hp, h.frame with
    cap := by rw [h.build, (h.session (.inr hp)).variant] }

/-- Two states of a pass, each after its emits, are alike where their buffers are. -/
theorem Alike.of_emits {s t u v : State} (h : Alike s t) (hp : s.teState ≠ .idle) (hu : OnlyAssembler s u)
    (hv : OnlyAssembler t v) (buffer : AlikeBuffer u v) : Alike u v := by
  have f := h.frame
  have d := h.session (.inr hp)
  have p := h.pass hp
  obtain ⟨m, i, k, rfl⟩ := hu.spelled
  obtain ⟨m', i', k', rfl⟩ := hv.spelled
  exact alike_of_pass { f with span := buffer.span } { d with }
    { p with obIdx := buffer.obIdx, obBits := buffer.obBits, emitted := buffer.emitted } fun hm => { h.matches hm with }

/-- Emits, and what follows them: the same fault, or both overflow, or what follows runs on alike states. -/
theorem afterEmits_alike {es : List Emit} {s t : State} {k k' : State → Result} (h : Alike s t) (hp : s.teState ≠ .idle)
    (next : ∀ u v, OnlyAssembler s u → Alike u v → AlikeResult (k u) (k' v)) :
    AlikeResult (afterEmits es s k) (afterEmits es t k') := by
  have ends := baEmits_alike es (h.buffer hp)
  unfold afterEmits
  split
  · rfl
  · cases hs : baEmits es s with
    | error e =>
      cases ht : baEmits es t with
      | error e' =>
        rw [hs, ht] at ends
        have same : e = e' := ends
        subst same
        cases e with
        | overflow => exact alike_raiseOverflow h.frame
        | fault f => rfl
      | ok v => rw [hs, ht] at ends; exact ends.elim
    | ok u =>
      cases ht : baEmits es t with
      | error e' => rw [hs, ht] at ends; exact ends.elim
      | ok v =>
        rw [hs, ht] at ends
        have hu := baEmits_only hs
        exact next u v hu (h.of_emits hp hu (baEmits_only ht) ends)

/-- The end of a token (43 R194 to R196): the consumes, and back to SCAN. -/
theorem finishToken_alike {s t : State} (h : Alike s t) (hp : s.teState ≠ .idle) (l : Nat) :
    AlikeResult (finishToken l s) (finishToken l t) := by
  have f := h.frame
  have p := h.pass hp
  have consumed := (h.session (.inr hp)).consumeFromJ f.build p l
  unfold finishToken
  rw [← p.j, ← p.chunk]
  split
  · rw [consumeFromJ_eq, consumeFromJ_eq] at *
    rw [consumeSpan_frame s, consumeSpan_frame t] at *
    exact alike_of_pass { f with teState := rfl } { consumed with } { p with j := rfl, offSent := rfl }
      fun hm => (nomatch hm)
  · rfl

theorem Alike.sessionTable {s t : State} (h : Alike s t) (hp : s.teState ≠ .idle) : sessionTable s = sessionTable t := by
  unfold Machine.sessionTable
  rw [h.build, (h.session (.inr hp)).variant]

theorem emitLiteral_alike {s t : State} (h : Alike s t) (lit : s.teState = .emitLiteral) (es : List Emit) :
    AlikeResult (emitLiteral es s) (emitLiteral es t) := by
  have hp : s.teState ≠ .idle := by simp [lit]
  exact afterEmits_alike h hp fun u v hu alike => finishToken_alike alike (by rw [hu]; exact hp) 1

theorem emitOffset_alike {s t : State} (h : Alike s t) (mat : s.teState = .emitMatch) (es : List Emit) :
    AlikeResult (emitOffset es s) (emitOffset es t) := by
  have hp : s.teState ≠ .idle := by simp [mat]
  refine afterEmits_alike h hp fun u v hu alike => ?_
  have hm : u.teState = .emitMatch := by rw [hu]; exact mat
  have hp' : u.teState ≠ .idle := by simp [hm]
  exact alike_of_pass { alike.frame with } { alike.session (.inr hp') with } { alike.pass hp' with offSent := rfl }
    fun _ => { alike.matches hm with }

theorem emitLength_alike {s t : State} (h : Alike s t) (mat : s.teState = .emitMatch) (es : List Emit) :
    AlikeResult (emitLength es s) (emitLength es t) := by
  have hp : s.teState ≠ .idle := by simp [mat]
  unfold emitLength
  rw [← (h.matches mat).mLen]
  exact afterEmits_alike h hp fun u v hu alike => finishToken_alike alike (by rw [hu]; exact hp) s.mLen

/-! ### SCAN and the commit -/

theorem takeInput_alike {s t : State} (h : Alike s t) (scan : s.teState = .scan) : Alike (takeInput s) (takeInput t) := by
  have hp : s.teState ≠ .idle := by simp [scan]
  have f := h.frame
  have p := h.pass hp
  refine alike_of_pass { f with inQ := ?_ } { h.session (.inr hp) with } { p with chunk := ?_ }
    fun hm => absurd (scan.symm.trans hm) (by decide)
  · rw [takeInput_inQ, takeInput_inQ, f.inQ, p.n, p.chunk]
  · rw [takeInput_chunk, takeInput_chunk, f.inQ, p.n, p.chunk]

theorem teFinalize_alike {s t : State} (h : Alike s t) (hp : s.teState ≠ .idle) : Alike (teFinalize s) (teFinalize t) := by
  have f := h.frame
  have d := h.session (.inr hp)
  have p := h.pass hp
  unfold teFinalize baFinish
  rw [← p.obBits]
  split
  · exact alike_of_pass { f with teState := rfl } { d with }
      { p with
        obIdx := congrArg (· + 1) p.obIdx
        obBits := rfl
        emitted := fun a ha => p.emitted a (by simp only at ha; omega) }
      fun hm => (nomatch hm)
  · exact alike_of_pass { f with teState := rfl } { d with } { p with } fun hm => (nomatch hm)

theorem teScan_alike {s t : State} (h : Alike s t) (scan : s.teState = .scan) : AlikeResult (teScan s) (teScan t) := by
  have hp : s.teState ≠ .idle := by simp [scan]
  have f := h.frame
  have d := h.session (.inr hp)
  have p := h.pass hp
  have atEnd : s.j = s.n ↔ t.j = t.n := by rw [p.j, p.n]
  unfold teScan
  rw [← teSelect_alike f.build d p]
  by_cases finished : s.j = s.n
  · rw [if_pos finished, if_pos (atEnd.1 finished)]
    exact teFinalize_alike h hp
  · rw [if_neg finished, if_neg (mt atEnd.2 finished)]
    cases teSelect s with
    | error e => rfl
    | ok choice =>
      cases choice with
      | literal => exact alike_of_pass { f with teState := rfl } { d with } { p with } fun hm => (nomatch hm)
      | copy c e l => exact alike_of_pass { f with teState := rfl } { d with } { p with } fun _ => ⟨rfl, rfl, rfl⟩

/-- The raw copy, and behind it what stood there (44 R224). -/
theorem readCell_writeRun_alike {a : Nat} {m m' : Memory} (xs : List Byte) (h : readCell a m = readCell a m') :
    readCell a (writeRun 0 xs m) = readCell a (writeRun 0 xs m') := by
  obtain ⟨copied, kept⟩ := writeRun_spec xs 0 m
  obtain ⟨copied', kept'⟩ := writeRun_spec xs 0 m'
  by_cases ha : a < xs.length
  · have e := copied a ha
    have e' := copied' a ha
    rw [Nat.zero_add] at e e'
    rw [e, e']
  · rw [kept a (.inr (by omega)), kept' a (.inr (by omega)), h]

theorem commitResult_alike {s t : State} (pass : Bool) {len len' : Nat} (same : len = len') (f : AlikeFrame s t)
    (d : AlikeSession s t) (doFlush : s.doFlush = t.doFlush)
    (span : ∀ a, a < len → readCell a s.obMem = readCell a t.obMem) :
    Alike (commitResult pass len s) (commitResult pass len' t) :=
  alike_of_idle
    { f with
      rspValid := rfl
      rsp := by
        rw [commitResult_rsp, commitResult_rsp, same]
        unfold atFront
        rw [d.firstPkt, d.flagsHold, doFlush]
      teState := rfl
      spanLen := same
      span := span }
    rfl fun _ => { d with firstPkt := rfl, flagsHold := rfl }

/-- The commit (44 R219): the passthrough's span lies in the bytes emitted even where the chunk would not fill it. -/
theorem scCommit_alike {s t : State} (h : Alike s t) (hp : s.teState ≠ .idle) : AlikeResult (scCommit s) (scCommit t) := by
  have f := h.frame
  have d := h.session (.inr hp)
  have p := h.pass hp
  have decision : s.n ≤ s.obIdx ↔ t.n ≤ t.obIdx := by rw [p.n, p.obIdx]
  have noRoom : Config.obCap s.build s.variant < s.n ↔ Config.obCap t.build t.variant < t.n := by
    rw [(h.buffer hp).cap, p.n]
  unfold scCommit passthrough
  simp only [decide_eq_true_eq]
  by_cases larger : s.n ≤ s.obIdx
  · rw [if_pos larger, if_pos (decision.1 larger)]
    by_cases exceeds : Config.obCap s.build s.variant < s.n
    · rw [if_pos exceeds, if_pos (noRoom.1 exceeds)]
      rfl
    · rw [if_neg exceeds, if_neg (mt noRoom.2 exceeds)]
      have copied : ∀ a, readCell a s.obMem = readCell a t.obMem →
          readCell a (writeRun 0 s.chunk s.obMem) = readCell a (writeRun 0 t.chunk t.obMem) := fun a ha => by
        rw [p.chunk]
        exact readCell_writeRun_alike _ ha
      have raw : AlikeSession { s with obMem := writeRun 0 s.chunk s.obMem } { t with obMem := writeRun 0 t.chunk t.obMem } :=
        { d with }
      exact commitResult_alike true p.n { f with span := fun a ha => copied a (f.span a ha) } raw.resetDict p.doFlush
        fun a ha => copied a (p.emitted a (.inl (Nat.lt_of_lt_of_le ha larger)))
  · rw [if_neg larger, if_neg (mt decision.2 larger)]
    exact commitResult_alike false p.obIdx f d p.doFlush fun a ha => p.emitted a (.inl ha)

/-! ### Commands -/

theorem failCmd_alike {s t : State} (h : Alike s t) (e : Status) :
    Alike (failCmd e s) (failCmd e t) :=
  alike_of_idle { h.frame with rspValid := rfl, rsp := rfl, teState := rfl } rfl fun hr => { h.session (.inl hr) with }

theorem opening_alike {s t : State} (f : AlikeFrame s t) (v : Variant) :
    Alike (resetDict (opening v s)) (resetDict (opening v t)) :=
  alike_of_idle
    { f with
      rspValid := rfl
      rsp := rfl
      sess := rfl
      teState := rfl
      spanLen := rfl
      span := fun a ha => absurd ha (Nat.not_lt_zero a) }
    rfl fun _ =>
      { variant := rfl
        firstPkt := rfl
        flagsHold := rfl
        w := rfl
        window := fun o ho => absurd ho.1 (Nat.not_lt_zero o)
        lookup := fun k => by rw [mfLookup_resetDict, mfLookup_resetDict] }

theorem execCreate_alike {s t : State} (h : Alike s t) (idle : s.teState = .idle) (code : BitVec 2) :
    AlikeResult (execCreate code s) (execCreate code t) := by
  unfold execCreate
  rw [← h.teState, ← h.sess, ← h.build, if_neg (not_not.2 idle), if_neg (not_not.2 idle)]
  split
  · exact failCmd_alike h _
  · cases variantOfCode code with
    | none => exact failCmd_alike h _
    | some v =>
      simp only
      split
      · exact failCmd_alike h _
      · rw [created_eq_resetDict, created_eq_resetDict]
        exact opening_alike h.frame v

theorem startPass_alike {s t : State} (f : AlikeFrame s t) (d : AlikeSession s t) (n : Nat) (flush : Bool) :
    Alike (startPass n flush s) (startPass n flush t) :=
  alike_of_pass
    { f with
      rspValid := rfl
      teState := rfl
      spanLen := rfl
      span := fun a ha => absurd ha (Nat.not_lt_zero a) }
    { d with }
    { j := rfl
      n := rfl
      b := d.w
      chunk := rfl
      doFlush := rfl
      offSent := rfl
      obIdx := rfl
      obBits := rfl
      emitted := fun a ha => absurd ha (by simp) }
    fun hm => (nomatch hm)

theorem acceptChunk_alike {s t : State} (f : AlikeFrame s t) (d : AlikeSession s t) (flushReq : Bool) (n : Nat) :
    Alike (acceptChunk flushReq n s) (acceptChunk flushReq n t) := by
  unfold acceptChunk
  rw [← f.build, ← d.w]
  split
  · exact startPass_alike (s := resetDict s) (t := resetDict t) { f with } d.resetDict n true
  · exact startPass_alike f d n false

theorem execCompress_alike {s t : State} (h : Alike s t) (idle : s.teState = .idle) (flushReq : Bool) (len : BitVec 17) :
    AlikeResult (execCompress flushReq len s) (execCompress flushReq len t) := by
  unfold execCompress
  rw [← h.teState, ← h.sess, if_neg (not_not.2 idle), if_neg (not_not.2 idle)]
  cases hs : s.sess with
  | absent => exact failCmd_alike h _
  | faulted => exact failCmd_alike h _
  | ready =>
    have d := h.session (.inl hs)
    simp only [← d.variant]
    split
    · exact failCmd_alike h _
    · exact acceptChunk_alike h.frame d flushReq _

theorem execDestroy_alike {s t : State} (h : Alike s t) (idle : s.teState = .idle) :
    AlikeResult (execDestroy s) (execDestroy t) := by
  unfold execDestroy
  rw [← h.teState, if_neg (not_not.2 idle), if_neg (not_not.2 idle)]
  exact alike_destroyed h.frame

theorem exec_command_alike {s t : State} {c : Word} {i : Instr} (h : Alike s t) (idle : s.teState = .idle)
    (decoded : decodeCommand c = .ok i) : AlikeResult (exec i s) (exec i t) := by
  rcases decodeCommand_ok decoded with ⟨code, rfl⟩ | ⟨f, len, rfl⟩ | ⟨rfl, -⟩
  · exact execCreate_alike h idle code
  · exact execCompress_alike h idle f len
  · exact execDestroy_alike h idle

theorem fetchIdle_alike {s t : State} (h : Alike s t) (idle : s.teState = .idle) :
    AlikeResult (perform (fetchIdle s)) (perform (fetchIdle t)) := by
  unfold fetchIdle
  rw [← h.accepted]
  cases s.accepted with
  | none =>
    simp only [← h.cmdQ]
    cases s.cmdQ with
    | nil => exact h
    | cons c cs =>
      exact alike_of_idle { h.frame with accepted := rfl, cmdQ := rfl, rspValid := rfl } idle
        fun hr => { h.session (.inl hr) with }
  | some c =>
    have taken : Alike { s with accepted := none } { t with accepted := none } :=
      alike_of_idle { h.frame with accepted := rfl } idle fun hr => { h.session (.inl hr) with }
    simp only
    cases decoded : decodeCommand c with
    | ok i => exact exec_command_alike taken idle decoded
    | error e => exact failCmd_alike taken _

/-! ### What a step is in each sequencing state (43 R200) -/

theorem step_of_rst {s : State} (pin : s.rst = true) : step s = .next (hardReset s) := by
  simp [step, fetch, perform, pin]

theorem step_of_idle {s : State} (pin : s.rst = false) (idle : s.teState = .idle) : step s = perform (fetchIdle s) := by
  simp [step, fetch, pin, idle]

theorem step_of_scan {s : State} (pin : s.rst = false) (scan : s.teState = .scan) :
    step s = if s.chunk.length < s.n then .next (takeInput s) else teScan s := by
  simp [step, fetch, perform, pin, scan]

theorem step_of_literal {s : State} {x : Byte} (pin : s.rst = false) (lit : s.teState = .emitLiteral)
    (byte : s.chunk[s.j]? = some x) : step s = emitLiteral ((sessionTable s).lit x) s := by
  simp only [step, fetch, pin, Bool.false_eq_true, if_false, lit, byte]
  refine fetchToken_run fun r row he => ?_
  cases row
  rw [exec_literal (literalByte_litToken x), runLiteral, if_pos ⟨lit, byte, he.symm⟩, he]

theorem step_of_no_byte {s : State} (pin : s.rst = false) (lit : s.teState = .emitLiteral) (byte : s.chunk[s.j]? = none) :
    step s = .fault .chunkPosition := by
  simp only [step, fetch, perform, pin, Bool.false_eq_true, if_false, lit, byte]

theorem step_of_offset {s : State} (pin : s.rst = false) (mat : s.teState = .emitMatch) (first : s.offSent = false) :
    step s = emitOffset ((sessionTable s).off s.mD) s := by
  simp only [step, fetch, pin, Bool.false_eq_true, if_false, mat, first]
  refine fetchToken_run fun r row he => ?_
  rw [exec_offset (offsetOf_offToken row), runOffset, if_pos ⟨mat, first, rfl, rfl, he.symm⟩, he]

theorem step_of_length {s : State} (pin : s.rst = false) (mat : s.teState = .emitMatch) (second : s.offSent = true) :
    step s = emitLength ((sessionTable s).len s.mLen) s := by
  simp only [step, fetch, pin, Bool.false_eq_true, if_false, mat, second, if_true]
  refine fetchToken_run fun r row he => ?_
  rw [exec_length (lengthOf_lenToken row), runLength, if_pos ⟨mat, second, rfl, he.symm⟩, he]

theorem step_of_done {s : State} (pin : s.rst = false) (isDone : s.teState = .done) : step s = scCommit s := by
  simp [step, fetch, perform, pin, isDone]

/-! ### Every step -/

theorem step_alike_in_match {s t : State} (h : Alike s t) (pin : s.rst = false) (mat : s.teState = .emitMatch) :
    AlikeResult (step s) (step t) := by
  have hp : s.teState ≠ .idle := by simp [mat]
  have pin' := h.rst.symm.trans pin
  have mat' := h.teState.symm.trans mat
  have m := h.matches mat
  have sent := h.offSent hp
  cases half : s.offSent with
  | false =>
    rw [step_of_offset pin mat half, step_of_offset pin' mat' (sent.symm.trans half), ← h.sessionTable hp, ← m.mD]
    exact emitOffset_alike h mat _
  | true =>
    rw [step_of_length pin mat half, step_of_length pin' mat' (sent.symm.trans half), ← h.sessionTable hp, ← m.mLen]
    exact emitLength_alike h mat _

theorem step_alike_in_literal {s t : State} (h : Alike s t) (pin : s.rst = false) (lit : s.teState = .emitLiteral) :
    AlikeResult (step s) (step t) := by
  have hp : s.teState ≠ .idle := by simp [lit]
  have p := h.pass hp
  have pin' := h.rst.symm.trans pin
  have lit' := h.teState.symm.trans lit
  have same : s.chunk[s.j]? = t.chunk[t.j]? := by rw [p.chunk, p.j]
  cases byte : s.chunk[s.j]? with
  | none =>
    rw [step_of_no_byte pin lit byte, step_of_no_byte pin' lit' (same.symm.trans byte)]
    rfl
  | some x =>
    rw [step_of_literal pin lit byte, step_of_literal pin' lit' (same.symm.trans byte), ← h.sessionTable hp]
    exact emitLiteral_alike h lit _

theorem step_alike {s t : State} (h : Alike s t) : AlikeResult (step s) (step t) := by
  cases pin : s.rst with
  | true =>
    rw [step_of_rst pin, step_of_rst (h.rst.symm.trans pin)]
    exact alike_hardReset h.frame
  | false =>
    have pin' := h.rst.symm.trans pin
    have te := h.teState
    cases here : s.teState with
    | idle =>
      rw [step_of_idle pin here, step_of_idle pin' (te.symm.trans here)]
      exact fetchIdle_alike h here
    | scan =>
      have p := h.pass (by simp [here])
      rw [step_of_scan pin here, step_of_scan pin' (te.symm.trans here), ← p.chunk, ← p.n]
      split
      · exact takeInput_alike h here
      · exact teScan_alike h here
    | emitLiteral => exact step_alike_in_literal h pin here
    | emitMatch => exact step_alike_in_match h pin here
    | done =>
      rw [step_of_done pin here, step_of_done pin' (te.symm.trans here)]
      exact scCommit_alike h (by simp [here])

/-- The host reads the same span byte from alike states (70 R284). -/
theorem obRdata_alike {s t : State} (h : Alike s t) (valid : s.rspValid = true) (inside : s.obRaddr.toNat < s.spanLen)
    (byte : (readCell s.obRaddr.toNat s.obMem).isSome) : obRdata s = obRdata t := by
  obtain ⟨x, hx⟩ := Option.isSome_iff_exists.1 byte
  have hx' := (h.span _ inside).symm.trans hx
  rw [h.obRaddr] at hx'
  have inside' : t.obRaddr.toNat < t.spanLen := by rw [← h.obRaddr, ← h.spanLen]; exact inside
  simp only [obRdata, valid, inside, hx, h.rspValid ▸ valid, inside', hx', and_self, if_true]

/-- Settles O53, by the sequencing state of the two. -/
theorem unspecifiedValuesAreNeverRead : Obligations.UnspecifiedValuesAreNeverRead := by
  unfold Obligations.UnspecifiedValuesAreNeverRead
  exact fun s t h => ⟨step_alike h, obRdata_alike h⟩

end Sys2Proof.Safety
end

section
/-! SUPPORT. 10_state: no step from a state of the invariant stops, what a step does to the session state and to `first_pkt`, and the span
that the host reads. -/

namespace Sys2Proof.Safety

open Sys2Proof.Machine

/-! ### Where the operations of a step answer -/

/-- A command that decodes is carried out in IDLE, with success or with an error response (60 R252). -/
theorem exec_command_next {c : Word} {i : Instr} {s : State} (idle : s.teState = .idle) (decoded : decodeCommand c = .ok i) :
    ∃ t, exec i s = .next t := by
  rcases decodeCommand_ok decoded with ⟨code, rfl⟩ | ⟨f, len, rfl⟩ | ⟨rfl, -⟩
  · simp only [exec, execCreate, idle, ne_eq, not_true, if_false]
    split
    · exact ⟨_, rfl⟩
    · cases variantOfCode code with
      | none => exact ⟨_, rfl⟩
      | some v => simp only; split <;> exact ⟨_, rfl⟩
  · simp only [exec, execCompress, idle, ne_eq, not_true, if_false]
    cases s.sess with
    | absent => exact ⟨_, rfl⟩
    | faulted => exact ⟨_, rfl⟩
    | ready => simp only; split <;> exact ⟨_, rfl⟩
  · simp only [exec, execDestroy, idle, ne_eq, not_true, if_false]
    exact ⟨_, rfl⟩

/-- In IDLE the core waits, accepts a word, or carries out the one accepted (70 R282). -/
theorem fetchIdle_next {s : State} (idle : s.teState = .idle) : ∃ t, perform (fetchIdle s) = .next t := by
  unfold fetchIdle
  cases s.accepted with
  | none => cases s.cmdQ <;> exact ⟨_, rfl⟩
  | some c =>
    simp only
    cases decoded : decodeCommand c with
    | ok i => exact exec_command_next idle decoded
    | error e => exact ⟨_, rfl⟩

/-- HB.READ answers every offset in the window of a dictionary (40 R143, 10_state R30). -/
theorem Dictionary.hbRead {s : State} (hd : Dictionary s) {o : Nat} (ho : InWindow s o) : ∃ x, hbRead o s = .ok x := by
  obtain ⟨x, hx⟩ := Option.isSome_iff_exists.1 (hd.window o ho)
  exact ⟨x, hbRead_inWindow ho hx⟩

/-- The source of a match can be read from its candidate up to the end of the chunk (41 R161): the bytes below `W` lie in the window, the
others are the chunk's own, before the one they are compared with. -/
theorem Encoding.srcByte {s : State} (enc : Encoding s) (hd : Dictionary s) (full : s.chunk.length = s.n) {c i : Nat}
    (before : c < s.w) (near : s.w - c ≤ Config.maxOff s.build s.variant) (inside : s.j + i < s.n) :
    ∃ x, srcByte s (c + i) = .ok x := by
  have reach := maxOff_lt_cap s.build s.variant
  have pos := enc.pos
  unfold Machine.srcByte
  by_cases old : c + i < s.w
  · rw [if_pos old]
    exact hd.hbRead ⟨old, by omega⟩
  · rw [if_neg old, List.getElem?_eq_getElem (by omega)]
    exact ⟨_, rfl⟩

/-- MF.EXTEND answers for every candidate that the window filter serves (41 R158, R161). -/
theorem Encoding.mfExtend {s : State} (enc : Encoding s) (hd : Dictionary s) (full : s.chunk.length = s.n) {c : Nat}
    (before : c < s.w) (near : s.w - c ≤ Config.maxOff s.build s.variant) : ∃ l, mfExtend c s = .ok l := by
  refine matchRun_total fun i hi => enc.srcByte hd full before near ?_
  simp only [List.length_take, List.length_drop] at hi
  omega

/-- TE.SCAN with the whole chunk taken finalizes or selects (43 R192, R193). -/
theorem Encoding.teScan_next {s : State} (enc : Encoding s) (hd : Dictionary s) (full : s.chunk.length = s.n) :
    ∃ t, teScan s = .next t := by
  unfold teScan
  split
  · exact ⟨_, rfl⟩
  · obtain ⟨choice, sel⟩ :=
      teSelect_total full (mfLookup_defined hd.defined) fun c before near => enc.mfExtend hd full before near
    rw [sel]
    cases choice <;> exact ⟨_, rfl⟩

/-- A token with a code completes or overflows, where what follows its emits goes on (42 R181, 43 R194, R195). -/
theorem Encoding.afterEmits_next {s : State} (enc : Encoding s) {es : List Emit} (coded : es ≠ []) {k : State → Result}
    (goesOn : ∀ u, OnlyAssembler s u → ∃ t, k u = .next t) : ∃ t, afterEmits es s k = .next t := by
  rcases Nat.lt_or_ge (8 * Config.obCap s.build s.variant) (streamPos s + (emitsString es).length) with full | fits
  · exact ⟨_, afterEmits_overflow es coded enc.assembler full enc.room k⟩
  · obtain ⟨u, only, -, -, -, next⟩ := afterEmits_fits es coded enc.assembler fits
    rw [next k]
    exact goesOn u only

/-- After a token's emits its consumes find their positions in the chunk. -/
theorem OnlyAssembler.finishToken_next {s u : State} {l : Nat} (h : OnlyAssembler s u) (inside : s.j + l ≤ s.chunk.length) :
    ∃ t, finishToken l u = .next t := by
  obtain ⟨m, i, k, rfl⟩ := h.spelled
  exact ⟨_, finishToken_eq inside⟩

/-- Every byte of a well-formed table has a code (30_encoding R101). -/
theorem TableWellFormed.litSome {v : Variant} {c : CodeTable} (h : TableWellFormed v c) (x : Byte) : c.lit x ≠ [] := by
  intro empty
  have width := h.litWidth x
  simp [empty] at width

/-- The commit never runs out of addresses: a chunk is no longer than CAP, and the buffer no shorter (00_scope R7). -/
theorem Encoding.scCommit_next {s : State} (enc : Encoding s) (hd : Dictionary s) : ∃ t, scCommit s = .next t := by
  have room := (build_bounds hd.built).1
  have short := enc.nCap
  unfold scCommit
  split
  · rw [if_neg (by omega)]
    exact ⟨_, rfl⟩
  · exact ⟨_, rfl⟩

/-! ### Every step answers, by the sequencing state (43 R200) -/

theorem Inv.step_next_in_scan {s : State} (hi : Inv s) (pin : s.rst = false) (scan : s.teState = .scan) :
    ∃ t, step s = .next t := by
  have hp : s.teState ≠ .idle := by simp [scan]
  have enc := hi.encoding hp
  rw [step_of_scan pin scan]
  split
  · exact ⟨_, rfl⟩
  · rename_i whole
    exact enc.teScan_next (hi.dictionary_of_pass hp) (Nat.le_antisymm enc.taken (Nat.le_of_not_lt whole))

theorem Inv.step_next_in_literal {s : State} (hi : Inv s) (pin : s.rst = false) (lit : s.teState = .emitLiteral) :
    ∃ t, step s = .next t := by
  have hp : s.teState ≠ .idle := by simp [lit]
  have enc := hi.encoding hp
  have inside : s.j < s.chunk.length := by
    rw [enc.full (by simp [lit])]
    exact hi.literal lit
  rw [step_of_literal pin lit (List.getElem?_eq_getElem inside)]
  exact enc.afterEmits_next ((hi.table_of_pass hp).litSome _) fun u only => only.finishToken_next inside

theorem Inv.step_next_in_match {s : State} (hi : Inv s) (pin : s.rst = false) (mat : s.teState = .emitMatch) :
    ∃ t, step s = .next t := by
  have hp : s.teState ≠ .idle := by simp [mat]
  have enc := hi.encoding hp
  have table := hi.table_of_pass hp
  have hm := hi.copy mat
  cases half : s.offSent with
  | false =>
    rw [step_of_offset pin mat half]
    exact enc.afterEmits_next (table.offSome _ hm.codesOff) fun u _ => ⟨_, rfl⟩
  | true =>
    rw [step_of_length pin mat half]
    exact enc.afterEmits_next (table.lenSome _ hm.codesLen) fun u only =>
      only.finishToken_next (by rw [enc.full (by simp [mat])]; exact hm.inside)

/-- Settles O49, by the sequencing state. -/
theorem noStepStops : Obligations.NoStepStops := by
  unfold Obligations.NoStepStops
  intro s hi
  cases pin : s.rst with
  | true => exact ⟨_, step_of_rst pin⟩
  | false =>
    cases here : s.teState with
    | idle =>
      rw [step_of_idle pin here]
      exact fetchIdle_next here
    | scan => exact hi.step_next_in_scan pin here
    | emitLiteral => exact hi.step_next_in_literal pin here
    | emitMatch => exact hi.step_next_in_match pin here
    | done =>
      have hp : s.teState ≠ .idle := by simp [here]
      rw [step_of_done pin here]
      exact (hi.encoding hp).scCommit_next (hi.dictionary_of_pass hp)

/-! ### The session state (10_state R22) -/

/-- A field that neither the Bit Assembler nor what follows the emits writes: a token keeps it, unless it overflows. -/
theorem TokenEnd.keeps_or_overflows {α : Type} (f : State → α) {es : List Emit} {s t : State} {k : State → State}
    (h : TokenEnd es s k t) (emits : ∀ u, OnlyAssembler s u → f u = f s) (rest : ∀ u, f (k u) = f u) :
    f t = f s ∨ t = raiseOverflow s := by
  cases h with
  | completes u emitted next =>
    subst next
    exact .inl ((rest u).trans (emits u (baEmits_only emitted)))
  | overflows full next => exact .inr next

/-- What a step does to the session state. -/
inductive SessionTo (s t : State) : Prop where
  | keeps (same : t.sess = s.sess)
  | opens (before : s.sess = .absent) (after : t.sess = .ready)
  | ends (after : t.sess = .absent) (why : s.rst = true ∨ s.accepted = some 0x80000000#32)
  | overflows (next : t = raiseOverflow s)

theorem SessionTo.of_token {es : List Emit} {s t : State} {k : State → State} (h : TokenEnd es s k t)
    (rest : ∀ u, (k u).sess = u.sess) : SessionTo s t :=
  (h.keeps_or_overflows State.sess (fun u only => by rw [only]) rest).elim .keeps .overflows

theorem SessionTo.of_command {c : Word} {s t : State} (taken : s.accepted = some c)
    (h : CommandTo c { s with accepted := none } t) : SessionTo s t := by
  cases h with
  | fails e error next => subst next; exact .keeps rfl
  | creates v absent fitsBuild next => subst next; exact .opens absent rfl
  | compresses f len ready pos le next => subst next; exact .keeps (acceptChunk_sess _ _ _)
  | destroys word next => subst next; exact .ends rfl (.inr (word ▸ taken))

theorem StepTo.session {s t : State} (h : StepTo s t) : SessionTo s t := by
  cases h with
  | reset pin next => subst next; exact .ends rfl (.inl pin)
  | waits pin idle free empty next => subst next; exact .keeps rfl
  | accepts pin idle free c cs queue next => subst next; exact .keeps rfl
  | command pin idle c taken next => exact .of_command taken next
  | takes pin scan short next => subst next; exact .keeps rfl
  | finalizes pin scan full atEnd next => subst next; exact .keeps (teFinalize_sess s)
  | literal pin scan full inside sel next => subst next; exact .keeps rfl
  | copy pin scan full inside c d l sel next => subst next; exact .keeps rfl
  | emitsLiteral pin lit x byte ends => exact .of_token ends fun u => consumeFromJ_sess 1 u
  | emitsOffset pin mat first ends => exact .of_token ends fun u => rfl
  | emitsLength pin mat second inside ends => exact .of_token ends fun u => consumeFromJ_sess s.mLen u
  | passes pin isDone larger room next => subst next; exact .keeps rfl
  | delivers pin isDone smaller next => subst next; exact .keeps rfl

/-- Settles O43, by what a step does to the session state. -/
theorem faultedIsSticky : Obligations.FaultedIsSticky := by
  unfold Obligations.FaultedIsSticky
  intro s t h
  cases (step_cases h).session with
  | keeps same => exact ⟨fun old _ new => absurd (same.trans old) new, fun old new => absurd (same.symm.trans new) old⟩
  | opens before after => exact ⟨fun old => by simp [before] at old, fun _ new => by simp [after] at new⟩
  | ends after why => exact ⟨fun _ _ _ => ⟨after, why⟩, fun _ new => by simp [after] at new⟩
  | overflows next => subst next; exact ⟨fun _ _ new => absurd rfl new, fun _ _ => rfl⟩

/-! ### The first packet (10_state R24, 44 R226) -/

/-- What a step of a session that stays READY does to `first_pkt`. -/
inductive FirstPacketTo (s t : State) : Prop where
  | keeps (same : t.firstPkt = s.firstPkt)
  | noSession (gone : s.sess ≠ .ready ∨ t.sess ≠ .ready)
  | commits (isDone : s.teState = .done) (status : t.rsp.status = .ok) (valid : t.rspValid = true)

theorem FirstPacketTo.of_token {es : List Emit} {s t : State} {k : State → State} (h : TokenEnd es s k t)
    (rest : ∀ u, (k u).firstPkt = u.firstPkt) : FirstPacketTo s t := by
  rcases h.keeps_or_overflows State.firstPkt (fun u only => by rw [only]) rest with same | rfl
  · exact .keeps same
  · exact .noSession (.inr (by simp))

theorem FirstPacketTo.of_command {c : Word} {s t : State} (h : CommandTo c { s with accepted := none } t) :
    FirstPacketTo s t := by
  cases h with
  | fails e error next => subst next; exact .keeps rfl
  | creates v absent fitsBuild next => exact .noSession (.inl fun ready => nomatch ready.symm.trans absent)
  | compresses f len ready pos le next => subst next; exact .keeps (acceptChunk_firstPkt _ _ _)
  | destroys word next => subst next; exact .noSession (.inr (by simp))

theorem StepTo.firstPacket {s t : State} (h : StepTo s t) : FirstPacketTo s t := by
  cases h with
  | reset pin next => subst next; exact .noSession (.inr (by simp))
  | waits pin idle free empty next => subst next; exact .keeps rfl
  | accepts pin idle free c cs queue next => subst next; exact .keeps rfl
  | command pin idle c taken next => exact .of_command next
  | takes pin scan short next => subst next; exact .keeps rfl
  | finalizes pin scan full atEnd next => subst next; exact .keeps (teFinalize_firstPkt s)
  | literal pin scan full inside sel next => subst next; exact .keeps rfl
  | copy pin scan full inside c d l sel next => subst next; exact .keeps rfl
  | emitsLiteral pin lit x byte ends => exact .of_token ends fun u => consumeFromJ_firstPkt 1 u
  | emitsOffset pin mat first ends => exact .of_token ends fun u => rfl
  | emitsLength pin mat second inside ends => exact .of_token ends fun u => consumeFromJ_firstPkt s.mLen u
  | passes pin isDone larger room next => subst next; exact .commits isDone rfl rfl
  | delivers pin isDone smaller next => subst next; exact .commits isDone rfl rfl

/-- Settles O44, by what a step does to `first_pkt`. -/
theorem firstPacketEndsWithASuccess : Obligations.FirstPacketEndsWithASuccess := by
  unfold Obligations.FirstPacketEndsWithASuccess
  intro s t h before after first cleared
  cases (step_cases h).firstPacket with
  | keeps same => rw [same, first] at cleared; cases cleared
  | noSession gone => exact absurd after (gone.resolve_left (not_not.2 before))
  | commits isDone status valid => exact ⟨isDone, status, valid⟩

/-! ### The span (10_state R37, 70 R284) -/

/-- Settles O39: in IDLE every byte of the span has a value, and inside the span the port shows it. -/
theorem spanBytesAreReadable : Obligations.SpanBytesAreReadable := by
  unfold Obligations.SpanBytesAreReadable
  intro s hi idle valid inside
  obtain ⟨x, hx⟩ := Option.isSome_iff_exists.1 ((hi.resting idle).spanRead _ inside)
  simp only [obRdata, valid, inside, hx, and_self, if_true]

end Sys2Proof.Safety
end

section
/-! SUPPORT. The default CodeTable (30_encoding R97 to R103): its codewords are read back by the decoder, so that none is the beginning of
another; its widths; its offset bands. With it the state after reset meets the invariant. -/

namespace Sys2Proof

/-! ### Reading a codeword back -/

/-- A literal or an offset code is read back, whatever follows (R97, R98, R102, R103). -/
theorem decodeToken_encode {v : Variant} {i : Instr} (h : i.fits (.token v) = true) (rest : List Bool) :
    decodeToken v (encode i ++ rest) = .ok (i, rest) := by
  cases i with
  | lit7 b => cases v <;> exact decodeField_natBits .lit7 b rest
  | lit8 b => cases v <;> exact decodeField_natBits .lit8 b rest
  | off8kA d =>
    obtain rfl : v = .v8k := by simpa [Instr.fits] using h
    exact decodeField_natBits .off8kA d rest
  | off8kB d =>
    obtain rfl : v = .v8k := by simpa [Instr.fits] using h
    exact decodeField_natBits .off8kB d rest
  | off8kC d =>
    obtain rfl : v = .v8k := by simpa [Instr.fits] using h
    exact decodeField_natBits .off8kC d rest
  | off64kA d =>
    obtain rfl : v = .v64k := by simpa [Instr.fits] using h
    exact decodeField_natBits .off64kA d rest
  | off64kB d =>
    obtain rfl : v = .v64k := by simpa [Instr.fits] using h
    exact decodeField_natBits .off64kB d rest
  | off64kC d =>
    obtain rfl : v = .v64k := by simpa [Instr.fits] using h
    exact decodeField_natBits .off64kC d rest
  | off64kD d =>
    obtain rfl : v = .v64k := by simpa [Instr.fits] using h
    exact decodeField_natBits .off64kD d rest
  | _ => simp [Instr.fits] at h

/-- A length code is read back, whatever follows (R99). -/
theorem decodeLength_encode {v : Variant} {i : Instr} (h : i.fits (.length v) = true) (rest : List Bool) :
    decodeLength v (encode i ++ rest) = .ok (i, rest) := by
  cases i <;> simp [Instr.fits] at h
  case len8192 | len16384 | len32768 =>
    subst h
    simp only [decodeLength, decodeLongLength, encode, List.append_assoc, unaryRun_onesZero, decodeField_natBits]
  all_goals simp only [decodeLength, encode, List.append_assoc, unaryRun_onesZero, decodeField_natBits]

/-- A token's code is read back at its position (R106). -/
theorem decode_encode_of_token {p : Position} (hp : p ≠ .command) {i : Instr} (h : i.fits p = true) (rest : List Bool) :
    decode p (encode i ++ rest) = .ok (i, rest) := by
  cases p with
  | command => exact absurd rfl hp
  | token v => exact decodeToken_encode h rest
  | length v => exact decodeLength_encode h rest

/-- No codeword is the beginning of another at the same position (R101 (c)). -/
theorem eq_of_encode_begins {p : Position} (hp : p ≠ .command) {i k : Instr} (hi : i.fits p = true) (hk : k.fits p = true)
    (h : encode i <+: encode k) : i = k := by
  obtain ⟨rest, split⟩ := h
  have short := decode_encode_of_token hp hi rest
  have whole := decode_encode_of_token hp hk []
  rw [split] at short
  rw [List.append_nil, short] at whole
  cases whole
  rfl

end Sys2Proof

namespace Sys2Proof.Safety

open Sys2Proof.Machine

/-! ### The emits of a format spell its codeword (R104) -/

/-- A value field behind a constant `c`, as one emit's bits. -/
theorem natBits_of_code {u k w n : Nat} {pre : List Bool} (c : Nat) (v : BitVec k) (hw : w = u + k)
    (hn : n = c * 2 ^ k + v.toNat) (hp : natBits u c = pre) : natBits w n = pre ++ natBits k v.toNat := by
  rw [hw, hn, natBits_add _ _ _ _ v.isLt, hp]

theorem emitsString_emits {i : Instr} (h : i.fits .command = false) : emitsString (emits i) = encode i := by
  cases i with
  | create c => simp [Instr.fits] at h
  | compress f len => simp [Instr.fits] at h
  | destroy => simp [Instr.fits] at h
  | lit7 b => exact natBits_of_code (u := 1) 0 b rfl (by simp) rfl
  | lit8 b => exact natBits_of_code (u := 2) 2 b rfl rfl rfl
  | off8kA d => exact natBits_of_code (u := 4) 15 d rfl rfl rfl
  | off8kB d => exact natBits_of_code (u := 4) 14 d rfl rfl rfl
  | off8kC d => exact natBits_of_code (u := 3) 6 d rfl rfl rfl
  | off64kA d => exact natBits_of_code (u := 5) 31 d rfl rfl rfl
  | off64kB d => exact natBits_of_code (u := 5) 30 d rfl rfl rfl
  | off64kC d => exact natBits_of_code (u := 4) 14 d rfl rfl rfl
  | off64kD d => rfl
  | len3 => rfl
  | len4 v => exact natBits_of_code (u := 2) 2 v rfl rfl rfl
  | len8 v => exact natBits_of_code (u := 3) 6 v rfl rfl rfl
  | len16 v => exact natBits_of_code (u := 4) 14 v rfl rfl rfl
  | len32 v => exact natBits_of_code (u := 5) 30 v rfl rfl rfl
  | len64 v => exact natBits_of_code (u := 6) 62 v rfl rfl rfl
  | len128 v => exact natBits_of_code (u := 7) 126 v rfl rfl rfl
  | len256 v => exact natBits_of_code (u := 8) 254 v rfl rfl rfl
  | len512 v => rfl
  | len1024 v => rfl
  | len2048 v => rfl
  | len4096 v => rfl
  | len8192 v => rfl
  | len16384 v => rfl
  | len32768 v => rfl

/-- A token's format has emits (R100). -/
theorem emits_ne_nil {i : Instr} (h : i.fits .command = false) : emits i ≠ [] := by
  cases i <;> simp [Instr.fits, emits] at h ⊢

/-- No code of a format has more bits than its emit (R101 (a)). -/
theorem emits_code_lt (i : Instr) : Laws.EmitCodes.Statement i := by
  cases i with
  | create c => exact Laws.EmitCodes.create c
  | compress f len => exact Laws.EmitCodes.compress f len
  | destroy => exact Laws.EmitCodes.destroy
  | lit7 b => exact Laws.EmitCodes.lit7 b
  | lit8 b => exact Laws.EmitCodes.lit8 b
  | off8kA d => exact Laws.EmitCodes.off8kA d
  | off8kB d => exact Laws.EmitCodes.off8kB d
  | off8kC d => exact Laws.EmitCodes.off8kC d
  | off64kA d => exact Laws.EmitCodes.off64kA d
  | off64kB d => exact Laws.EmitCodes.off64kB d
  | off64kC d => exact Laws.EmitCodes.off64kC d
  | off64kD d => exact Laws.EmitCodes.off64kD d
  | len3 => exact Laws.EmitCodes.len3
  | len4 v => exact Laws.EmitCodes.len4 v
  | len8 v => exact Laws.EmitCodes.len8 v
  | len16 v => exact Laws.EmitCodes.len16 v
  | len32 v => exact Laws.EmitCodes.len32 v
  | len64 v => exact Laws.EmitCodes.len64 v
  | len128 v => exact Laws.EmitCodes.len128 v
  | len256 v => exact Laws.EmitCodes.len256 v
  | len512 v => exact Laws.EmitCodes.len512 v
  | len1024 v => exact Laws.EmitCodes.len1024 v
  | len2048 v => exact Laws.EmitCodes.len2048 v
  | len4096 v => exact Laws.EmitCodes.len4096 v
  | len8192 v => exact Laws.EmitCodes.len8192 v
  | len16384 v => exact Laws.EmitCodes.len16384 v
  | len32768 v => exact Laws.EmitCodes.len32768 v

/-! ### Widths (R97 to R99) -/

theorem length_encode_literal {i : Instr} {x : Byte} (h : literalByte i = some x) :
    (encode i).length = 8 ∨ (encode i).length = 9 := by
  cases i <;> simp [literalByte] at h <;> simp [encode]

theorem length_encode_offset {i : Instr} {v : Variant} {d : Nat} (h : offsetOf i = some (v, d)) :
    10 ≤ (encode i).length ∧ (encode i).length ≤ 19 := by
  cases i <;> simp [offsetOf] at h <;> simp [encode, onesZero]

/-- After the longest offset code a length code still leaves a copy cheaper than its bytes (R101 (e)). -/
theorem length_encode_length {i : Instr} {l : Nat} (h : lengthOf i = some l) : 19 + (encode i).length < 8 * l := by
  cases i <;> simp [lengthOf] at h <;> subst h <;> simp [encode, onesZero] <;> omega

/-! ### The codes of the default tables (R102, R103) -/

/-- The code of a token's format: its codeword, its emits within their widths, and not empty. -/
theorem emits_of_token {p : Position} (hp : p ≠ .command) {i : Instr} (h : i.fits p = true) :
    emitsString (emits i) = encode i ∧ emits i ≠ [] := by
  have noCommand : i.fits .command = false := by
    cases i <;> simp [Instr.fits] at h ⊢ <;> exact hp h
  exact ⟨emitsString_emits noCommand, emits_ne_nil noCommand⟩

/-- `es` is the code of the token format `i` at position `p`. -/
structure CodeOf (p : Position) (i : Instr) (es : List Emit) : Prop where
  fits : i.fits p = true
  row : es = emits i
  codeword : emitsString es = encode i
  nonempty : es ≠ []

theorem codeOf_emits {p : Position} (hp : p ≠ .command) {i : Instr} (h : i.fits p = true) : CodeOf p i (emits i) :=
  ⟨h, rfl, (emits_of_token hp h).1, (emits_of_token hp h).2⟩

theorem CodeOf.code_lt {p : Position} {i : Instr} {es : List Emit} (h : CodeOf p i es) : ∀ e ∈ es, e.code < 2 ^ e.width := by
  rw [h.row]
  exact emits_code_lt i

theorem CodeOf.eq_of_begins {p : Position} (hp : p ≠ .command) {i k : Instr} {es fs : List Emit} (h : CodeOf p i es)
    (g : CodeOf p k fs) (begins : emitsString es <+: emitsString fs) : i = k := by
  rw [h.codeword, g.codeword] at begins
  exact eq_of_encode_begins hp h.fits g.fits begins

/-- The default table of a variant. -/
def defaultCodes (v : Variant) : CodeTable := codeTable Config.defaultBuild v

theorem codesOff_default {v : Variant} {d : Nat} : CodesOff (defaultCodes v) d ↔ 1 ≤ d ∧ d < Config.cap v := by
  have farthest : (defaultCodes v).maxOff = Config.cap v - 1 := by cases v <;> rfl
  have pos : 0 < Config.cap v := by cases v <;> decide
  unfold CodesOff
  rw [farthest]
  omega

theorem codesLen_default {v : Variant} {l : Nat} : CodesLen (defaultCodes v) l ↔ 3 ≤ l ∧ l ≤ Config.defaultMaxLen v := by
  cases v <;> rfl

theorem default_lit (v : Variant) (x : Byte) :
    literalByte (litToken x) = some x ∧ CodeOf (.token v) (litToken x) ((defaultCodes v).lit x) := by
  have code : (defaultCodes v).lit x = emits (litToken x) := by cases v <;> rfl
  rw [code]
  exact ⟨literalByte_litToken x, codeOf_emits (by simp) (fits_litToken x v)⟩

theorem off_of_offToken {v : Variant} {d : Nat} {i : Instr} (hd : CodesOff (defaultCodes v) d) (h : offToken v d = some i) :
    (defaultCodes v).off d = emits i := by
  have table : (defaultCodes v).off d =
      if 1 ≤ d ∧ d ≤ (defaultCodes v).maxOff then ((offToken v d).map emits).getD [] else [] := by cases v <;> rfl
  rw [table, if_pos (show _ ∧ _ from hd), h]
  rfl

theorem default_off {v : Variant} {d : Nat} (hd : CodesOff (defaultCodes v) d) :
    ∃ i, offsetOf i = some (v, d) ∧ CodeOf (.token v) i ((defaultCodes v).off d) := by
  obtain ⟨pos, below⟩ := codesOff_default.1 hd
  obtain ⟨i, row, distance, fits⟩ := offToken_spec pos below
  rw [off_of_offToken hd row]
  exact ⟨i, distance, codeOf_emits (by simp) fits⟩

theorem default_len {v : Variant} {l : Nat} (hl : CodesLen (defaultCodes v) l) :
    ∃ i, lengthOf i = some l ∧ CodeOf (.length v) i ((defaultCodes v).len l) := by
  obtain ⟨least, most⟩ := codesLen_default.1 hl
  obtain ⟨i, row, length, fits⟩ := lenToken_spec least most
  have table : (defaultCodes v).len l =
      if (defaultCodes v).minLen ≤ l ∧ l ≤ (defaultCodes v).maxLen then ((lenToken v l).map emits).getD [] else [] := by
    cases v <;> rfl
  rw [table, if_pos (show _ ∧ _ from hl), row]
  exact ⟨i, length, codeOf_emits (by simp) fits⟩

/-- No format is both a literal and an offset code. -/
theorem literalByte_of_offset {i : Instr} {v : Variant} {d : Nat} (h : offsetOf i = some (v, d)) : literalByte i = none := by
  cases i <;> simp [offsetOf] at h <;> rfl

/-! ### The offset bands (R98, R101 (f)) -/

theorem offToken_off8kA {d : Nat} (h : 1 ≤ d ∧ d ≤ 63) :
    offToken .v8k d = some (.off8kA (BitVec.ofNat 6 d)) := by
  rw [offToken, if_neg (by omega), if_pos (by omega)]

theorem offToken_off8kB {d : Nat} (h : 64 ≤ d ∧ d ≤ 319) :
    offToken .v8k d = some (.off8kB (BitVec.ofNat 8 (d - 64))) := by
  rw [offToken, if_neg (by omega), if_neg (by omega), if_pos (by omega)]

theorem offToken_off8kC {d : Nat} (h : 320 ≤ d ∧ d ≤ 8191) :
    offToken .v8k d = some (.off8kC (BitVec.ofNat 13 (d - 320))) := by
  rw [offToken, if_neg (by omega), if_neg (by omega), if_neg (by omega), if_pos (by omega)]

theorem offToken_off64kA {d : Nat} (h : 1 ≤ d ∧ d ≤ 63) :
    offToken .v64k d = some (.off64kA (BitVec.ofNat 6 d)) := by
  rw [offToken, if_neg (by omega), if_pos (by omega)]

theorem offToken_off64kB {d : Nat} (h : 64 ≤ d ∧ d ≤ 319) :
    offToken .v64k d = some (.off64kB (BitVec.ofNat 8 (d - 64))) := by
  rw [offToken, if_neg (by omega), if_neg (by omega), if_pos (by omega)]

theorem offToken_off64kC {d : Nat} (h : 320 ≤ d ∧ d ≤ 2367) :
    offToken .v64k d = some (.off64kC (BitVec.ofNat 11 (d - 320))) := by
  rw [offToken, if_neg (by omega), if_neg (by omega), if_neg (by omega), if_pos (by omega)]

theorem offToken_off64kD {d : Nat} (h : 2368 ≤ d ∧ d ≤ 65535) :
    offToken .v64k d = some (.off64kD (BitVec.ofNat 16 (d - 2368))) := by
  rw [offToken, if_neg (by omega), if_neg (by omega), if_neg (by omega), if_neg (by omega), if_pos (by omega)]

/-- The rows of R98: the distances of each format, its leading bits, its value field. -/
def defaultBands : Variant → List OffsetBand
  | .v8k =>
    [{ first := 1, last := 63, pre := [true, true, true, true], width := 6, base := 0 },
      { first := 64, last := 319, pre := onesZero 3, width := 8, base := 64 },
      { first := 320, last := 8191, pre := onesZero 2, width := 13, base := 320 }]
  | .v64k =>
    [{ first := 1, last := 63, pre := [true, true, true, true, true], width := 6, base := 0 },
      { first := 64, last := 319, pre := onesZero 4, width := 8, base := 64 },
      { first := 320, last := 2367, pre := onesZero 3, width := 11, base := 320 },
      { first := 2368, last := 65535, pre := onesZero 2, width := 16, base := 2368 }]

/-- A band whose distances all have one format `mk`, with the band's leading bits and the distance less its base, is one of the table. -/
theorem OffsetBand.Of.of_format {v : Variant} {b : OffsetBand} (mk : BitVec b.width → Instr)
    (bounds : 1 ≤ b.first ∧ b.first ≤ b.last ∧ b.last < Config.cap v ∧ b.base ≤ b.first ∧ b.last - b.base < 2 ^ b.width)
    (row : ∀ d, b.Has d → offToken v d = some (mk (BitVec.ofNat b.width (d - b.base))))
    (codeword : ∀ x, encode (mk x) = b.pre ++ natBits b.width x.toNat) : b.Of (defaultCodes v) := by
  obtain ⟨pos, nonempty, below, base, field⟩ := bounds
  refine ⟨⟨b.first, Nat.le_refl _, nonempty⟩, fun d ⟨lower, upper⟩ => ?_⟩
  have inField : d - b.base < 2 ^ b.width := by omega
  have coded : CodesOff (defaultCodes v) d := codesOff_default.2 ⟨by omega, by omega⟩
  obtain ⟨i, format, distance, fits⟩ := offToken_spec (v := v) (d := d) (by omega) (by omega)
  have same := row d ⟨lower, upper⟩
  rw [format, Option.some.injEq] at same
  refine ⟨coded, by omega, inField, ?_⟩
  rw [off_of_offToken coded format, (emits_of_token (by simp) fits).1, same, codeword, BitVec.toNat_ofNat,
    Nat.mod_eq_of_lt inField]

theorem default_bands {v : Variant} : ∀ b ∈ defaultBands v, b.Of (defaultCodes v) := by
  cases v <;>
    simp only [defaultBands, List.forall_mem_cons, List.not_mem_nil, false_imp_iff, implies_true, and_true]
  case v8k =>
    exact ⟨.of_format .off8kA (by decide) (fun _ h => offToken_off8kA h) fun _ => rfl,
      .of_format .off8kB (by decide) (fun _ h => offToken_off8kB h) fun _ => rfl,
      .of_format .off8kC (by decide) (fun _ h => offToken_off8kC h) fun _ => rfl⟩
  case v64k =>
    exact ⟨.of_format .off64kA (by decide) (fun _ h => offToken_off64kA h) fun _ => rfl,
      .of_format .off64kB (by decide) (fun _ h => offToken_off64kB h) fun _ => rfl,
      .of_format .off64kC (by decide) (fun _ h => offToken_off64kC h) fun _ => rfl,
      .of_format .off64kD (by decide) (fun _ h => offToken_off64kD h) fun _ => rfl⟩

/-- The bands cover every distance up to CAP − 1. -/
theorem default_bands_cover {v : Variant} {d : Nat} (h1 : 1 ≤ d) (h2 : d < Config.cap v) : ∃ b ∈ defaultBands v, b.Has d := by
  cases v <;> simp only [Config.cap] at h2 <;> simp [defaultBands, OffsetBand.Has] <;> omega

theorem default_widest (v : Variant) : WidestOffsetField (Config.offw v) (defaultCodes v) := by
  have widths : (∀ b ∈ defaultBands v, b.width ≤ Config.offw v) ∧ ∃ b ∈ defaultBands v, b.width = Config.offw v := by
    cases v <;> decide
  refine ⟨defaultBands v, fun b hb => ⟨default_bands b hb, widths.1 b hb⟩, fun d hd => ?_, widths.2⟩
  obtain ⟨pos, below⟩ := codesOff_default.1 hd
  exact default_bands_cover pos below

/-! ### The default tables are well-formed (R101) -/

theorem default_tableWellFormed (v : Variant) : TableWellFormed v (codeTable Config.defaultBuild v) where
  offSome d hd := by
    obtain ⟨i, -, code⟩ := default_off hd
    exact code.nonempty
  lenSome l hl := by
    obtain ⟨i, -, code⟩ := default_len hl
    exact code.nonempty
  litCode x := (default_lit v x).2.code_lt
  offCode d hd := by
    obtain ⟨i, -, code⟩ := default_off hd
    exact code.code_lt
  lenCode l hl := by
    obtain ⟨i, -, code⟩ := default_len hl
    exact code.code_lt
  litWidth x := by
    obtain ⟨byte, code⟩ := default_lit v x
    have width := length_encode_literal byte
    rwa [← code.codeword] at width
  litFree x y h := by
    obtain ⟨byteX, codeX⟩ := default_lit v x
    obtain ⟨byteY, codeY⟩ := default_lit v y
    rw [codeX.eq_of_begins (by simp) codeY h, byteY] at byteX
    exact (Option.some.inj byteX).symm
  offFree d e hd he h := by
    obtain ⟨i, distD, codeD⟩ := default_off hd
    obtain ⟨k, distE, codeE⟩ := default_off he
    rw [codeD.eq_of_begins (by simp) codeE h, distE] at distD
    cases distD
    rfl
  mixedFree x d hd := by
    obtain ⟨byte, codeX⟩ := default_lit v x
    obtain ⟨i, dist, codeD⟩ := default_off hd
    have differ : litToken x ≠ i := fun same => by
      rw [same, literalByte_of_offset dist] at byte
      cases byte
    exact ⟨fun h => differ (codeX.eq_of_begins (by simp) codeD h), fun h => differ (codeD.eq_of_begins (by simp) codeX h).symm⟩
  lenFree k l hk hl h := by
    obtain ⟨i, lengthK, codeK⟩ := default_len hk
    obtain ⟨j, lengthL, codeL⟩ := default_len hl
    rw [codeK.eq_of_begins (by simp) codeL h, lengthL] at lengthK
    exact (Option.some.inj lengthK).symm
  tokenLong d l hd _ := by
    obtain ⟨i, dist, code⟩ := default_off hd
    have long := (length_encode_offset dist).1
    rw [← code.codeword] at long
    exact Nat.le_trans (Nat.le_trans (by decide) long) (Nat.le_add_right _ _)
  copyCheap d l hd hl := by
    obtain ⟨i, dist, codeD⟩ := default_off hd
    obtain ⟨k, length, codeL⟩ := default_len hl
    have offset := (length_encode_offset dist).2
    have both := length_encode_length length
    rw [← codeD.codeword] at offset
    rw [← codeL.codeword] at both
    exact Nat.lt_of_le_of_lt (Nat.add_le_add_right offset _) both
  offField := default_widest v

/-! ### The state after reset (10_state R50, 70 R275) -/

/-- Settles O47: the default tables are well-formed, every named value fits its width, no store lists anything, and there is no session. -/
theorem resetMeetsTheInvariant : Obligations.ResetMeetsTheInvariant := by
  unfold Obligations.ResetMeetsTheInvariant
  exact
    { tables := fun v _ => default_tableWellFormed v
      accepting := fun h => absurd rfl h
      widths := by constructor <;> exact Nat.two_pow_pos _
      stores := ⟨rfl, fun _ h => (nomatch h), rfl, fun _ h => (nomatch h), rfl, fun _ h => (nomatch h)⟩
      dictionary := fun h => nomatch h
      resting := fun _ =>
        ⟨rfl, rfl, fun h => (nomatch h), fun a h => absurd h (Nat.not_lt_zero a), fun h => absurd h (Nat.not_lt_zero 0)⟩
      encoding := fun h => absurd rfl h
      literal := fun h => (nomatch h)
      copy := fun h => (nomatch h)
      sent := fun h => (nomatch h)
      done := fun h => (nomatch h) }

end Sys2Proof.Safety
end

section
/-! SUPPORT. 20_memory: what a step does to the output span that the host has borrowed (R78). -/

namespace Sys2Proof.Safety

open Sys2Proof.Machine

/-- What a step does to the borrowed span: only the core's reset, a command that opens or ends a session, and the states of an encode
pass, from the acceptance of a COMPRESS to its commit, can touch it. -/
inductive SpanTo (s t : State) : Prop where
  | keeps (bytes : t.obMem = s.obMem) (length : t.spanLen = s.spanLen)
  | noSession (gone : s.sess ≠ .ready ∨ t.sess ≠ .ready)
  | inPass (busy : s.teState ≠ .idle ∨ t.teState ≠ .idle)

/-- A step outside IDLE belongs to an encode pass. -/
theorem SpanTo.of_state {s t : State} {q : TeState} (now : s.teState = q) (busy : q ≠ .idle) : SpanTo s t :=
  .inPass (.inl (now ▸ busy))

theorem SpanTo.of_command {c : Word} {s t : State} (h : CommandTo c { s with accepted := none } t) : SpanTo s t := by
  cases h with
  | fails e error next => subst next; exact .keeps (failCmd_obMem e _) (failCmd_spanLen e _)
  | creates v absent fitsBuild next => exact .noSession (.inl fun ready => nomatch ready.symm.trans absent)
  | compresses f len ready pos le next => subst next; exact .inPass (.inr (by simp))
  | destroys word next => subst next; exact .noSession (.inr (by simp))

theorem StepTo.span {s t : State} (h : StepTo s t) : SpanTo s t := by
  cases h with
  | reset pin next => subst next; exact .noSession (.inr (by simp))
  | waits pin idle free empty next => subst next; exact .keeps rfl rfl
  | accepts pin idle free c cs queue next => subst next; exact .keeps rfl rfl
  | command pin idle c taken next => exact .of_command next
  | takes pin scan short next => exact .of_state scan nofun
  | finalizes pin scan full atEnd next => exact .of_state scan nofun
  | literal pin scan full inside sel next => exact .of_state scan nofun
  | copy pin scan full inside c d l sel next => exact .of_state scan nofun
  | emitsLiteral pin lit x byte ends => exact .of_state lit nofun
  | emitsOffset pin mat first ends => exact .of_state mat nofun
  | emitsLength pin mat second inside ends => exact .of_state mat nofun
  | passes pin isDone larger room next => exact .of_state isDone nofun
  | delivers pin isDone smaller next => exact .of_state isDone nofun

/-- Settles O45, by what a step does to the span. -/
theorem spanStableUntilTheNextCompress : Obligations.SpanStableUntilTheNextCompress := by
  unfold Obligations.SpanStableUntilTheNextCompress
  intro s t h idle idle' ready ready'
  cases (step_cases h).span with
  | keeps bytes length => exact ⟨bytes, length⟩
  | noSession gone => exact absurd ready' (gone.resolve_left (not_not.2 ready))
  | inPass busy => exact absurd idle' (busy.resolve_left (not_not.2 idle))

end Sys2Proof.Safety
end

section
/-! SUPPORT. The encoder and the decoder agree (30_encoding R91, R92, R97 to R99, R104): a command word taken apart into its fields, and
each reader turned round, so that the bits it read are the encoding of what it answers. -/

namespace Sys2Proof

/-! ### Words put together from parts -/

theorem toNat_append_eq {m n : Nat} (x : BitVec m) (y : BitVec n) : (x ++ y).toNat = x.toNat * 2 ^ n + y.toNat := by
  rw [BitVec.toNat_append, ← Nat.shiftLeft_add_eq_or_of_lt y.isLt, Nat.shiftLeft_eq]

theorem append_inj {m n : Nat} {x x' : BitVec m} {y y' : BitVec n} (h : x ++ y = x' ++ y') : x = x' ∧ y = y' := by
  constructor
  · simpa only [BitVec.extractLsb'_append_eq_left] using congrArg (BitVec.extractLsb' n m) h
  · simpa only [BitVec.extractLsb'_append_eq_right] using congrArg (BitVec.extractLsb' 0 n) h

/-! ### The fields of a command word (R91) -/

/-- The fields of a command word, from bit 31 down; `reserved` is 26:17. -/
structure CommandFields where
  op : BitVec 2
  flushReq : Bool
  variantCode : BitVec 2
  reserved : BitVec 10
  len : BitVec 17

namespace CommandFields

/-- The word with these fields. -/
def word (a : CommandFields) : Word := a.op ++ BitVec.ofBool a.flushReq ++ a.variantCode ++ a.reserved ++ a.len

/-- The fields of a word. -/
def of (c : Word) : CommandFields :=
  { op := c.extractLsb' 30 2, flushReq := c.getLsbD 29, variantCode := c.extractLsb' 27 2
    reserved := c.extractLsb' 17 10, len := c.extractLsb' 0 17 }

/-- The fields of a word under a mask. -/
def and (a m : CommandFields) : CommandFields :=
  { op := a.op &&& m.op, flushReq := a.flushReq && m.flushReq, variantCode := a.variantCode &&& m.variantCode
    reserved := a.reserved &&& m.reserved, len := a.len &&& m.len }

theorem word_of (c : Word) : (of c).word = c := by
  have flush : BitVec.ofBool (c.getLsbD 29) = c.extractLsb' 29 1 := by
    apply BitVec.eq_of_getLsbD_eq
    simp
  simp only [word, of, flush]
  rw [BitVec.extractLsb'_append_extractLsb'_eq_extractLsb' (start₁ := 29) (len₁ := 1) rfl,
    BitVec.extractLsb'_append_extractLsb'_eq_extractLsb' (start₁ := 27) (len₁ := 2) rfl,
    BitVec.extractLsb'_append_extractLsb'_eq_extractLsb' (start₁ := 17) (len₁ := 10) rfl,
    BitVec.extractLsb'_append_extractLsb'_eq_extractLsb' (start₁ := 0) (len₁ := 17) rfl]
  exact BitVec.extractLsb'_eq_self

theorem word_inj {a b : CommandFields} (h : a.word = b.word) : a = b := by
  obtain ⟨op, f, v, r, l⟩ := a
  obtain ⟨op', f', v', r', l'⟩ := b
  obtain ⟨h, rfl⟩ := append_inj h
  obtain ⟨h, rfl⟩ := append_inj h
  obtain ⟨h, rfl⟩ := append_inj h
  obtain ⟨rfl, flush⟩ := append_inj h
  obtain rfl : f = f' := by simpa using congrArg (BitVec.getLsbD · 0) flush
  rfl

theorem of_word (a : CommandFields) : of a.word = a := word_inj (word_of a.word)

theorem word_and (a m : CommandFields) : a.word &&& m.word = (a.and m).word := by
  have bit : BitVec.ofBool a.flushReq &&& BitVec.ofBool m.flushReq = BitVec.ofBool (a.flushReq && m.flushReq) :=
    BitVec.ofBool_and_ofBool
  rw [word, word, BitVec.and_append, BitVec.and_append, BitVec.and_append, BitVec.and_append, bit]
  rfl

theorem and_word_eq_iff {a m b : CommandFields} : a.word &&& m.word = b.word ↔ a.and m = b := by
  rw [word_and]
  exact ⟨word_inj, congrArg word⟩

/-- A word without a reserved bit is the number that the encoder writes. -/
theorem toNat_word (op : BitVec 2) (flush : Bool) (code : BitVec 2) (len : BitVec 17) :
    (word ⟨op, flush, code, 0#10, len⟩).toNat = commandWord op.toNat flush.toNat code.toNat len.toNat := by
  have split : (word ⟨op, flush, code, 0#10, len⟩).toNat =
      (((op.toNat * 2 ^ 1 + flush.toNat) * 2 ^ 2 + code.toNat) * 2 ^ 10 + (0#10).toNat) * 2 ^ 17 + len.toNat := by
    rw [word, toNat_append_eq, toNat_append_eq, toNat_append_eq, toNat_append_eq, BitVec.toNat_ofBool]
  rw [split, commandWord, BitVec.toNat_zero]
  omega

end CommandFields

open CommandFields

/-- The three match/mask pairs (R92) as conditions on the fields. -/
theorem decodeCommand_word (a : CommandFields) :
    decodeCommand a.word =
      if a.op = 0#2 ∧ a.flushReq = false ∧ a.reserved = 0#10 ∧ a.len = 0#17 then .ok (.create a.variantCode)
      else if a.op = 1#2 ∧ a.variantCode = 0#2 ∧ a.reserved = 0#10 then .ok (.compress a.flushReq a.len)
      else if a.op = 2#2 ∧ a.flushReq = false ∧ a.variantCode = 0#2 ∧ a.reserved = 0#10 ∧ a.len = 0#17 then .ok .destroy
      else .error .illegalCommand := by
  have create : a.word &&& 0xE7FFFFFF#32 = 0x00000000#32 ↔
      a.op = 0#2 ∧ a.flushReq = false ∧ a.reserved = 0#10 ∧ a.len = 0#17 := by
    refine (and_word_eq_iff (m := ⟨.allOnes 2, true, 0#2, .allOnes 10, .allOnes 17⟩)
      (b := ⟨0#2, false, 0#2, 0#10, 0#17⟩)).trans ?_
    simp only [CommandFields.and, mk.injEq, BitVec.and_allOnes, BitVec.and_zero, Bool.and_true, true_and]
  have compress : a.word &&& 0xDFFE0000#32 = 0x40000000#32 ↔ a.op = 1#2 ∧ a.variantCode = 0#2 ∧ a.reserved = 0#10 := by
    refine (and_word_eq_iff (m := ⟨.allOnes 2, false, .allOnes 2, .allOnes 10, 0#17⟩)
      (b := ⟨1#2, false, 0#2, 0#10, 0#17⟩)).trans ?_
    simp only [CommandFields.and, mk.injEq, BitVec.and_allOnes, BitVec.and_zero, Bool.and_false, true_and, and_true]
  have destroy : a.word &&& 0xFFFFFFFF#32 = 0x80000000#32 ↔
      a.op = 2#2 ∧ a.flushReq = false ∧ a.variantCode = 0#2 ∧ a.reserved = 0#10 ∧ a.len = 0#17 := by
    refine (and_word_eq_iff (m := ⟨.allOnes 2, true, .allOnes 2, .allOnes 10, .allOnes 17⟩)
      (b := ⟨2#2, false, 0#2, 0#10, 0#17⟩)).trans ?_
    simp only [CommandFields.and, mk.injEq, BitVec.and_allOnes, Bool.and_true]
  have code : a.word.extractLsb' 27 2 = a.variantCode := congrArg variantCode (of_word a)
  have flush : a.word.getLsbD 29 = a.flushReq := congrArg flushReq (of_word a)
  have length : a.word.extractLsb' 0 17 = a.len := congrArg len (of_word a)
  simp only [decodeCommand, create, compress, destroy, code, flush, length]

/-- The four operation codes, `0b11` among them (R91). -/
theorem op_cases (op : BitVec 2) : op = 0#2 ∨ op = 1#2 ∨ op = 2#2 ∨ op = 3#2 := by
  revert op
  decide

/-- The fields of an illegal word: an unused code, a reserved bit, or a field that the operation does not use (R108). -/
theorem decodeCommand_word_illegal_iff (a : CommandFields) :
    decodeCommand a.word = .error .illegalCommand ↔
      (a.op = 3#2 ∨ a.reserved ≠ 0#10 ∨
        (a.op = 0#2 ∧ (a.flushReq = true ∨ a.len ≠ 0#17)) ∨
        (a.op = 1#2 ∧ a.variantCode ≠ 0#2) ∨
        (a.op = 2#2 ∧ (a.flushReq = true ∨ a.variantCode ≠ 0#2 ∨ a.len ≠ 0#17))) := by
  rw [decodeCommand_word]
  rcases op_cases a.op with op | op | op | op
  · grind
  · grind
  · grind
  · simp [op]

/-- Settles O4: every word is the word of its fields. -/
theorem illegalCommandWordsExactly : Obligations.IllegalCommandWordsExactly := by
  unfold Obligations.IllegalCommandWordsExactly
  intro c
  have illegal := decodeCommand_word_illegal_iff (of c)
  rwa [word_of] at illegal

/-! ### Encoding and decoding a command (R91, R92) -/

/-- The fields of a command's word (R91); a token has none. -/
def commandFields : Instr → Option CommandFields
  | .create code => some ⟨0#2, false, code, 0#10, 0#17⟩
  | .compress flush len => some ⟨1#2, flush, 0#2, 0#10, len⟩
  | .destroy => some ⟨2#2, false, 0#2, 0#10, 0#17⟩
  | _ => none

theorem fits_command_iff {i : Instr} : i.fits .command = true ↔ ∃ a, commandFields i = some a := by
  cases i with
  | create code => exact ⟨fun _ => ⟨_, rfl⟩, fun _ => rfl⟩
  | compress flush len => exact ⟨fun _ => ⟨_, rfl⟩, fun _ => rfl⟩
  | destroy => exact ⟨fun _ => ⟨_, rfl⟩, fun _ => rfl⟩
  | _ => exact ⟨nofun, fun ⟨_, h⟩ => nomatch h⟩

theorem encode_of_commandFields {i : Instr} {a : CommandFields} (h : commandFields i = some a) :
    encode i = natBits 32 a.word.toNat := by
  cases i with
  | create code => cases h; rw [toNat_word]; rfl
  | compress flush len => cases h; rw [toNat_word]; rfl
  | destroy => cases h; rw [toNat_word]; rfl
  | _ => cases h

/-- A word is decoded to a command exactly when it is the word of the command's fields. -/
theorem decodeCommand_word_ok_iff {a : CommandFields} {i : Instr} :
    decodeCommand a.word = .ok i ↔ commandFields i = some a := by
  obtain ⟨op, flush, code, reserved, len⟩ := a
  rw [decodeCommand_word]
  constructor
  · intro h
    dsimp only at h
    split at h
    · rename_i fields
      obtain ⟨rfl, rfl, rfl, rfl⟩ := fields
      cases h; rfl
    · split at h
      · rename_i fields
        obtain ⟨rfl, rfl, rfl⟩ := fields
        cases h; rfl
      · split at h
        · rename_i fields
          obtain ⟨rfl, rfl, rfl, rfl, rfl⟩ := fields
          cases h; rfl
        · cases h
  · intro h
    cases i with
    | create code => cases h; simp
    | compress flush len => cases h; simp
    | destroy => cases h; simp
    | _ => cases h

/-- A command is read back from its word, whatever follows. -/
theorem decode_encode_of_command {i : Instr} (h : i.fits .command = true) (rest : List Bool) :
    decode .command (encode i ++ rest) = .ok (i, rest) := by
  obtain ⟨a, fields⟩ := fits_command_iff.1 h
  rw [encode_of_commandFields fields]
  exact (decode_command_natBits a.word rest).1 i (decodeCommand_word_ok_iff.2 fields)

/-- The bits that were read as a command are its word. -/
theorem decode_command_ok {bs rest : List Bool} {i : Instr} (h : decode .command bs = .ok (i, rest)) :
    i.fits .command = true ∧ bs = encode i ++ rest := by
  cases taken : takeNat 32 bs with
  | none => simp [decode, taken] at h
  | some read =>
    obtain ⟨x, r⟩ := read
    obtain ⟨small, bits⟩ := takeNat_eq_some taken
    have back := decode_command_of_takeNat taken
    cases decoded : decodeCommand (BitVec.ofNat 32 x) with
    | error e => simp [back.2 e decoded] at h
    | ok k =>
      rw [back.1 k decoded] at h
      cases h
      rw [← word_of (BitVec.ofNat 32 x)] at decoded
      have fields := decodeCommand_word_ok_iff.1 decoded
      refine ⟨fits_command_iff.2 ⟨_, fields⟩, ?_⟩
      rw [encode_of_commandFields fields, word_of, BitVec.toNat_ofNat, Nat.mod_eq_of_lt small, bits]

/-! ### What the token readers read (R97 to R99) -/

/-- Bits `pre` and a value field that was read are the codeword of a format that is spelled by them. -/
theorem format_ok {w : Nat} {mk : BitVec w → Instr} {p : Position} (pre : List Bool) {bs rest : List Bool} {i : Instr}
    (fits : ∀ x, (mk x).fits p = true) (codeword : ∀ x, encode (mk x) = pre ++ natBits w x.toNat)
    (h : decodeField w mk bs = .ok (i, rest)) : i.fits p = true ∧ pre ++ bs = encode i ++ rest := by
  obtain ⟨x, rfl, rfl⟩ := decodeField_ok h
  exact ⟨fits x, by rw [codeword, List.append_assoc]⟩

/-- The bits that were read as a literal or an offset code are its codeword. -/
theorem decodeToken_ok {v : Variant} {bs rest : List Bool} {i : Instr} (h : decodeToken v bs = .ok (i, rest)) :
    i.fits (.token v) = true ∧ bs = encode i ++ rest := by
  unfold decodeToken at h
  split at h
  · exact format_ok [false] (by cases v <;> exact fun _ => rfl) (fun _ => rfl) h
  · exact format_ok [true, false] (by cases v <;> exact fun _ => rfl) (fun _ => rfl) h
  · exact format_ok (onesZero 2) (fun _ => rfl) (fun _ => rfl) h
  · exact format_ok (onesZero 3) (fun _ => rfl) (fun _ => rfl) h
  · exact format_ok [true, true, true, true] (fun _ => rfl) (fun _ => rfl) h
  · exact format_ok (onesZero 2) (fun _ => rfl) (fun _ => rfl) h
  · exact format_ok (onesZero 3) (fun _ => rfl) (fun _ => rfl) h
  · exact format_ok (onesZero 4) (fun _ => rfl) (fun _ => rfl) h
  · exact format_ok [true, true, true, true, true] (fun _ => rfl) (fun _ => rfl) h
  · cases h

/-- The bits that were read as a length code are its codeword (R99). -/
theorem decodeLength_ok {v : Variant} {bs rest : List Bool} {i : Instr} (h : decodeLength v bs = .ok (i, rest)) :
    i.fits (.length v) = true ∧ bs = encode i ++ rest := by
  have both {i : Instr} (h8 : i.fits (.length .v8k) = true) (h64 : i.fits (.length .v64k) = true) :
      i.fits (.length v) = true := by cases v <;> assumption
  unfold decodeLength at h
  split at h
  · cases h
  · rename_i r run
    cases h
    exact ⟨both rfl rfl, unaryRun_some run⟩
  case h_14 r run | h_15 r run | h_16 r run =>
    rw [unaryRun_some run]
    cases v with
    | v8k => cases h
    | v64k => exact format_ok _ (fun _ => rfl) (fun _ => rfl) h
  case h_17 => cases h
  all_goals
    rename_i run
    rw [unaryRun_some run]
    exact format_ok _ (fun _ => both rfl rfl) (fun _ => rfl) h

/-! ### The whole decoder -/

/-- Settles O1, at each position by its own reader. -/
theorem decodeReadsBackEveryEncoding : Obligations.DecodeReadsBackEveryEncoding := by
  unfold Obligations.DecodeReadsBackEveryEncoding
  intro i p rest fits
  cases p with
  | command => exact decode_encode_of_command fits rest
  | token v => exact decodeToken_encode fits rest
  | length v => exact decodeLength_encode fits rest

/-- Settles O2, at each position by its own reader turned round. -/
theorem decodedBitsAreTheEncoding : Obligations.DecodedBitsAreTheEncoding := by
  unfold Obligations.DecodedBitsAreTheEncoding
  intro p bs rest i h
  cases p with
  | command => exact decode_command_ok h
  | token v => exact decodeToken_ok h
  | length v => exact decodeLength_ok h

/-- Settles O5, by the lemma on the formats of the default table. -/
theorem emitsSpellTheCodeword : Obligations.EmitsSpellTheCodeword := by
  unfold Obligations.EmitsSpellTheCodeword
  exact fun _ token => Safety.emitsString_emits token

/-- Settles O3: each word or bit string is evaluated. -/
theorem writtenWordsDecode : Obligations.WrittenWordsDecode := by
  unfold Obligations.WrittenWordsDecode
  decide

end Sys2Proof
end

section
/-! SUPPORT. The response word and the flags byte (30_encoding R93 to R95), field by field. -/

namespace Sys2Proof.Safety

open Sys2Proof.Machine

/-- The fields of the response word (R93), the length in 17 bits. -/
theorem responseWord_fields (r : Response) :
    (responseWord r).extractLsb' 28 4 = statusCode r.status ∧ (responseWord r).extractLsb' 20 8 = flagsByte r.flags ∧
      (responseWord r).extractLsb' 17 3 = 0#3 ∧ (responseWord r).extractLsb' 0 17 = BitVec.ofNat 17 r.len := by
  refine ⟨?_, ?_, ?_, BitVec.extractLsb'_append_eq_right⟩
  · exact (BitVec.extractLsb'_append_eq_of_le (w := 17) (by decide)).trans <|
      (BitVec.extractLsb'_append_eq_of_le (w := 3) (by decide)).trans BitVec.extractLsb'_append_eq_left
  · exact (BitVec.extractLsb'_append_eq_of_le (w := 17) (by decide)).trans <|
      (BitVec.extractLsb'_append_eq_of_le (w := 3) (by decide)).trans BitVec.extractLsb'_append_eq_right
  · exact (BitVec.extractLsb'_append_eq_of_le (w := 17) (by decide)).trans BitVec.extractLsb'_append_eq_right

/-- The bits of the flags byte (R95). -/
theorem flagsByte_bits (f : FlagSet) :
    (flagsByte f).getLsbD 7 = f.flushed ∧ (flagsByte f).getLsbD 6 = f.atFront ∧ (flagsByte f).getLsbD 5 = f.compressed ∧
      (flagsByte f).extractLsb' 0 5 = 0#5 := by
  obtain ⟨compressed, front, flushed⟩ := f
  revert compressed front flushed
  decide

/-- Settles O7, by the fields of the two words. -/
theorem responseWordLayout : Obligations.ResponseWordLayout := by
  unfold Obligations.ResponseWordLayout
  refine ⟨⟨rfl, rfl, rfl, rfl, rfl, rfl, rfl⟩, fun r small => ?_⟩
  obtain ⟨status, flags, zeros, len⟩ := responseWord_fields r
  exact ⟨status, flags, zeros, by rw [len, BitVec.toNat_ofNat, Nat.mod_eq_of_lt small], flagsByte_bits r.flags⟩

end Sys2Proof.Safety
end

section
/-! SUPPORT. The parameter CodeTable (30_encoding R100, R101, R156): the build that has a given table and a given hash, and the
widths of the default table's offset formats. -/

namespace Sys2Proof.Safety

open Sys2Proof.Machine

/-! ### A function held as a store -/

/-- The store that lists `f` at every address below `n`. -/
def tabulate {α : Type} (f : Nat → α) : Nat → List (Nat × α)
  | 0 => []
  | n + 1 => writeCell n (f n) (tabulate f n)

theorem readCell_tabulate {α : Type} (f : Nat → α) {a n : Nat} (h : a < n) : readCell a (tabulate f n) = some (f a) := by
  induction n with
  | zero => exact absurd h (Nat.not_lt_zero a)
  | succ n ih =>
    rw [tabulate, readCell_writeCell]
    split
    · subst a; rfl
    · exact ih (by omega)

/-! ### The build with a given table and a given hash (R100, R156) -/

/-- The table parameters that hold these codes over the domains that the constants give. -/
def tableOf (lit : Byte → List Emit) (off len : Nat → List Emit) (least most far : Nat) : Config.TableParams :=
  { minLen := least, maxLen := most, maxOff := far, lit := tabulate (fun k => lit (BitVec.ofNat 8 k)) 256
    off := tabulate off (far + 1), len := tabulate len (most + 1) }

/-- The replaced values that hold a hash function, at the keys `b0·2^16 + b1·2^8 + b2`. -/
def hashCodesOf (h : Byte → Byte → Byte → Nat) : List (Nat × Nat) :=
  tabulate (fun k => h (BitVec.ofNat 8 (k / 65536)) (BitVec.ofNat 8 (k / 256)) (BitVec.ofNat 8 k)) 16777216

theorem ofNat_eq_byte {n : Nat} {b : Byte} (h : n % 256 = b.toNat) : BitVec.ofNat 8 n = b :=
  BitVec.eq_of_toNat_eq ((BitVec.toNat_ofNat n 8).trans h)

/-- The three bytes are the digits of their key, so that the value listed there is theirs. -/
theorem readCell_hashCodesOf (h : Byte → Byte → Byte → Nat) (b0 b1 b2 : Byte) :
    readCell (b0.toNat * 65536 + b1.toNat * 256 + b2.toNat) (hashCodesOf h) = some (h b0 b1 b2) := by
  have l0 := b0.isLt
  have l1 := b1.isLt
  have l2 := b2.isLt
  have digit0 : BitVec.ofNat 8 ((b0.toNat * 65536 + b1.toNat * 256 + b2.toNat) / 65536) = b0 := ofNat_eq_byte (by omega)
  have digit1 : BitVec.ofNat 8 ((b0.toNat * 65536 + b1.toNat * 256 + b2.toNat) / 256) = b1 := ofNat_eq_byte (by omega)
  have digit2 : BitVec.ofNat 8 (b0.toNat * 65536 + b1.toNat * 256 + b2.toNat) = b2 := ofNat_eq_byte (by omega)
  rw [hashCodesOf, readCell_tabulate _ (by omega), digit0, digit1, digit2]

/-- The table parameters of a build with those of one variant replaced. -/
def tablesWith (p : Config.Build) (v : Variant) (t : Config.TableParams) : Variant → Config.TableParams :=
  fun u => if u = v then t else Config.table p u

theorem tablesWith_legal (p : Config.Build) {v : Variant} {t : Config.TableParams} (legal : t.legal v = true) (u : Variant) :
    (tablesWith p v t u).legal u = true := by
  unfold tablesWith
  split
  · rename_i same; rwa [same]
  · exact table_legal p u

/-- A build with the table of one variant and the hash replaced. -/
def rebuild (p : Config.Build) (v : Variant) (t : Config.TableParams) (codes : List (Nat × Nat)) (legal : t.legal v = true) :
    Config.Build :=
  { p with
    hashCodes := codes, table8K := tablesWith p v t .v8k, table64K := tablesWith p v t .v64k
    checked := by
      have sizes := p.checked
      simp only [Config.Params.legal, Bool.and_eq_true] at sizes ⊢
      obtain ⟨⟨sizes, -⟩, -⟩ := sizes
      exact ⟨⟨sizes, tablesWith_legal p legal .v8k⟩, tablesWith_legal p legal .v64k⟩ }

section Rebuild

variable {p : Config.Build} {v : Variant} {t : Config.TableParams} {codes : List (Nat × Nat)} {legal : t.legal v = true}

theorem table_rebuild (u : Variant) : Config.table (rebuild p v t codes legal) u = tablesWith p v t u := by
  cases u <;> rfl

theorem table_rebuild_same : Config.table (rebuild p v t codes legal) v = t := by
  rw [table_rebuild, tablesWith, if_pos rfl]

theorem table_rebuild_other {u : Variant} (h : u ≠ v) : Config.table (rebuild p v t codes legal) u = Config.table p u := by
  rw [table_rebuild, tablesWith, if_neg h]

/-- The CodeTable of a variant depends on that variant's table parameters alone. -/
theorem codeTable_congr {p q : Config.Build} {u : Variant} (h : Config.table q u = Config.table p u) :
    codeTable q u = codeTable p u := by
  unfold codeTable Config.minLen Config.maxLen Config.maxOff
  rw [h]

theorem hashCodes_rebuild : (rebuild p v t codes legal).hashCodes = codes := rfl

/-- The sizes stay. -/
theorem sizes_rebuild : (rebuild p v t codes legal).obCap8K = p.obCap8K ∧ (rebuild p v t codes legal).obCap64K = p.obCap64K ∧
    (rebuild p v t codes legal).maxCap = p.maxCap ∧ (rebuild p v t codes legal).hashBits = p.hashBits ∧
    (rebuild p v t codes legal).loffw = p.loffw :=
  ⟨rfl, rfl, rfl, rfl, rfl⟩

/-- The reduction of `hash3` leaves a hash into `[0, 2^HASH_BITS)` alone. -/
theorem hash3_rebuild {h : Byte → Byte → Byte → Nat} (range : ∀ b0 b1 b2, h b0 b1 b2 < 2 ^ p.hashBits) (b0 b1 b2 : Byte) :
    hash3 (rebuild p v t (hashCodesOf h) legal) b0 b1 b2 = h b0 b1 b2 := by
  obtain ⟨-, -, -, bits, -⟩ := sizes_rebuild (p := p) (v := v) (t := t) (codes := hashCodesOf h) (legal := legal)
  rw [hash3, hashCodes_rebuild, readCell_hashCodesOf, Option.getD_some, Config.htSize, bits, Nat.mod_eq_of_lt (range b0 b1 b2)]

end Rebuild

section Given

variable {q : Config.Build} {v : Variant} {lit : Byte → List Emit} {off len : Nat → List Emit} {least most far : Nat}

theorem minLen_of_tableOf (h : Config.table q v = tableOf lit off len least most far) : (codeTable q v).minLen = least := by
  simp only [codeTable, Config.minLen, h, tableOf]

theorem maxLen_of_tableOf (h : Config.table q v = tableOf lit off len least most far) : (codeTable q v).maxLen = most := by
  simp only [codeTable, Config.maxLen, h, tableOf]

theorem maxOff_of_tableOf (h : Config.table q v = tableOf lit off len least most far) : (codeTable q v).maxOff = far := by
  simp only [codeTable, Config.maxOff, h, tableOf]

theorem lit_of_tableOf (h : Config.table q v = tableOf lit off len least most far) (x : Byte) : (codeTable q v).lit x = lit x := by
  simp only [codeTable, h, tableOf, readCell_tabulate _ x.isLt, Option.getD_some, BitVec.ofNat_toNat, BitVec.setWidth_eq]

theorem off_of_tableOf (h : Config.table q v = tableOf lit off len least most far) {d : Nat} (coded : CodesOff (codeTable q v) d) :
    (codeTable q v).off d = off d := by
  have near : d < far + 1 := Nat.lt_succ_of_le (maxOff_of_tableOf h ▸ coded.2)
  have inside : 1 ≤ d ∧ d ≤ Config.maxOff q v := coded
  simp only [codeTable, if_pos inside, h, tableOf, readCell_tabulate _ near, Option.getD_some]

theorem len_of_tableOf (h : Config.table q v = tableOf lit off len least most far) {l : Nat} (coded : CodesLen (codeTable q v) l) :
    (codeTable q v).len l = len l := by
  have short : l < most + 1 := Nat.lt_succ_of_le (maxLen_of_tableOf h ▸ coded.2)
  have inside : Config.minLen q v ≤ l ∧ l ≤ Config.maxLen q v := coded
  simp only [codeTable, if_pos inside, h, tableOf, readCell_tabulate _ short, Option.getD_some]

end Given

/-- Settles O58: the build lists every code of the table's domains and every value of the hash. -/
theorem everyTableAndHashCanBeGiven : Obligations.EveryTableAndHashCanBeGiven := by
  unfold Obligations.EveryTableAndHashCanBeGiven
  intro p v lit off len least most far h pos small order near range
  have legal : (tableOf lit off len least most far).legal v = true := by
    simp [Config.TableParams.legal, tableOf, pos, small, order, near]
  have given := table_rebuild_same (p := p) (codes := hashCodesOf h) (legal := legal)
  exact ⟨rebuild p v _ (hashCodesOf h) legal, minLen_of_tableOf given, maxLen_of_tableOf given, maxOff_of_tableOf given,
    lit_of_tableOf given, fun _ => off_of_tableOf given, fun _ => len_of_tableOf given, hash3_rebuild range,
    fun u other => codeTable_congr (table_rebuild_other other), sizes_rebuild⟩

/-! ### The default tables (R98, R101) -/

/-- No offset format of a variant has a value field wider than OFFW. -/
theorem offsetFieldWidth_le {i : Instr} {v : Variant} {d : Nat} (h : offsetOf i = some (v, d)) :
    offsetFieldWidth i ≤ Config.offw v := by
  cases i <;> simp [offsetOf] at h <;> obtain ⟨rfl, -⟩ := h <;> simp [offsetFieldWidth, Config.offw]

/-- Settles O6: the default tables are well-formed, and the last band of R98 has the widest field. -/
theorem defaultTablesWellFormed : Obligations.DefaultTablesWellFormed := by
  unfold Obligations.DefaultTablesWellFormed
  intro v
  refine ⟨default_tableWellFormed v, fun d i row => offsetFieldWidth_le (offsetOf_offToken row), ?_⟩
  cases v with
  | v8k => exact ⟨8191, _, offToken_off8kC (by decide), rfl⟩
  | v64k => exact ⟨65535, _, offToken_off64kD (by decide), rfl⟩

end Sys2Proof.Safety
end

section
/-! SUPPORT. The History Buffer (40_history_buffer R140 to R145): what its three operations do where the window shows the logical
stream. -/

namespace Sys2Proof.Safety

open Sys2Proof.Machine

/-! ### Which offsets are in the window -/

/-- An offset in the window after APPEND was in the window before, or is the new one (40 R145). -/
theorem inWindow_of_hbAppend {x : Byte} {s : State} {o : Nat} (h : InWindow (hbAppend x s) o) : InWindow s o ∨ o = s.w := by
  obtain ⟨below, above⟩ := h
  simp only [hbAppend_w, hbAppend_variant] at below above
  unfold InWindow
  omega

theorem not_inWindow_hbReset (s : State) (o : Nat) : ¬ InWindow (hbReset s) o :=
  fun h => Nat.not_lt_zero o h.1

/-! ### The window shows the stream -/

/-- APPEND adds its byte to the stream: at the old `W` stands the new byte, and no other offset of the window is overwritten. -/
theorem mirrors_hbAppend {D : List Byte} {s : State} (h : Mirrors D s) (x : Byte) : Mirrors (D ++ [x]) (hbAppend x s) := by
  obtain ⟨length, shows⟩ := h
  refine ⟨by simp [length], fun o inside => ?_⟩
  rcases inWindow_of_hbAppend inside with old | rfl
  · have above : s.w < o + Config.cap s.variant := inside.2
    rw [histByte_hbAppend_of_window x old.1 above, shows o old, List.getElem?_append_left (length ▸ old.1)]
  · rw [histByte_hbAppend_self, ← length, List.getElem?_concat_length]

theorem mirrors_hbReset (s : State) : Mirrors [] (hbReset s) :=
  ⟨rfl, fun o inside => absurd inside (not_inWindow_hbReset s o)⟩

/-- Settles O24: APPEND adds its byte to the stream, RESET leaves an empty window. -/
theorem windowShowsTheStream : Obligations.WindowShowsTheStream := by
  unfold Obligations.WindowShowsTheStream
  exact fun D x s h => ⟨mirrors_hbAppend h x, mirrors_hbReset s⟩

/-! ### Reading -/

/-- In the window READ answers the byte of the stream, which reaches up to `W` (40 R143). -/
theorem hbRead_of_mirrors {D : List Byte} {s : State} {o : Nat} (h : Mirrors D s) (inside : InWindow s o) :
    ∃ x, D[o]? = some x ∧ hbRead o s = .ok x := by
  obtain ⟨length, shows⟩ := h
  have inStream : o < D.length := length ▸ inside.1
  have byte : D[o]? = some D[o] := List.getElem?_eq_getElem inStream
  exact ⟨D[o], byte, hbRead_inWindow inside ((shows o inside).trans byte)⟩

/-- Settles O25, by the two cases of READ: an offset in the window and one outside it. -/
theorem readServesOnlyTheWindow : Obligations.ReadServesOnlyTheWindow := by
  unfold Obligations.ReadServesOnlyTheWindow
  exact fun D o s h => ⟨hbRead_of_mirrors h, hbRead_outside⟩

end Sys2Proof.Safety
end

section
/-! SUPPORT. The Match Finder (41_match_finder R156, R161): the value of the default hash and the range of every build's, and what
MF.EXTEND answers. -/

namespace Sys2Proof.Safety

open Sys2Proof.Machine

/-! ### MF.HASH -/

/-- A byte shifted by at most 4 places keeps all its bits in the 12 of the default hash. -/
theorem toNat_byte_shiftLeft (b : Byte) {k : Nat} (h : k ≤ 4) : (b.setWidth 12 <<< k).toNat = 2 ^ k * b.toNat := by
  have byte : b.toNat < 2 ^ 8 := b.isLt
  have room : 2 ^ k ≤ 2 ^ 4 := Nat.pow_le_pow_right (by decide) h
  have fits : 2 ^ k * b.toNat < 2 ^ 12 :=
    calc 2 ^ k * b.toNat < 2 ^ 4 * 2 ^ 8 := Nat.mul_lt_mul_of_le_of_lt room byte (by decide)
      _ = 2 ^ 12 := (Nat.pow_add 2 4 8).symm
  rw [BitVec.toNat_shiftLeft, BitVec.toNat_setWidth_of_le (by decide), Nat.shiftLeft_eq, Nat.mul_comm, Nat.mod_eq_of_lt fits]

/-- R156's formula in numbers. -/
theorem toNat_defaultHash (b0 b1 b2 : Byte) : (defaultHash b0 b1 b2).toNat = 16 * b0.toNat ^^^ 4 * b1.toNat ^^^ b2.toNat := by
  simp only [defaultHash, BitVec.toNat_xor, toNat_byte_shiftLeft b0 (k := 4) (by decide),
    toNat_byte_shiftLeft b1 (k := 2) (by decide), BitVec.toNat_setWidth_of_le (show 8 ≤ 12 by decide), Nat.reducePow]

/-- The default build replaces no value of the default hash, and its 12 bits are HASH_BITS. -/
theorem hash3_defaultBuild (b0 b1 b2 : Byte) : hash3 Config.defaultBuild b0 b1 b2 = (defaultHash b0 b1 b2).toNat :=
  Nat.mod_eq_of_lt (defaultHash b0 b1 b2).isLt

/-- Settles O59: the default hash is the formula's value; every build, the default one too, reduces its hash modulo `2^HASH_BITS`. -/
theorem hashFollowsItsFormula : Obligations.HashFollowsItsFormula := by
  unfold Obligations.HashFollowsItsFormula
  exact fun b0 b1 b2 => ⟨(hash3_defaultBuild b0 b1 b2).trans (toNat_defaultHash b0 b1 b2), hash3_lt Config.defaultBuild b0 b1 b2,
    fun p => hash3_lt p b0 b1 b2⟩

/-! ### MF.EXTEND -/

/-- The bytes that MF.EXTEND compares are the chunk's from `j` on. -/
theorem getElem?_take_drop_chunk {s : State} {m i : Nat} (h : i < m) :
    ((s.chunk.drop s.j).take m)[i]? = s.chunk[s.j + i]? := by
  rw [List.getElem?_take_of_lt h, List.getElem?_drop]

/-- With the whole chunk taken, MF.EXTEND compares as many bytes as its limit. -/
theorem length_take_drop_chunk {s : State} (full : s.chunk.length = s.n) (most : Nat) :
    ((s.chunk.drop s.j).take (min (s.n - s.j) most)).length = min (s.n - s.j) most := by
  rw [List.length_take, List.length_drop, full, Nat.min_eq_left (Nat.min_le_left _ _)]

/-- Settles O27: the run of matching bytes is taken over the chunk's bytes from `j` up to the limit. -/
theorem extendIsTheLongestMatch : Obligations.ExtendIsTheLongestMatch := by
  unfold Obligations.ExtendIsTheLongestMatch
  intro c l s full extended
  obtain ⟨within, verified, stopped⟩ := matchRun_spec extended
  rw [length_take_drop_chunk full] at within stopped
  refine ⟨within, fun i inside => ?_, fun short => ?_⟩
  · rw [← getElem?_take_drop_chunk (Nat.lt_of_lt_of_le inside within)]
    exact verified i inside
  · rw [← getElem?_take_drop_chunk short]
    exact stopped short

end Sys2Proof.Safety
end

section
/-! SUPPORT. The Bit Assembler (42_bit_assembler R176 to R181): what START and FINISH leave, and which emits answer. -/

namespace Sys2Proof.Safety

open Sys2Proof.Machine

/-! ### BA.START and BA.FINISH -/

/-- START leaves no trailing byte to hold on to (42 R176). -/
theorem assemblerReady_baStart (s : State) : AssemblerReady (baStart s) :=
  ⟨Nat.zero_lt_succ 7, fun filled => absurd filled (Nat.lt_irrefl 0)⟩

@[simp] theorem streamPos_baStart (s : State) : streamPos (baStart s) = 0 := rfl

/-- FINISH writes no bit (42 R179). -/
@[simp] theorem streamBit_baFinish (s : State) (m : Nat) : streamBit (baFinish s) m = streamBit s m := by
  simp only [streamBit, baFinish_obMem]

theorem baFinish_obIdx {s : State} (h : s.obBits < 8) : (baFinish s).obIdx = (streamPos s + 7) / 8 := by
  rw [baFinish_eq h]

theorem baFinish_obBits {s : State} (h : s.obBits < 8) : (baFinish s).obBits = 0 := by
  rw [baFinish_eq h]

/-- Emits after START are all of the output stream: the cursor counts their bits, and they are its first bits. -/
theorem stream_of_baEmits_baStart {es : List Emit} {s t : State} (h : baEmits es (baStart s) = .ok t) :
    AssemblerReady t ∧ streamPos t = (emitsString es).length ∧
      ∀ k, (inside : k < (emitsString es).length) → streamBit t k = some (emitsString es)[k] := by
  obtain ⟨-, ready, count, -, -, bits, -⟩ := baEmits_ok (assemblerReady_baStart s) h
  simp only [streamPos_baStart, Nat.zero_add] at count bits
  exact ⟨ready, count, bits⟩

/-! ### The padding -/

/-- From the cursor to the end of its byte the output stream holds zeros: the trailing byte was cleared when it was opened
(42 R177, R179). -/
theorem AssemblerReady.streamBit_padding {s : State} (h : AssemblerReady s) {k : Nat} (past : streamPos s ≤ k)
    (inside : k < 8 * ((streamPos s + 7) / 8)) : streamBit s k = some false := by
  obtain ⟨cursor, trailing⟩ := h
  unfold streamPos at past inside
  have started : 0 < s.obBits := by omega
  have sameByte : k / 8 = s.obIdx := by omega
  obtain ⟨x, value, unfilled⟩ := trailing started
  have zero : x.getLsbD (7 - k % 8) = false := unfilled _ (by omega)
  rw [streamBit, sameByte, value, Option.map_some, zero]

/-- Settles O22: the emits are the first bits of the stream; FINISH writes none and rounds their count up to bytes, so that what is left
of the last byte is its padding. -/
theorem bitPackingExact : Obligations.BitPackingExact := by
  unfold Obligations.BitPackingExact
  intro es s t emitted
  obtain ⟨ready, count, bits⟩ := stream_of_baEmits_baStart emitted
  have bytes : (baFinish t).obIdx = ((emitsString es).length + 7) / 8 := count ▸ baFinish_obIdx ready.1
  refine ⟨bytes, baFinish_obBits ready.1, fun k inside => ?_, fun k past inside => ?_⟩
  · rw [streamBit_baFinish]
    exact bits k inside
  · rw [streamBit_baFinish]
    exact ready.streamBit_padding (count ▸ past) (baFinish_obIdx ready.1 ▸ inside)

/-! ### BA.EMIT -/

/-- Settles O23, by the two sides of the capacity check (42 R177, R181). -/
theorem emitOverflowsExactlyWhenFull : Obligations.EmitOverflowsExactlyWhenFull := by
  unfold Obligations.EmitOverflowsExactlyWhenFull
  intro e s ready
  refine ⟨baEmit_overflow e, fun fits => ?_⟩
  obtain ⟨t, emitted, only, -, appended⟩ := baEmit_spec e ready fits
  exact ⟨t, emitted, appended, only⟩

end Sys2Proof.Safety
end

section
/-! SUPPORT. The bit budget of a pass (43 R203): with the token in progress its emits are at most 9 bits for each byte of the chunk, so that
they fit a buffer of the worst-case size. -/

namespace Sys2Proof.Safety

open Sys2Proof.Machine

/-- The emits `es` end within the worst case of a pass, 9 bits for each byte of its chunk. -/
def WithinBudget (s : State) (es : List Emit) : Prop := streamPos s + (emitsString es).length ≤ 9 * s.n

/-- A literal costs 9 bits at most (30_encoding R101 (b)). -/
theorem Inv.literal_withinBudget {s : State} (hi : Inv s) (lit : s.teState = .emitLiteral) (x : Byte) :
    WithinBudget s ((sessionTable s).lit x) := by
  have hp : s.teState ≠ .idle := by simp [lit]
  have inside := hi.literal lit
  have budget := (hi.encoding hp).budget (by simp [lit])
  have unsent := sentWidth_of_not_sent (hi.sent_false (by simp [lit]))
  have width := (hi.table_of_pass hp).litWidth x
  unfold WithinBudget
  omega

/-- A copy token of `m_len` bytes costs less than 8 bits for each of them (30_encoding R101 (e)). -/
theorem Inv.copy_cost {s : State} (hi : Inv s) (mat : s.teState = .emitMatch) :
    (emitsString ((sessionTable s).off s.mD)).length + (emitsString ((sessionTable s).len s.mLen)).length < 8 * s.mLen :=
  (hi.table_of_pass (by simp [mat])).copyCheap _ _ (hi.copy mat).codesOff (hi.copy mat).codesLen

theorem Inv.offset_withinBudget {s : State} (hi : Inv s) (mat : s.teState = .emitMatch) (first : s.offSent = false) :
    WithinBudget s ((sessionTable s).off s.mD) := by
  have inside := (hi.copy mat).inside
  have budget := (hi.encoding (by simp [mat])).budget (by simp [mat])
  have unsent := sentWidth_of_not_sent first
  have cost := hi.copy_cost mat
  unfold WithinBudget
  omega

theorem Inv.length_withinBudget {s : State} (hi : Inv s) (mat : s.teState = .emitMatch) (second : s.offSent = true) :
    WithinBudget s ((sessionTable s).len s.mLen) := by
  have inside := (hi.copy mat).inside
  have budget := (hi.encoding (by simp [mat])).budget (by simp [mat])
  have sent : sentWidth s = (emitsString ((sessionTable s).off s.mD)).length := by simp [sentWidth, second]
  have cost := hi.copy_cost mat
  unfold WithinBudget
  omega

/-- With the worst-case buffer emits within the budget complete. -/
theorem Encoding.emits_of_budget {es : List Emit} {s : State} (enc : Encoding s) (sized : WorstCaseSized s.build)
    (cheap : WithinBudget s es) : ∃ u, baEmits es s = .ok u := by
  have room := sized s.variant
  have short := enc.nCap
  unfold WithinBudget at cheap
  obtain ⟨u, emitted, -⟩ := baEmits_spec es enc.assembler (by omega)
  exact ⟨u, emitted⟩

/-- With the worst-case buffer a token within the budget keeps the session state, where what follows its emits keeps it. -/
theorem TokenEnd.sess_of_budget {es : List Emit} {s t : State} {k : State → State} (ends : TokenEnd es s k t)
    (enc : Encoding s) (sized : WorstCaseSized s.build) (cheap : WithinBudget s es) (rest : ∀ u, (k u).sess = u.sess) :
    t.sess = s.sess := by
  cases ends with
  | completes u emitted next => rw [next, rest, baEmits_only emitted]
  | overflows full next =>
    obtain ⟨u, emitted⟩ := enc.emits_of_budget sized cheap
    exact nomatch full.symm.trans emitted

/-- No command makes a session FAULTED (60 R248). -/
theorem CommandTo.not_faulted {c : Word} {s t : State} (h : CommandTo c s t) (faulted : t.sess = .faulted) :
    s.sess = .faulted := by
  cases h with
  | fails e error next => subst next; exact faulted
  | creates v absent fitsBuild next => subst next; cases faulted
  | compresses f len ready pos le next => rwa [next, acceptChunk_sess] at faulted
  | destroys word next => subst next; cases faulted

/-- Settles O50: only a token can overflow, and each token is within the budget of the pass. -/
theorem worstCaseBufferNeverOverflows : Obligations.WorstCaseBufferNeverOverflows := by
  unfold Obligations.WorstCaseBufferNeverOverflows
  intro s t hi sized h faulted
  cases step_cases h with
  | reset pin next => subst next; cases faulted
  | waits pin idle free empty next => rwa [next] at faulted
  | accepts pin idle free c cs queue next => rwa [next] at faulted
  | command pin idle c taken next => exact next.not_faulted faulted
  | takes pin scan short next => rwa [next] at faulted
  | finalizes pin scan full atEnd next => rwa [next, teFinalize_sess] at faulted
  | literal pin scan full inside sel next => rwa [next] at faulted
  | copy pin scan full inside c d l sel next => rwa [next] at faulted
  | emitsLiteral pin lit x byte ends =>
    have same := ends.sess_of_budget (hi.encoding (by simp [lit])) sized (hi.literal_withinBudget lit x) fun u =>
      consumeFromJ_sess 1 u
    exact same.symm.trans faulted
  | emitsOffset pin mat first ends =>
    have same := ends.sess_of_budget (hi.encoding (by simp [mat])) sized (hi.offset_withinBudget mat first) fun u => rfl
    exact same.symm.trans faulted
  | emitsLength pin mat second inside ends =>
    have same := ends.sess_of_budget (hi.encoding (by simp [mat])) sized (hi.length_withinBudget mat second) fun u =>
      consumeFromJ_sess s.mLen u
    exact same.symm.trans faulted
  | passes pin isDone larger room next => rwa [next] at faulted
  | delivers pin isDone smaller next => rwa [next] at faulted

end Sys2Proof.Safety
end

section
/-! SUPPORT. A COMPRESS completes (43 R201, 70 R289): in every state of a pass the steps that are left are bounded by a number that each step
lowers, until a step ends the command. -/

namespace Sys2Proof.Safety

open Sys2Proof.Machine

/-! ### The steps that are left -/

/-- The steps that a chunk byte can take: 2 for a literal, and 3 for a copy token, of one byte only where the table's MINLEN is 1
(log 5). -/
def stepsPerByte (s : State) : Nat := if Config.minLen s.build s.variant = 1 then 3 else 2

/-- A bound of the steps from a state of a pass to the response. -/
def stepsLeft (s : State) : Nat :=
  match s.teState with
  | .idle => 0
  | .scan => (if s.chunk.length < s.n then 1 else 0) + stepsPerByte s * (s.n - s.j) + 2
  | .emitLiteral => stepsPerByte s * (s.n - s.j) + 1
  | .emitMatch => stepsPerByte s * (s.n - s.j) + (if s.offSent then 0 else 1)
  | .done => 1

/-- The steps of a token that covers `l` bytes are paid by these bytes. -/
theorem stepsPerByte_split {s : State} {l : Nat} (inside : s.j + l ≤ s.n) :
    stepsPerByte s * (s.n - s.j) = stepsPerByte s * (s.n - (s.j + l)) + stepsPerByte s * l := by
  rw [← Nat.mul_add]
  congr 1
  omega

theorem two_le_stepsPerByte (s : State) : 2 ≤ stepsPerByte s := by
  unfold stepsPerByte
  split <;> omega

/-- A copy of MINLEN bytes at least pays for its three steps. -/
theorem three_le_steps_of_copy {s : State} (hm : Matched s) : 3 ≤ stepsPerByte s * s.mLen := by
  have least := (table_bounds s.build s.variant).1
  have long := hm.lMin
  unfold stepsPerByte
  split <;> omega

/-- The bound after a token of `l` bytes, back in SCAN. -/
theorem stepsLeft_finish {s u : State} {l : Nat} (only : OnlyAssembler s u) (full : s.chunk.length = s.n) :
    stepsLeft { consumeFromJ l u with j := s.j + l, teState := .scan, offSent := false } =
      stepsPerByte s * (s.n - (s.j + l)) + 2 := by
  obtain ⟨m, i, k, rfl⟩ := only.spelled
  simp [stepsLeft, stepsPerByte, full]

/-! ### What a step of a pass comes to -/

/-- `t` is the end of a COMPRESS that stood in `s`: the response is given, and where the session goes on the chunk's bytes, and no
others, have been taken (44 R229, 60 R248). -/
structure Completed (s t : State) : Prop where
  idle : t.teState = .idle
  valid : t.rspValid = true
  outcome : t.rsp.status = .ok ∧ t.sess = .ready ∧ t.inQ = s.inQ.drop (s.n - s.chunk.length) ∨
    t.rsp.status = .outputOverflow ∧ t.sess = .faulted
  sized : WorstCaseSized s.build → t.rsp.status = .ok

/-- `t` is further on in the pass of `s`, to whose chunk the host presents all bytes. -/
structure Continued (s t : State) : Prop where
  pass : t.teState ≠ .idle
  pin : t.rst = s.rst
  build : t.build = s.build
  offered : t.n ≤ t.chunk.length + t.inQ.length
  rest : t.inQ.drop (t.n - t.chunk.length) = s.inQ.drop (s.n - s.chunk.length)
  fewer : stepsLeft t < stepsLeft s

theorem Completed.of_continued {s t u : State} (h : Completed t u) (c : Continued s t) : Completed s u where
  idle := h.idle
  valid := h.valid
  outcome := by rw [← c.rest]; exact h.outcome
  sized := by rw [← c.build]; exact h.sized

/-- A fatal overflow ends the command where the buffer is not of the worst-case size (60 R248). -/
theorem completed_overflow {s : State} (small : ¬ WorstCaseSized s.build) : Completed s (raiseOverflow s) where
  idle := rfl
  valid := rfl
  outcome := .inr ⟨rfl, rfl⟩
  sized h := absurd h small

/-- A token completes and the pass goes on, or it overflows a buffer smaller than the worst case. -/
theorem TokenEnd.progress {es : List Emit} {s t : State} {k : State → State} (ends : TokenEnd es s k t) (enc : Encoding s)
    (cheap : WithinBudget s es) (goesOn : ∀ u, OnlyAssembler s u → Continued s (k u)) : Completed s t ∨ Continued s t := by
  cases ends with
  | completes u emitted next => subst next; exact .inr (goesOn u (baEmits_only emitted))
  | overflows full next =>
    refine .inl (next ▸ completed_overflow fun sized => ?_)
    obtain ⟨u, emitted⟩ := enc.emits_of_budget sized cheap
    exact nomatch full.symm.trans emitted

/-- A token of `l` bytes that is over leaves fewer steps. -/
theorem continued_finish {s u : State} {l : Nat} (only : OnlyAssembler s u) (full : s.chunk.length = s.n)
    (fewer : stepsPerByte s * (s.n - (s.j + l)) + 2 < stepsLeft s) :
    Continued s { consumeFromJ l u with j := s.j + l, teState := .scan, offSent := false } where
  pass := nofun
  pin := by rw [only]; simp
  build := by rw [only]; simp
  offered := by rw [only]; simp [full]
  rest := by rw [only]; simp
  fewer := by rw [stepsLeft_finish only full]; exact fewer

/-- The input transfer completes the chunk, where the host presents all of it (70 R283). -/
theorem length_takeInput {s : State} (short : s.chunk.length < s.n) (offered : s.n ≤ s.chunk.length + s.inQ.length) :
    (takeInput s).chunk.length = s.n := by
  rw [takeInput_chunk, List.length_append, List.length_take]
  omega

theorem continued_takeInput {s : State} (scan : s.teState = .scan) (short : s.chunk.length < s.n)
    (offered : s.n ≤ s.chunk.length + s.inQ.length) : Continued s (takeInput s) where
  pass := by simp [scan]
  pin := rfl
  build := rfl
  offered := by rw [length_takeInput short offered]; exact Nat.le_add_right _ _
  rest := by
    rw [length_takeInput short offered, takeInput_n, Nat.sub_self]
    rfl
  fewer := by
    have same : stepsPerByte (takeInput s) = stepsPerByte s := rfl
    simp only [stepsLeft, takeInput_teState, takeInput_n, takeInput_j, scan, length_takeInput short offered, same, short,
      Nat.lt_irrefl, if_false, if_true]
    omega

/-- Every step of a pass whose bytes are presented ends the command or leaves fewer steps. -/
theorem Inv.progress {s t : State} (hi : Inv s) (pin : s.rst = false) (hp : s.teState ≠ .idle)
    (offered : s.n ≤ s.chunk.length + s.inQ.length) (h : step s = .next t) : Completed s t ∨ Continued s t := by
  have enc := hi.encoding hp
  cases step_cases h with
  | reset pin' next => exact nomatch pin.symm.trans pin'
  | waits pin idle free empty next => exact absurd idle hp
  | accepts pin idle free c cs queue next => exact absurd idle hp
  | command pin idle c taken next => exact absurd idle hp
  | takes pin scan short next => subst next; exact .inr (continued_takeInput scan short offered)
  | finalizes pin scan full atEnd next =>
    subst next
    exact .inr ⟨nofun, by simp, by simp, by simpa using offered, by simp, by simp [stepsLeft, scan]⟩
  | literal pin scan full inside sel next =>
    subst next
    exact .inr ⟨nofun, rfl, rfl, offered, rfl, by simp only [stepsLeft, stepsPerByte, scan]; omega⟩
  | copy pin scan full inside c d l sel next =>
    subst next
    have unsent := hi.sent_false (by simp [scan])
    exact .inr ⟨nofun, rfl, rfl, offered, rfl, by simp [stepsLeft, stepsPerByte, scan, unsent]⟩
  | emitsLiteral pin lit x byte ends =>
    refine ends.progress enc (hi.literal_withinBudget lit x) fun u only =>
      continued_finish only (enc.full (by simp [lit])) ?_
    have parts := stepsPerByte_split (s := s) (l := 1) (hi.literal lit)
    have pays := two_le_stepsPerByte s
    simp only [stepsLeft, lit]
    omega
  | emitsOffset pin mat first ends =>
    refine ends.progress enc (hi.offset_withinBudget mat first) fun u only => ?_
    rw [only]
    exact ⟨hp, rfl, rfl, offered, rfl, by simp [stepsLeft, stepsPerByte, mat, first]⟩
  | emitsLength pin mat second inside ends =>
    refine ends.progress enc (hi.length_withinBudget mat second) fun u only =>
      continued_finish only (enc.full (by simp [mat])) ?_
    have parts := stepsPerByte_split (hi.copy mat).inside
    have pays := three_le_steps_of_copy (hi.copy mat)
    simp only [stepsLeft, mat, second, if_true]
    omega
  | passes pin isDone larger room next =>
    subst next
    refine .inl ⟨rfl, rfl, .inl ⟨rfl, enc.ready, ?_⟩, fun _ => rfl⟩
    rw [enc.full (by simp [isDone]), Nat.sub_self]
    rfl
  | delivers pin isDone smaller next =>
    subst next
    refine .inl ⟨rfl, rfl, .inl ⟨rfl, enc.ready, ?_⟩, fun _ => rfl⟩
    rw [enc.full (by simp [isDone]), Nat.sub_self]
    rfl

/-! ### The run of a pass -/

/-- In a pass at least one step is left. -/
theorem Inv.stepsLeft_pos {s : State} (hi : Inv s) (hp : s.teState ≠ .idle) : 0 < stepsLeft s := by
  cases here : s.teState with
  | idle => exact absurd here hp
  | scan => simp [stepsLeft, here]
  | emitLiteral => simp [stepsLeft, here]
  | emitMatch =>
    have parts := stepsPerByte_split (hi.copy here).inside
    have pays := three_le_steps_of_copy (hi.copy here)
    simp only [stepsLeft, here]
    omega
  | done => simp [stepsLeft, here]

/-- A pass whose bytes are presented completes within the steps that are left. -/
theorem Inv.completes {s : State} (hi : Inv s) (pin : s.rst = false) (hp : s.teState ≠ .idle)
    (offered : s.n ≤ s.chunk.length + s.inQ.length) :
    ∃ k t, k ≤ stepsLeft s ∧ Host.Core.run Sys2Proof.core k s = .next t ∧ Completed s t := by
  induction m : stepsLeft s using Nat.strong_induction_on generalizing s with
  | h m ih =>
    subst m
    obtain ⟨t, next⟩ := noStepStops s hi
    rcases hi.progress pin hp offered next with done | goesOn
    · exact ⟨1, t, hi.stepsLeft_pos hp, run_succ next rfl, done⟩
    · obtain ⟨k, u, few, run, done⟩ := ih _ goesOn.fewer (everyStepKeepsTheInvariant s t hi next) (goesOn.pin.trans pin)
        goesOn.pass goesOn.offered rfl
      exact ⟨k + 1, u, Nat.lt_of_le_of_lt few goesOn.fewer, run_succ next run, done.of_continued goesOn⟩

/-- Settles O52: the bound at the start of the pass. -/
theorem everyCompressCompletes : Obligations.EveryCompressCompletes := by
  unfold Obligations.EveryCompressCompletes
  intro s hi pin scan start offered
  obtain ⟨k, t, few, run, done⟩ := hi.completes pin (by simp [scan]) offered
  refine ⟨k, t, Nat.le_trans few ?_, run, done.idle, done.valid, done.outcome, done.sized⟩
  simp only [stepsLeft, scan, start, Nat.sub_zero, stepsPerByte]
  split <;> omega

end Sys2Proof.Safety
end

section
/-! SUPPORT. The tokens complete (43 R194 to R196): a token whose codeword fits appends it, and its consumes follow. -/

namespace Sys2Proof.Safety

open Sys2Proof.Machine

/-! ### The kind of a token (30_encoding R96) -/

theorem not_command_of_literalByte {i : Instr} {x : Byte} (h : literalByte i = some x) : i.fits .command = false := by
  cases i <;> first | rfl | cases h

theorem not_command_of_offsetOf {i : Instr} {v : Variant} {d : Nat} (h : offsetOf i = some (v, d)) :
    i.fits .command = false := by
  cases i <;> first | rfl | cases h

theorem not_command_of_lengthOf {i : Instr} {l : Nat} (h : lengthOf i = some l) : i.fits .command = false := by
  cases i <;> first | rfl | cases h

/-! ### Emits, then the rest of the token -/

/-- A token's codeword that fits is appended, and the rest of its meaning runs on a state that differs in the Bit Assembler only. -/
theorem afterEmits_token {i : Instr} {s : State} (token : i.fits .command = false) (ready : AssemblerReady s) (fits : Fits s i) :
    ∃ u, OnlyAssembler s u ∧ Appended s u (encode i) ∧ ∀ k, afterEmits (emits i) s k = k u := by
  have codeword := emitsString_emits token
  obtain ⟨u, only, -, appended, -, runs⟩ := afterEmits_fits (emits i) (emits_ne_nil token) ready (by rw [codeword]; exact fits)
  exact ⟨u, only, codeword ▸ appended, runs⟩

/-- What is appended is read from the output buffer and its cursor alone. -/
theorem Appended.congr {s u t : State} {bs : List Bool} (h : Appended s u bs) (mem : t.obMem = u.obMem)
    (idx : t.obIdx = u.obIdx) (bits : t.obBits = u.obBits) : Appended s t bs := by
  simpa only [Appended, streamPos, streamBit, mem, idx, bits] using h

/-- A token of `l` positions, after whose emits the consumes follow (43 R194 to R196). -/
theorem token_consumes {i : Instr} {s : State} {l : Nat} (token : i.fits .command = false) (ready : AssemblerReady s)
    (fits : Fits s i) (inside : s.j + l ≤ s.chunk.length) (short : l ≤ Config.cap s.variant) :
    ∃ t, afterEmits (emits i) s (finishToken l) = .next t ∧ Appended s t (encode i) ∧
      t = { s with
        hbMem := t.hbMem, w := s.w + l, ht := t.ht, obMem := t.obMem, obIdx := t.obIdx, obBits := t.obBits
        j := s.j + l, teState := .scan, offSent := false } ∧
      (∀ k, k < l → readCell ((s.w + k) % Config.cap s.variant) t.hbMem = s.chunk[s.j + k]?) ∧
      (∀ a, (∀ k, k < l → a ≠ (s.w + k) % Config.cap s.variant) → readCell a t.hbMem = readCell a s.hbMem) ∧
      Recorded s t s.j (s.j + l) := by
  obtain ⟨u, only, appended, runs⟩ := afterEmits_token token ready fits
  obtain ⟨t, finished, frame, written, kept, recorded⟩ := finishToken_spec only inside short
  have mem : t.obMem = u.obMem := by rw [frame]
  have idx : t.obIdx = u.obIdx := by rw [frame]
  have bits : t.obBits = u.obBits := by rw [frame]
  refine ⟨t, (runs _).trans finished, appended.congr mem idx bits, ?_, written, kept, recorded⟩
  rw [mem, idx, bits]
  exact frame

/-! ### The three kinds of tokens -/

/-- Settles O16: a literal is a token of one position. -/
theorem literalTokensComplete : Obligations.LiteralTokensComplete := by
  unfold Obligations.LiteralTokensComplete
  intro i x s isLiteral lit byte coded ready fits
  have inside : s.j + 1 ≤ s.chunk.length := (List.getElem?_eq_some_iff.1 byte).1
  have short : 1 ≤ Config.cap s.variant := Nat.zero_lt_of_lt (maxOff_lt_cap s.build s.variant)
  obtain ⟨t, runs, appended, frame, written, kept, recorded⟩ :=
    token_consumes (not_command_of_literalByte isLiteral) ready fits inside short
  refine ⟨t, ?_, appended, frame, (written 0 Nat.one_pos).trans byte, fun a other => kept a fun k first => ?_, recorded⟩
  · rw [exec_literal isLiteral, runLiteral, if_pos ⟨lit, byte, coded⟩, emitLiteral]
    exact runs
  · rwa [Nat.lt_one_iff.1 first]

/-- Settles O17: after the code of the distance only the half-sent bit is written. -/
theorem offsetTokensComplete : Obligations.OffsetTokensComplete := by
  unfold Obligations.OffsetTokensComplete
  intro i v d s isOffset mat first variant distance coded ready fits
  obtain ⟨u, only, appended, runs⟩ := afterEmits_token (not_command_of_offsetOf isOffset) ready fits
  refine ⟨{ u with offSent := true }, ?_, appended.congr rfl rfl rfl, by rw [only]⟩
  rw [exec_offset isOffset, runOffset, if_pos ⟨mat, first, variant, distance, coded⟩, emitOffset]
  exact runs _

/-- Settles O18: a length code ends a token of `m_len` positions. -/
theorem lengthTokensComplete : Obligations.LengthTokensComplete := by
  unfold Obligations.LengthTokensComplete
  intro i l s isLength mat second long coded short inside ready fits
  obtain ⟨t, runs, effects⟩ := token_consumes (not_command_of_lengthOf isLength) ready fits inside short
  refine ⟨t, ?_, effects⟩
  rw [exec_length isLength, runLength, if_pos ⟨mat, second, long, coded⟩, emitLength, long]
  exact runs

end Sys2Proof.Safety
end

section
/-! SUPPORT. The start of a pass and TE.SCAN (43 R191 to R193, R197, R204): the acceptance of a chunk, what the selector answers, and the
end of the chunk. -/

namespace Sys2Proof.Safety

open Sys2Proof.Machine

/-! ### The start of a pass -/

/-- A COMPRESS of a valid length on a READY session is accepted (44 R218, R219). -/
theorem exec_compress_ready {f : Bool} {len : BitVec 17} {s : State} (idle : s.teState = .idle) (ready : s.sess = .ready)
    (pos : 1 ≤ len.toNat) (short : len.toNat ≤ Config.cap s.variant) :
    exec (.compress f len) s = .next (acceptChunk f len.toNat s) := by
  have valid : ¬ (len.toNat = 0 ∨ Config.cap s.variant < len.toNat) := by omega
  simp only [exec, execCompress, idle, ready, ne_eq, not_true, if_false, valid]

/-- When the chunk's dictionary is emptied first: on request, or by the policy (44 R220, R222). -/
theorem acceptChunk_doFlush_iff (f : Bool) (n : Nat) (s : State) :
    (acceptChunk f n s).doFlush = true ↔ f = true ∨ 2 ^ s.build.loffw ≤ s.w + n := by
  rw [acceptChunk_doFlush, Bool.or_eq_true]
  exact or_congr_right decide_eq_true_iff

theorem acceptChunk_of_no_flush {f : Bool} {n : Nat} {s : State} (h : (acceptChunk f n s).doFlush = false) :
    (acceptChunk f n s).w = s.w ∧ (acceptChunk f n s).ht = s.ht := by
  rw [acceptChunk_doFlush] at h
  rw [acceptChunk_w, acceptChunk_ht, h]
  exact ⟨rfl, rfl⟩

theorem acceptChunk_of_flush {f : Bool} {n : Nat} {s : State} (h : (acceptChunk f n s).doFlush = true) :
    (acceptChunk f n s).w = 0 ∧ (acceptChunk f n s).ht = (resetDict s).ht := by
  rw [acceptChunk_doFlush] at h
  rw [acceptChunk_w, acceptChunk_ht, h]
  exact ⟨rfl, rfl⟩

/-- What the acceptance of a chunk writes (43 R191). -/
theorem acceptChunk_frame (f : Bool) (n : Nat) (s : State) :
    acceptChunk f n s = { s with
      w := (acceptChunk f n s).w, ht := (acceptChunk f n s).ht, n := n, b := (acceptChunk f n s).w, j := 0, obIdx := 0
      obBits := 0, teState := .scan, chunk := [], doFlush := (acceptChunk f n s).doFlush, offSent := false
      rspValid := false, spanLen := 0 } := by
  unfold acceptChunk
  split <;> rfl

/-- Settles O10, by what the acceptance of a chunk writes, with a flush and without one. -/
theorem compressStartsAnEncodePass : Obligations.CompressStartsAnEncodePass := by
  unfold Obligations.CompressStartsAnEncodePass
  intro f len s idle ready pos short
  refine ⟨_, exec_compress_ready idle ready pos short, acceptChunk_frame f len.toNat s, acceptChunk_doFlush_iff f len.toNat s,
    acceptChunk_of_no_flush, fun flushed => ?_⟩
  obtain ⟨atStart, cleared⟩ := acceptChunk_of_flush flushed
  exact ⟨atStart, fun h => (mfLookup_congr cleared h).trans (mfLookup_resetDict h s)⟩

/-! ### The selector (43 R193) -/

/-- SCAN with the whole chunk taken. -/
theorem step_of_full_scan {s : State} (pin : s.rst = false) (scan : s.teState = .scan) (full : s.chunk.length = s.n) :
    step s = teScan s := by
  rw [step_of_scan pin scan, if_neg (by omega)]

theorem teScan_literal {s : State} (inside : s.j < s.n) (sel : teSelect s = .ok .literal) :
    teScan s = .next { s with teState := .emitLiteral } := by
  rw [teScan, if_neg (Nat.ne_of_lt inside), sel]

theorem teScan_copy {s : State} {c d l : Nat} (inside : s.j < s.n) (sel : teSelect s = .ok (.copy c d l)) :
    teScan s = .next { s with mC := c, mD := d, mLen := l, teState := .emitMatch } := by
  rw [teScan, if_neg (Nat.ne_of_lt inside), sel]

/-- The tail rule (43 R199). -/
theorem teSelect_tail {s : State} (tail : s.n - s.j < 3) : teSelect s = .ok .literal := by
  rw [teSelect, if_pos tail]

section ThreeBytes

variable {s : State} {b0 b1 b2 : Byte} {rest : List Byte}

theorem teSelect_none (long : 3 ≤ s.n - s.j) (bytes : s.chunk.drop s.j = b0 :: b1 :: b2 :: rest)
    (found : mfLookup (hash3 s.build b0 b1 b2) s = .ok none) : teSelect s = .ok .literal := by
  simp only [teSelect, Nat.not_lt.2 long, if_false, bytes, found]

/-- A candidate outside the window filter gives a literal (41 R158). -/
theorem teSelect_not_served {c : Nat} (long : 3 ≤ s.n - s.j) (bytes : s.chunk.drop s.j = b0 :: b1 :: b2 :: rest)
    (found : mfLookup (hash3 s.build b0 b1 b2) s = .ok (some c))
    (outside : ¬ (c < s.w ∧ s.w - c ≤ Config.maxOff s.build s.variant)) : teSelect s = .ok .literal := by
  have notServed : served c s = false := decide_eq_false outside
  simp only [teSelect, Nat.not_lt.2 long, if_false, bytes, found, notServed, Bool.false_eq_true]

/-- A candidate that is served is taken exactly if its extension has MINLEN bytes (41 R162). -/
theorem teSelect_served {c l : Nat} (long : 3 ≤ s.n - s.j) (bytes : s.chunk.drop s.j = b0 :: b1 :: b2 :: rest)
    (found : mfLookup (hash3 s.build b0 b1 b2) s = .ok (some c)) (before : c < s.w)
    (near : s.w - c ≤ Config.maxOff s.build s.variant) (extended : mfExtend c s = .ok l) :
    teSelect s = .ok (if Config.minLen s.build s.variant ≤ l then .copy c (s.w - c) l else .literal) := by
  have isServed : served c s = true := decide_eq_true ⟨before, near⟩
  simp only [teSelect, Nat.not_lt.2 long, if_false, bytes, found, isServed, if_true, extended]
  split <;> rfl

end ThreeBytes

/-- Settles O30, case by case of the selector. -/
theorem scanFollowsTheSelector : Obligations.ScanFollowsTheSelector := by
  unfold Obligations.ScanFollowsTheSelector
  intro b0 b1 b2 rest s pin scan full inside
  rw [step_of_full_scan pin scan full]
  refine ⟨fun tail => teScan_literal inside (teSelect_tail tail), fun bytes => ?_⟩
  have long : 3 ≤ s.n - s.j := by
    rw [← full, ← List.length_drop, bytes]
    simp only [List.length_cons]
    omega
  refine ⟨fun found => teScan_literal inside (teSelect_none long bytes found),
    fun c found outside => teScan_literal inside (teSelect_not_served long bytes found outside),
    fun c l found before near extended => ?_⟩
  have sel := teSelect_served long bytes found before near extended
  refine ⟨fun less => teScan_literal inside ?_, fun enough => teScan_copy inside ?_⟩
  · rw [sel, if_neg (Nat.not_le.2 less)]
  · rw [sel, if_pos enough]

/-! ### What SCAN writes (43 R192, R197) -/

/-- Settles O31: FINALIZE rounds the bit count up to bytes. -/
theorem scanFinalizesAtTheEnd : Obligations.ScanFinalizesAtTheEnd := by
  unfold Obligations.ScanFinalizesAtTheEnd
  intro s pin scan full atEnd cursor
  rw [step_of_full_scan pin scan full, teScan, if_pos atEnd, teFinalize, baFinish_eq cursor]
  rfl

/-- FINALIZE writes the cursor and the sequencing state. -/
theorem teFinalize_frame (s : State) :
    teFinalize s = { s with obIdx := (teFinalize s).obIdx, obBits := (teFinalize s).obBits, teState := .done } := by
  unfold teFinalize baFinish
  split <;> rfl

/-- Settles O32, by the three ends of SCAN: FINALIZE, a literal, a copy. -/
theorem scanChangesOnlyTheSequencer : Obligations.ScanChangesOnlyTheSequencer := by
  unfold Obligations.ScanChangesOnlyTheSequencer
  intro s t pin scan full h
  rw [step_of_full_scan pin scan full, teScan] at h
  split at h
  · cases h
    rw [teFinalize_teState, teFinalize_mC, teFinalize_mD, teFinalize_mLen]
    exact ⟨teFinalize_frame s, fun notDone => absurd rfl notDone⟩
  · split at h
    · cases h
    · cases h; exact ⟨rfl, fun _ => ⟨rfl, rfl⟩⟩
    · cases h; exact ⟨rfl, fun _ => ⟨rfl, rfl⟩⟩

/-! ### The copies selected (43 R204) -/

/-- The default MAXOFF reaches back over the whole dictionary but one byte (00_scope R7). -/
theorem maxOff_defaultBuild (v : Variant) : Config.maxOff Config.defaultBuild v = Config.cap v - 1 := by
  cases v <;> rfl

/-- Settles O33: SCAN goes to EMIT_MATCH only with a copy that the selector chose, which is a verified match. -/
theorem selectedCopiesStayInTheWindow : Obligations.SelectedCopiesStayInTheWindow := by
  unfold Obligations.SelectedCopiesStayInTheWindow
  intro s t hi pin scan h mat
  have full : s.n ≤ s.chunk.length := by
    by_contra short
    rw [step_of_scan pin scan, if_pos (by omega)] at h
    cases h
    exact nomatch scan.symm.trans mat
  have hm : Matched t := (everyStepKeepsTheInvariant s t hi h).copy mat
  obtain ⟨frame, -⟩ := scanChangesOnlyTheSequencer s t pin scan (Nat.le_antisymm (hi.encoding (by simp [scan])).taken full) h
  obtain ⟨dMin, dMax, origin, lMin, lMax, inside, verified⟩ := hm
  have reach := maxOff_lt_cap s.build s.variant
  rw [frame] at dMax origin lMin lMax inside verified
  simp only at dMax origin lMin lMax inside verified
  exact ⟨dMin, dMax, by omega, maxOff_defaultBuild s.variant, by omega, by omega, lMin, by omega, verified⟩

end Sys2Proof.Safety
end

section
/-! SUPPORT. What the peer reads (43 R207): the tokens' effect on its bytes, and the bits of the output stream. -/

namespace Sys2Proof.Safety

open Sys2Proof.Machine

/-! ### Tokens -/

theorem denoteAll_append (ts us : List Token) (D : List Byte) :
    denoteAll (ts ++ us) D = (denoteAll ts D).bind (denoteAll us) := by
  induction ts generalizing D with
  | nil => rfl
  | cons t ts ih => simp only [List.cons_append, denoteAll, Option.bind_assoc, ih]

/-- One more token after a list of tokens. -/
theorem denoteAll_concat {ts : List Token} {t : Token} {D E F : List Byte} (before : denoteAll ts D = some E)
    (last : denote E t = some F) : denoteAll (ts ++ [t]) D = some F := by
  rw [denoteAll_append, before, Option.bind_some, denoteAll, last]
  rfl

/-- A copy gives the bytes `xs`, each of which equals the byte `d` back, which may be one of them (43 R207, 41 R161). -/
theorem copyBytes_eq {d : Nat} {D xs : List Byte} (pos : 1 ≤ d) (back : d ≤ D.length)
    (same : ∀ i, i < xs.length → xs[i]? = (D ++ xs)[D.length + i - d]?) : copyBytes d xs.length D = some (D ++ xs) := by
  induction xs generalizing D with
  | nil => simp [copyBytes]
  | cons x xs ih =>
    have first : D[D.length - d]? = some x := by
      have byte := same 0 (Nat.zero_lt_succ _)
      rw [Nat.add_zero, List.getElem?_append_left (by omega)] at byte
      exact byte.symm
    rw [List.length_cons, copyBytes, if_pos ⟨pos, back⟩, first]
    simp only
    rw [List.append_cons D x xs] at same ⊢
    refine ih (by simp; omega) fun i inside => ?_
    have byte := same (i + 1) (Nat.succ_lt_succ inside)
    rw [List.getElem?_cons_succ] at byte
    rw [byte, List.length_append, List.length_singleton]
    congr 1
    omega

/-! ### The output stream -/

/-- Bits appended to a stream that is known from its beginning. -/
theorem StreamIs.append {s u : State} {as bs : List Bool} (h : StreamIs s as) (count : streamPos s = as.length)
    (appended : Appended s u bs) : StreamIs u (as ++ bs) ∧ streamPos u = (as ++ bs).length := by
  obtain ⟨moved, -, kept, new, -⟩ := appended
  refine ⟨fun k inside => ?_, by rw [moved, count, List.length_append]⟩
  rw [List.getElem_append]
  split
  · rename_i old
    rw [kept k (count ▸ old), h k old]
  · rename_i past
    have bit := new (k - as.length) (by rw [List.length_append] at inside; omega)
    rwa [count, Nat.add_sub_cancel' (Nat.le_of_not_lt past)] at bit

/-- The stream is read from the output buffer alone. -/
theorem StreamIs.congr {s t : State} {bs : List Bool} (h : StreamIs s bs) (mem : t.obMem = s.obMem) : StreamIs t bs := by
  simpa only [StreamIs, streamBit, mem] using h

/-- The bits of a span, one by one (00_scope R13). -/
theorem getElem?_bitsOf (span : List Byte) (k : Nat) :
    (bitsOf span)[k]? = span[k / 8]?.map fun x => x.getLsbD (7 - k % 8) := by
  induction span generalizing k with
  | nil => rfl
  | cons x span ih =>
    have spelled : bitsOf (x :: span) = natBits 8 x.toNat ++ bitsOf span := rfl
    rw [spelled]
    by_cases first : k < 8
    · rw [List.getElem?_append_left (by simpa using first), List.getElem?_eq_getElem (by simpa using first), getElem_natBits,
        Nat.div_eq_of_lt first, Nat.mod_eq_of_lt first]
      rfl
    · rw [List.getElem?_append_right (by simpa using first), length_natBits, ih (k - 8)]
      obtain ⟨m, rfl⟩ : ∃ m, k = m + 8 := ⟨k - 8, by omega⟩
      simp

theorem length_bitsOf (span : List Byte) : (bitsOf span).length = 8 * span.length := by
  simp [bitsOf, List.length_flatMap]
  omega

/-- The bits of a span are the stream, where its bytes are those of the buffer and the stream fills them. -/
theorem bitsOf_eq_of_stream {s : State} {span : List Byte} {bs : List Bool} (stream : StreamIs s bs)
    (count : bs.length = 8 * span.length) (bytes : ∀ k, k < span.length → readCell k s.obMem = span[k]?) : bitsOf span = bs := by
  refine List.ext_getElem ((length_bitsOf span).trans count.symm) fun k inSpan inside => ?_
  have bit : (bitsOf span)[k]? = some bs[k] := by
    rw [getElem?_bitsOf, ← bytes (k / 8) (by omega)]
    exact stream k inside
  rwa [List.getElem?_eq_getElem inSpan, Option.some.injEq] at bit

/-- The first `len` bytes of the output buffer. -/
def bufferBytes (s : State) (len : Nat) : List Byte := (List.range len).map fun a => (readCell a s.obMem).getD 0

@[simp] theorem length_bufferBytes (s : State) (len : Nat) : (bufferBytes s len).length = len := by
  simp [bufferBytes]

theorem getElem?_bufferBytes {s : State} {len k : Nat} (inside : k < len) (filled : (readCell k s.obMem).isSome) :
    readCell k s.obMem = (bufferBytes s len)[k]? := by
  obtain ⟨x, value⟩ := Option.isSome_iff_exists.1 filled
  simp [bufferBytes, inside, value]

end Sys2Proof.Safety
end

section
/-! SUPPORT. The dictionary shows the stream during a pass (10_state R30, 40 R145): what the consumes append, and what a match's source reads. -/

namespace Sys2Proof.Safety

open Sys2Proof.Machine

/-- What the window shows is read from HB, `W` and the variant alone. -/
theorem Mirrors.congr {D : List Byte} {s t : State} (h : Mirrors D s) (mem : t.hbMem = s.hbMem) (w : t.w = s.w)
    (variant : t.variant = s.variant) : Mirrors D t := by
  simpa only [Mirrors, InWindow, histByte, mem, w, variant] using h

/-- An empty dictionary shows the empty stream. -/
theorem mirrors_nil {s : State} (empty : s.w = 0) : Mirrors [] s :=
  ⟨empty.symm, fun o inside => absurd inside.1 (by omega)⟩

/-- TE.CONSUME appends its byte (43 R196). -/
theorem mirrors_teConsume {D : List Byte} {s : State} (h : Mirrors D s) (p : Nat) (a c : Option Byte) (x : Byte) :
    Mirrors (D ++ [x]) (teConsume p a c x s) :=
  (mirrors_hbAppend h x).congr (by simp) (by simp) (by simp)

/-- The chunk's bytes up to a position and the byte there. -/
theorem take_succ_chunk {s : State} {p : Nat} {x : Byte} (byte : s.chunk[p]? = some x) :
    s.chunk.take (p + 1) = s.chunk.take p ++ [x] := by
  rw [List.take_add_one, byte]
  rfl

/-- The consumes of `l` positions from `p` on append the chunk's bytes there. -/
theorem mirrors_consumeSpan {D : List Byte} {s u : State} {p l : Nat} (h : Mirrors (D ++ s.chunk.take p) u)
    (inside : p + l ≤ s.chunk.length) : Mirrors (D ++ s.chunk.take (p + l)) (consumeSpan s p l u) := by
  induction l with
  | zero => simpa using h
  | succ l ih =>
    obtain ⟨x, byte⟩ := chunk_get inside
    rw [consumeSpan_succ_last u byte, ← Nat.add_assoc, take_succ_chunk byte, ← List.append_assoc]
    exact mirrors_teConsume (ih (by omega)) _ _ _ x

/-- What HB.READ answers stands in the stream (40 R143). -/
theorem hbRead_ok_of_mirrors {D : List Byte} {s : State} {o : Nat} {x : Byte} (h : Mirrors D s) (read : hbRead o s = .ok x) :
    D[o]? = some x := by
  by_cases inside : InWindow s o
  · obtain ⟨y, byte, answer⟩ := hbRead_of_mirrors h inside
    rw [read] at answer
    cases answer
    exact byte
  · rw [hbRead_outside inside] at read
    cases read

/-- The source of a match reads the dictionary and the chunk as one stream (41 R161). -/
theorem srcByte_of_mirrors {D : List Byte} {s : State} {o : Nat} {x : Byte} (base : D.length = s.b)
    (mirror : Mirrors (D ++ s.chunk.take s.j) s) (pos : s.w = s.b + s.j) (source : srcByte s o = .ok x) :
    (D ++ s.chunk)[o]? = some x := by
  unfold srcByte at source
  split at source
  · have byte := hbRead_ok_of_mirrors mirror source
    have inside : o < (D ++ s.chunk.take s.j).length := (List.getElem?_eq_some_iff.1 byte).1
    rwa [← List.take_length_add_append, List.getElem?_take_of_lt (by simp at inside ⊢; omega)] at byte
  · rw [List.getElem?_append_right (by omega), base]
    split at source
    · rename_i y byte
      cases source
      exact byte
    · cases source

/-- A verified match denotes the chunk's next bytes (43 R207, 41 R161). -/
theorem Matched.denotes {D : List Byte} {s : State} (hm : Matched s) (enc : Encoding s) (full : s.chunk.length = s.n)
    (base : D.length = s.b) (mirror : Mirrors (D ++ s.chunk.take s.j) s) :
    denote (D ++ s.chunk.take s.j) (.copy s.mD s.mLen) = some (D ++ s.chunk.take (s.j + s.mLen)) := by
  have inside := hm.inside
  have length : (D ++ s.chunk.take s.j).length = s.w := mirror.1
  have origin := hm.origin
  have pos := enc.pos
  have upTo : D ++ s.chunk.take s.j ++ (s.chunk.drop s.j).take s.mLen = (D ++ s.chunk).take (D.length + (s.j + s.mLen)) := by
    rw [List.append_assoc, ← List.take_add, List.take_length_add_append]
  have count : ((s.chunk.drop s.j).take s.mLen).length = s.mLen := by simp; omega
  have copied := copyBytes_eq (D := D ++ s.chunk.take s.j) (xs := (s.chunk.drop s.j).take s.mLen)
    (Nat.le_trans (by decide) hm.dMin) (by omega) fun i small => by
      rw [count] at small
      obtain ⟨x, byte, source⟩ := hm.verified i small
      rw [getElem?_take_drop_chunk small, byte, upTo, length, show s.w + i - s.mD = s.mC + i by omega,
        List.getElem?_take_of_lt (by omega), srcByte_of_mirrors base mirror pos source]
  rw [upTo, List.take_length_add_append, count] at copied
  exact copied

end Sys2Proof.Safety
end

section
/-! SUPPORT. The round trip (43 R202, R207, R208): a pass begins from the bytes that the peer starts from, every step keeps the two in step, and
the committed result gives the peer the chunk. -/

namespace Sys2Proof.Safety

open Sys2Proof.Machine

/-! ### In step, before the end of the chunk -/

/-- The bits of the copy token in progress that are already emitted (43 R195, log 5). -/
def sentBits (s : State) : List Bool := if s.offSent then emitsString ((sessionTable s).off s.mD) else []

theorem sentBits_of_not_sent {s : State} (h : s.offSent = false) : sentBits s = [] := by simp [sentBits, h]

theorem sentBits_of_sent {s : State} (h : s.offSent = true) : sentBits s = emitsString ((sessionTable s).off s.mD) := by
  simp [sentBits, h]

/-- What `Faithful` says before FINALIZE, with the tokens named: besides their bits only those of a copy token in progress are emitted. -/
structure InStep (D : List Byte) (s : State) (ts : List Token) : Prop where
  base : D.length = s.b
  mirror : Mirrors (D ++ s.chunk.take s.j) s
  coded : Coded (sessionTable s) ts
  denoted : denoteAll ts D = some (D ++ s.chunk.take s.j)
  stream : StreamIs s (ts.flatMap (tokenBits (sessionTable s)) ++ sentBits s)
  count : streamPos s = (ts.flatMap (tokenBits (sessionTable s)) ++ sentBits s).length

theorem faithful_iff_inStep {D : List Byte} {s : State} (notDone : s.teState ≠ .done) :
    Faithful D s ↔ ∃ ts, InStep D s ts := by
  constructor
  · rintro ⟨base, mirror, ts, tail, coded, denoted, stream, count, sent, -⟩
    cases sent notDone
    exact ⟨ts, base, mirror, coded, denoted, stream, count⟩
  · rintro ⟨ts, h⟩
    exact ⟨h.base, h.mirror, ts, sentBits s, h.coded, h.denoted, h.stream, h.count, fun _ => rfl,
      fun isDone => absurd isDone notDone⟩

theorem coded_nil (c : CodeTable) : Coded c [] := fun _ _ h => nomatch h

/-- A token list stays coded where its new token is. -/
theorem Coded.concat {c : CodeTable} {ts : List Token} {t : Token} (h : Coded c ts)
    (last : ∀ d l, t = .copy d l → CodesOff c d ∧ CodesLen c l) : Coded c (ts ++ [t]) := by
  intro d l mem
  rcases List.mem_append.1 mem with old | new
  · exact h d l old
  · exact last d l (List.mem_singleton.1 new).symm

/-! ### The start of a pass (43 R191, 44 R219) -/

/-- No token yet: in step with any stream that the dictionary shows. -/
theorem inStep_start {D : List Byte} {s : State} (base : D.length = s.b) (mirror : Mirrors D s) (noChunk : s.chunk = [])
    (unsent : s.offSent = false) (empty : streamPos s = 0) : InStep D s [] where
  base := base
  mirror := by simpa [noChunk] using mirror
  coded := coded_nil _
  denoted := by simp [denoteAll, noChunk]
  stream := by
    rw [sentBits_of_not_sent unsent]
    exact fun k inside => absurd inside (Nat.not_lt_zero k)
  count := by simpa [sentBits_of_not_sent unsent] using empty

/-- The dictionary of a pass that begins shows the bytes that the peer starts from (43 R207): none where AT_FRONT is set, for then the
dictionary is empty (44 R225). -/
theorem mirrors_acceptChunk {P : List Byte} {f : Bool} {n : Nat} {s : State} (hi : Inv s)
    (peer : s.flagsHold.atFront = false → Mirrors P s) (idle : s.teState = .idle) (ready : s.sess = .ready) :
    Mirrors (if atFront (acceptChunk f n s) then [] else P) (acceptChunk f n s) := by
  have front := (hi.resting idle).front ready
  have first := (hi.dictionary ready).firstHeld
  cases flushed : (acceptChunk f n s).doFlush with
  | true =>
    have atStart : atFront (acceptChunk f n s) = true := by simp only [atFront, flushed, Bool.or_true]
    rw [if_pos atStart]
    exact mirrors_nil (acceptChunk_of_flush flushed).1
  | false =>
    have same : atFront (acceptChunk f n s) = (s.firstPkt || s.flagsHold.atFront) := by
      simp only [atFront, flushed, Bool.or_false, acceptChunk_firstPkt, acceptChunk_flagsHold]
    have w := (acceptChunk_of_no_flush flushed).1
    rw [same]
    cases held : s.flagsHold.atFront with
    | true =>
      rw [Bool.or_true, if_pos rfl]
      exact mirrors_nil (w.trans (front.1 held))
    | false =>
      have notFirst : s.firstPkt = false := by
        by_contra h
        exact nomatch held.symm.trans (first (Bool.eq_true_of_not_eq_false h))
      rw [notFirst, Bool.or_false, if_neg Bool.false_ne_true]
      exact (peer held).congr (acceptChunk_hbMem f n s) w (acceptChunk_variant f n s)

/-- A COMPRESS that starts a pass is a chunk accepted on a READY session (44 R218). -/
theorem exec_compress_to_scan {f : Bool} {len : BitVec 17} {s t : State} (idle : s.teState = .idle) (ready : s.sess = .ready)
    (h : exec (.compress f len) s = .next t) (scan : t.teState = .scan) : t = acceptChunk f len.toNat s := by
  simp only [exec, execCompress, idle, ready, ne_eq, not_true, if_false] at h
  split at h
  · cases h; cases scan
  · cases h; rfl

/-- Settles O55: no token is emitted yet, and the dictionary shows what the peer starts from. -/
theorem passBeginsInStepWithThePeer : Obligations.PassBeginsInStepWithThePeer := by
  unfold Obligations.PassBeginsInStepWithThePeer
  intro P f len s t hi peer idle ready h scan
  cases exec_compress_to_scan idle ready h scan
  have mirror := mirrors_acceptChunk (f := f) (n := len.toNat) hi peer idle ready
  refine (faithful_iff_inStep (by simp)).2 ⟨[], inStep_start ?_ mirror (by simp) (by simp) (by simp [streamPos])⟩
  rw [acceptChunk_b]
  exact mirror.1

/-! ### The steps of a pass -/

/-- A step that writes no byte of the chunk consumed, of the dictionary or of the output keeps the pass in step (43 R192, 70 R283). -/
theorem InStep.of_same {D : List Byte} {s t : State} {ts : List Token} (h : InStep D s ts) (build : t.build = s.build)
    (variant : t.variant = s.variant) (b : t.b = s.b) (w : t.w = s.w) (hb : t.hbMem = s.hbMem)
    (consumed : t.chunk.take t.j = s.chunk.take s.j) (mem : t.obMem = s.obMem) (pos : streamPos t = streamPos s)
    (sent : sentBits t = sentBits s) : InStep D t ts := by
  have table : sessionTable t = sessionTable s := by rw [sessionTable, sessionTable, build, variant]
  obtain ⟨base, mirror, coded, denoted, stream, count⟩ := h
  rw [← table, ← sent] at stream count
  exact ⟨base.trans b.symm, consumed ▸ mirror.congr hb w variant, table ▸ coded, consumed ▸ denoted, stream.congr mem,
    pos.trans count⟩

/-- The offset code joins the bits of the token in progress (43 R195). -/
theorem InStep.offset {D : List Byte} {s u : State} {ts : List Token} (h : InStep D s ts) (first : s.offSent = false)
    (he : EmittedTo s (emitsString ((sessionTable s).off s.mD)) u) : InStep D { u with offSent := true } ts := by
  obtain ⟨base, mirror, coded, denoted, stream, count⟩ := h
  rw [sentBits_of_not_sent first, List.append_nil] at stream count
  obtain ⟨stream, count⟩ := stream.append count he.appended
  obtain ⟨m, i, k, rfl⟩ := he.only.spelled
  exact ⟨base, mirror, coded, denoted, stream, count⟩

/-- A token that is over (43 R194 to R196): its last emits complete its bits, and its consumes append to the dictionary what it denotes. -/
theorem InStep.finishes {D : List Byte} {s u : State} {ts : List Token} {tok : Token} {l : Nat} {bs : List Bool}
    (h : InStep D s ts) (he : EmittedTo s bs u) (inside : s.j + l ≤ s.chunk.length)
    (isCoded : ∀ d l, tok = .copy d l → CodesOff (sessionTable s) d ∧ CodesLen (sessionTable s) l)
    (spells : tokenBits (sessionTable s) tok = sentBits s ++ bs)
    (denotes : denote (D ++ s.chunk.take s.j) tok = some (D ++ s.chunk.take (s.j + l))) :
    InStep D { consumeFromJ l u with j := s.j + l, teState := .scan, offSent := false } (ts ++ [tok]) := by
  obtain ⟨base, mirror, coded, denoted, stream, count⟩ := h
  obtain ⟨stream, count⟩ := stream.append count he.appended
  have shows := mirrors_consumeSpan (u := u) (l := l) (mirror.congr (by rw [he.only]) (by rw [he.only]) (by rw [he.only])) inside
  have table : sessionTable { consumeFromJ l u with j := s.j + l, teState := .scan, offSent := false } = sessionTable s := by
    rw [he.only]; simp [sessionTable]
  have chunk : (consumeFromJ l u).chunk = s.chunk := by rw [he.only, consumeFromJ_chunk]
  have bits : (ts ++ [tok]).flatMap (tokenBits (sessionTable s)) =
      ts.flatMap (tokenBits (sessionTable s)) ++ sentBits s ++ bs := by
    rw [List.flatMap_append, List.flatMap_singleton, spells, List.append_assoc]
  refine ⟨?_, ?_, table ▸ coded.concat isCoded, ?_, ?_, ?_⟩
  · simpa [he.only.consumeFromJ_eq, consumeSpan_b] using base.trans (by rw [he.only])
  · rw [← he.only.consumeFromJ_eq] at shows
    simp only [chunk]
    exact shows.congr rfl rfl rfl
  · simp only [chunk]
    exact denoteAll_concat denoted denotes
  · rw [table, sentBits_of_not_sent rfl, List.append_nil, bits]
    exact stream.congr (consumeFromJ_obMem l u)
  · rw [table, sentBits_of_not_sent rfl, List.append_nil, bits, ← count]
    simp [streamPos]

/-- TE.FINALIZE pads the stream with fewer than 8 zero bits (43 R197, 42 R179). -/
theorem InStep.finalizes {D : List Byte} {s : State} {ts : List Token} (h : InStep D s ts) (ready : AssemblerReady s)
    (unsent : s.offSent = false) : Faithful D (teFinalize s) := by
  obtain ⟨base, mirror, coded, denoted, stream, count⟩ := h
  rw [sentBits_of_not_sent unsent, List.append_nil] at stream count
  have table : sessionTable (teFinalize s) = sessionTable s := by simp [sessionTable]
  have rounded : streamPos (teFinalize s) = 8 * ((streamPos s + 7) / 8) := by
    simp [streamPos, baFinish_eq ready.1]
  refine ⟨by simpa using base, ?_, ts, List.replicate (8 * ((streamPos s + 7) / 8) - streamPos s) false, ?_, ?_, ?_, ?_,
    fun notDone => absurd (teFinalize_teState s) notDone, fun _ => ⟨?_, fun x mem => List.eq_of_mem_replicate mem⟩⟩
  · simpa using mirror.congr (teFinalize_hbMem s) (teFinalize_w s) (teFinalize_variant s)
  · rwa [table]
  · simpa using denoted
  · rw [table]
    refine StreamIs.congr (s := s) (fun k inside => ?_) (teFinalize_obMem s)
    rw [List.getElem_append]
    split
    · exact stream k ‹_›
    · rename_i past
      rw [List.getElem_replicate]
      rw [List.length_append, ← count, List.length_replicate] at inside
      exact ready.streamBit_padding (by omega) (by omega)
  · rw [table, List.length_append, ← count, List.length_replicate, rounded]
    omega
  · rw [List.length_replicate]
    omega

/-- A literal that completes (43 R194). -/
theorem InStep.literal {D : List Byte} {s u : State} {ts : List Token} {x : Byte} (h : InStep D s ts)
    (byte : s.chunk[s.j]? = some x) (unsent : s.offSent = false)
    (he : EmittedTo s (emitsString ((sessionTable s).lit x)) u) :
    InStep D { consumeFromJ 1 u with j := s.j + 1, teState := .scan, offSent := false } (ts ++ [.lit x]) := by
  refine h.finishes he (List.getElem?_eq_some_iff.1 byte).1 nofun ?_ ?_
  · rw [sentBits_of_not_sent unsent]; rfl
  · rw [denote, List.append_assoc, take_succ_chunk byte]

/-- A copy token that completes with its length code (43 R195). -/
theorem InStep.length {D : List Byte} {s u : State} {ts : List Token} (h : InStep D s ts) (hm : Matched s) (enc : Encoding s)
    (full : s.chunk.length = s.n) (second : s.offSent = true)
    (he : EmittedTo s (emitsString ((sessionTable s).len s.mLen)) u) :
    InStep D { consumeFromJ s.mLen u with j := s.j + s.mLen, teState := .scan, offSent := false }
      (ts ++ [.copy s.mD s.mLen]) := by
  refine h.finishes he (full ▸ hm.inside) (fun d l same => ?_) ?_ (hm.denotes enc full h.base h.mirror)
  · cases same; exact ⟨hm.codesOff, hm.codesLen⟩
  · rw [sentBits_of_sent second]; rfl

/-- The selector's choice of a copy (43 R193). -/
theorem InStep.selectsCopy {D : List Byte} {s : State} {ts : List Token} (h : InStep D s ts) (unsent : s.offSent = false)
    (c d l : Nat) : InStep D { s with mC := c, mD := d, mLen := l, teState := .emitMatch } ts := by
  refine h.of_same rfl rfl rfl rfl rfl rfl rfl rfl ?_
  rw [sentBits_of_not_sent unsent]
  exact sentBits_of_not_sent unsent

/-- The input transfer comes before any byte is consumed (70 R283). -/
theorem InStep.takes {D : List Byte} {s : State} {ts : List Token} (h : InStep D s ts) (start : s.j = 0) :
    InStep D (takeInput s) ts := by
  refine h.of_same rfl rfl rfl rfl rfl ?_ rfl rfl rfl
  rw [takeInput_j, start, List.take_zero, List.take_zero]

/-- A token's emits complete where the pass goes on. -/
theorem TokenEnd.completes_of_pass {es : List Emit} {s t : State} {k : State → State} (ends : TokenEnd es s k t)
    (pass : t.teState ≠ .idle) : ∃ u, baEmits es s = .ok u ∧ t = k u := by
  cases ends with
  | completes u emitted next => exact ⟨u, emitted, next⟩
  | overflows full next => subst next; exact absurd rfl pass

/-- The commit ends the pass (43 R200). -/
theorem idle_of_commit {s t : State} (pin : s.rst = false) (isDone : s.teState = .done) (h : step s = .next t) :
    t.teState = .idle := by
  rw [step_of_done pin isDone, scCommit] at h
  split at h
  · split at h
    · cases h
    · cases h; rfl
  · cases h; rfl

/-- Settles O56, by the cases of a step of the pass. -/
theorem everyStepKeepsThePeerInStep : Obligations.EveryStepKeepsThePeerInStep := by
  unfold Obligations.EveryStepKeepsThePeerInStep
  intro D s t hi pin hp faithful h hp'
  have enc := hi.encoding hp
  have notDone : s.teState ≠ .done := fun isDone => hp' (idle_of_commit pin isDone h)
  obtain ⟨ts, inStep⟩ := (faithful_iff_inStep notDone).1 faithful
  cases step_cases h with
  | reset pin' next => exact nomatch pin.symm.trans pin'
  | waits pin idle free empty next => exact absurd idle hp
  | accepts pin idle free c cs queue next => exact absurd idle hp
  | command pin idle c taken next => exact absurd idle hp
  | takes pin scan short next =>
    subst next
    exact (faithful_iff_inStep (by simp [scan])).2 ⟨ts, inStep.takes (enc.waiting short).2⟩
  | finalizes pin scan full atEnd next =>
    subst next
    exact inStep.finalizes enc.assembler (hi.sent_false (by simp [scan]))
  | literal pin scan full inside sel next =>
    subst next
    exact (faithful_iff_inStep (by simp)).2 ⟨ts, inStep.of_same rfl rfl rfl rfl rfl rfl rfl rfl rfl⟩
  | copy pin scan full inside c d l sel next =>
    subst next
    exact (faithful_iff_inStep (by simp)).2 ⟨ts, inStep.selectsCopy (hi.sent_false (by simp [scan])) c d l⟩
  | emitsLiteral pin lit x byte ends =>
    obtain ⟨u, emitted, rfl⟩ := ends.completes_of_pass hp'
    exact (faithful_iff_inStep (by simp)).2
      ⟨_, inStep.literal byte (hi.sent_false (by simp [lit])) (hi.emitted hp emitted)⟩
  | emitsOffset pin mat first ends =>
    obtain ⟨u, emitted, rfl⟩ := ends.completes_of_pass hp'
    exact (faithful_iff_inStep (by rw [baEmits_only emitted]; exact notDone)).2
      ⟨ts, inStep.offset first (hi.emitted hp emitted)⟩
  | emitsLength pin mat second inside ends =>
    obtain ⟨u, emitted, rfl⟩ := ends.completes_of_pass hp'
    exact (faithful_iff_inStep (by simp)).2
      ⟨_, inStep.length (hi.copy mat) enc (enc.full (by simp [mat])) second (hi.emitted hp emitted)⟩
  | passes pin isDone larger room next => exact absurd isDone notDone
  | delivers pin isDone smaller next => exact absurd isDone notDone

/-! ### The commit (44 R219, R224, R228) -/

/-- The flags of a compressed result make the peer start from the bytes that the pass began from (44 R225): a flush sets AT_FRONT too. -/
theorem peerStart_compressFlags (s : State) (P : List Byte) :
    peerStart (compressFlags (atFront s) s.doFlush false) P = if atFront s then [] else P := by
  have absorbed : (s.doFlush || false || atFront s) = atFront s := by
    cases flushed : s.doFlush with
    | true => simp [atFront, flushed]
    | false => rfl
  rw [peerStart, compressFlags, absorbed]

/-- What a passthrough result says (44 R224): the span is the chunk, and the dictionary is empty, as the peer's is then. -/
theorem passthrough_decodes (P : List Byte) {s t : State} (full : s.chunk.length = s.n)
    (commit : t = commitResult true s.n (resetDict { s with obMem := writeRun 0 s.chunk s.obMem })) :
    SpanIs t s.chunk ∧ applyResult t.rsp.flags [] s.chunk P = some (s.chunk, []) ∧ Mirrors [] t := by
  subst commit
  refine ⟨⟨full, fun k inside => ?_⟩, rfl, mirrors_nil rfl⟩
  have copied := (writeRun_spec s.chunk 0 s.obMem).1 k (by rw [full]; exact inside)
  rwa [Nat.zero_add] at copied

/-- A compressed result gives the peer the bytes that its tokens denote, less those it starts from (43 R207). -/
theorem applyResult_compressed {s : State} {ts : List Token} {P xs : List Byte} (span : List Byte)
    (denoted : denoteAll ts (if atFront s then [] else P) = some ((if atFront s then [] else P) ++ xs)) :
    applyResult (compressFlags (atFront s) s.doFlush false) ts span P = some (xs, (if atFront s then [] else P) ++ xs) := by
  have compressed : (compressFlags (atFront s) s.doFlush false).compressed = true := rfl
  rw [applyResult, if_pos compressed, peerStart_compressFlags, denoted, Option.map_some, List.drop_left]

/-- The span of a compressed result: the bytes before the cursor, each of which has a value (10_state R34). -/
theorem spanIs_delivered {s : State} (enc : Encoding s) :
    SpanIs (commitResult false s.obIdx s) (bufferBytes s s.obIdx) :=
  ⟨length_bufferBytes s s.obIdx, fun k inside => getElem?_bufferBytes inside (enc.filled k inside)⟩

/-- The bits of that span are all of the output stream, for the trailing byte is closed (42 R179). -/
theorem bitsOf_delivered {s : State} {bs : List Bool} (enc : Encoding s) (closed : s.obBits = 0) (stream : StreamIs s bs)
    (count : streamPos s = bs.length) : bitsOf (bufferBytes s s.obIdx) = bs := by
  refine bitsOf_eq_of_stream stream ?_ fun k inside => ?_
  · rw [← count, streamPos, closed, length_bufferBytes, Nat.add_zero]
  · rw [length_bufferBytes] at inside
    exact getElem?_bufferBytes inside (enc.filled k inside)

/-- Settles O57, by the two ends of a COMPRESS: passthrough, where the peer gets the chunk itself, and the encoding. -/
theorem committedSpanDecodesToTheChunk : Obligations.CommittedSpanDecodesToTheChunk := by
  unfold Obligations.CommittedSpanDecodesToTheChunk
  intro P s t hi pin faithful isDone h
  have enc := hi.encoding (by simp [isDone])
  have full := enc.full (by simp [isDone])
  obtain ⟨atEnd, closed, -⟩ := hi.done isDone
  rw [step_of_done pin isDone, scCommit] at h
  split at h
  · split at h
    · cases h
    · cases h
      obtain ⟨span, applied, mirror⟩ := passthrough_decodes P full rfl
      exact ⟨s.chunk, [], [], span, coded_nil _, applied, mirror, nofun⟩
  · cases h
    obtain ⟨-, mirror, ts, tail, coded, denoted, stream, count, -, padded⟩ := faithful
    obtain ⟨short, zero⟩ := padded isDone
    rw [atEnd, ← full, List.take_length] at mirror denoted
    refine ⟨bufferBytes s s.obIdx, ts, _, spanIs_delivered enc, coded, applyResult_compressed _ denoted,
      mirror.congr rfl rfl rfl, fun _ => ⟨tail.length, short, ?_⟩⟩
    rw [bitsOf_delivered enc closed stream count, ← List.eq_replicate_of_mem zero]

end Sys2Proof.Safety
end

section
/-! SUPPORT. The dictionary reset and the three commands (44_session_controller R216 to R218, R221, R230 to R234): what each answers in
IDLE, errors included. -/

namespace Sys2Proof.Safety

open Sys2Proof.Machine

/-! ### The dictionary reset (44 R221) -/

theorem not_inWindow_resetDict (s : State) (o : Nat) : ¬ InWindow (resetDict s) o :=
  fun inside => Nat.not_lt_zero o inside.1

/-- MF.CLEAR writes no `off` field (41 R160). -/
theorem off_resetDict (s : State) (h : Nat) :
    (readCell h (resetDict s).ht.entries).map HtEntry.off = (readCell h s.ht.entries).map HtEntry.off := by
  rw [resetDict_entries, readCell_map invalidated, Option.map_map]
  rfl

/-- Settles O26: the window is empty at `W = 0`, and MF.CLEAR leaves no entry valid. -/
theorem dictionaryResetEmpties : Obligations.DictionaryResetEmpties := by
  unfold Obligations.DictionaryResetEmpties
  exact fun s => ⟨not_inWindow_resetDict s, fun h => mfLookup_resetDict h s, rfl, off_resetDict s⟩

/-! ### The end of a command with an error (44 R230) -/

/-- In IDLE a failing command writes nothing but the response. -/
theorem failCmd_of_idle {s : State} (idle : s.teState = .idle) (e : Status) :
    failCmd e s = { s with rsp := { status := e, flags := noFlags, len := 0 }, rspValid := true } := by
  rw [failCmd, ← idle]

/-- The step that carries out an accepted word (70 R282). -/
theorem commandTo_of_step {c : Word} {s t : State} (pin : s.rst = false) (idle : s.teState = .idle)
    (taken : s.accepted = some c) (h : step s = .next t) : CommandTo c { s with accepted := none } t := by
  rw [step_of_idle pin idle, fetchIdle, taken] at h
  cases decoded : decodeCommand c with
  | ok i =>
    simp only [decoded, perform] at h
    exact exec_command idle decoded h
  | error e =>
    simp only [decoded, perform] at h
    cases h
    exact .fails .illegalCmd (by decide) rfl

/-- Settles O15: of the ways a command goes on, CREATE and DESTROY answer OK, and an accepted COMPRESS leaves IDLE. -/
theorem failedCommandsMutateNothingElse : Obligations.FailedCommandsMutateNothingElse := by
  unfold Obligations.FailedCommandsMutateNothingElse
  intro c s t pin idle taken h idle' failed
  cases commandTo_of_step pin idle taken h with
  | fails e error next => subst next; exact failCmd_of_idle (s := { s with accepted := none }) idle e
  | creates v absent fitsBuild next => subst next; exact absurd rfl failed
  | compresses f len ready pos le next => subst next; simp at idle'
  | destroys word next => subst next; exact absurd rfl failed

/-! ### CREATE (44 R216, R217) -/

theorem variantOfCode_of_supported {code : BitVec 2} {v : Variant} (supported : code = 0#2 ∧ v = .v8k ∨ code = 1#2 ∧ v = .v64k) :
    variantOfCode code = some v := by
  rcases supported with ⟨rfl, rfl⟩ | ⟨rfl, rfl⟩ <;> rfl

theorem variantOfCode_of_two_le {code : BitVec 2} (h : 2 ≤ code.toNat) : variantOfCode code = none := by
  have notV8k : code ≠ 0#2 := by rintro rfl; exact absurd h (by decide)
  have notV64k : code ≠ 1#2 := by rintro rfl; exact absurd h (by decide)
  rw [variantOfCode, if_neg notV8k, if_neg notV64k]

theorem exec_create_session {code : BitVec 2} {s : State} (idle : s.teState = .idle) (session : s.sess ≠ .absent) :
    exec (.create code) s = .next (failCmd .badState s) := by
  simp only [exec, execCreate, idle, ne_eq, not_true, if_false, session, not_false_eq_true, if_true]

theorem exec_create_unsupported {code : BitVec 2} {s : State} (idle : s.teState = .idle) (absent : s.sess = .absent)
    (unsupported : variantOfCode code = none) : exec (.create code) s = .next (failCmd .unsupportedVariant s) := by
  simp only [exec, execCreate, idle, absent, ne_eq, not_true, if_false, unsupported]

theorem exec_create_tooLarge {code : BitVec 2} {v : Variant} {s : State} (idle : s.teState = .idle) (absent : s.sess = .absent)
    (supported : variantOfCode code = some v) (tooLarge : s.build.maxCap < Config.cap v) :
    exec (.create code) s = .next (failCmd .outOfMemory s) := by
  simp only [exec, execCreate, idle, absent, ne_eq, not_true, if_false, supported, tooLarge, if_true]

/-- A CREATE that passes its checks empties the dictionary of the state with all that it writes besides. -/
theorem exec_create_opens {code : BitVec 2} {v : Variant} {s : State} (idle : s.teState = .idle) (absent : s.sess = .absent)
    (supported : variantOfCode code = some v) (fitsBuild : Config.cap v ≤ s.build.maxCap) :
    exec (.create code) s = .next (resetDict (opening v s)) := by
  rw [← created_eq_resetDict]
  simp only [exec, execCreate, idle, absent, ne_eq, not_true, if_false, supported, Nat.not_lt.2 fitsBuild]

/-- A CREATE after which there is a session passed its checks. -/
theorem exec_create_to_ready {code : BitVec 2} {s s' : State} (idle : s.teState = .idle) (absent : s.sess = .absent)
    (h : exec (.create code) s = .next s') (ready : s'.sess = .ready) :
    ∃ v, variantOfCode code = some v ∧ Config.cap v ≤ s.build.maxCap ∧ s' = resetDict (opening v s) := by
  have notFailed : ∀ e, exec (.create code) s ≠ .next (failCmd e s) := by
    intro e failed
    cases h.symm.trans failed
    exact nomatch absent.symm.trans ready
  cases supported : variantOfCode code with
  | none => exact absurd (exec_create_unsupported idle absent supported) (notFailed _)
  | some v =>
    have fitsBuild : Config.cap v ≤ s.build.maxCap :=
      Nat.le_of_not_lt fun tooLarge => notFailed _ (exec_create_tooLarge idle absent supported tooLarge)
    cases h.symm.trans (exec_create_opens idle absent supported fitsBuild)
    exact ⟨v, rfl, fitsBuild, rfl⟩

/-- The state without what the host was last answered, of which CREATE keeps nothing. -/
def unanswered (s : State) : State :=
  { s with rsp := { status := .ok, flags := noFlags, len := 0 }, rspValid := false, spanLen := 0 }

theorem opening_unanswered (v : Variant) (s : State) : opening v (unanswered s) = opening v s := rfl

/-- Settles O54: both CREATEs open a session of the one variant, and what they open does not depend on the response before. -/
theorem freshSessionsAreAlike : Obligations.FreshSessionsAreAlike := by
  unfold Obligations.FreshSessionsAreAlike
  intro code s t s' t' absent absent' idle idle' build rst accepted cmdQ inQ obRaddr h h' ready
  obtain ⟨v, supported, fitsBuild, rfl⟩ := exec_create_to_ready idle absent h ready
  cases h'.symm.trans (exec_create_opens idle' absent' supported (build ▸ fitsBuild))
  have frame : AlikeFrame (unanswered s) (unanswered t) :=
    { build := build
      rst := rst
      accepted := accepted
      cmdQ := cmdQ
      inQ := inQ
      obRaddr := obRaddr
      rspValid := rfl
      rsp := rfl
      sess := absent.trans absent'.symm
      teState := idle.trans idle'.symm
      spanLen := rfl
      span := fun a ha => absurd ha (Nat.not_lt_zero a) }
  rw [← opening_unanswered v s, ← opening_unanswered v t]
  exact opening_alike frame v

/-- What CREATE writes (44 R216, 10_state R50). -/
theorem opened_frame {v : Variant} {s : State} (idle : s.teState = .idle) :
    resetDict (opening v s) = { s with
      variant := v, w := 0, ht := (resetDict (opening v s)).ht, firstPkt := true, flagsHold := atFrontOnly, sess := .ready
      rsp := { status := .ok, flags := noFlags, len := 0 }, rspValid := true, spanLen := 0
      obIdx := (opening v s).obIdx, obBits := (opening v s).obBits, j := (opening v s).j, n := (opening v s).n
      b := (opening v s).b, mC := (opening v s).mC, mD := (opening v s).mD, mLen := (opening v s).mLen
      freeCtr := (opening v s).freeCtr } := by
  rw [idle]
  rfl

/-- Settles O8: a successful CREATE is the dictionary reset of the state with the session's registers written. -/
theorem createOpensAnEmptySession : Obligations.CreateOpensAnEmptySession := by
  unfold Obligations.CreateOpensAnEmptySession
  intro code v s idle absent supported fitsBuild
  exact ⟨_, exec_create_opens idle absent (variantOfCode_of_supported supported) fitsBuild, opened_frame idle,
    fun h => mfLookup_resetDict h _, not_inWindow_resetDict _, off_resetDict (opening v s)⟩

/-- Settles O9, by the three checks of CREATE in their order. -/
theorem createErrorsChangeOnlyTheResponse : Obligations.CreateErrorsChangeOnlyTheResponse := by
  unfold Obligations.CreateErrorsChangeOnlyTheResponse
  intro code s idle
  simp only [← failCmd_of_idle idle]
  exact ⟨exec_create_session idle,
    fun absent unsupported => exec_create_unsupported idle absent (variantOfCode_of_two_le unsupported),
    fun absent v supported => exec_create_tooLarge idle absent (variantOfCode_of_supported supported)⟩

/-! ### COMPRESS's checks (44 R218, R232) -/

theorem exec_compress_absent {f : Bool} {len : BitVec 17} {s : State} (idle : s.teState = .idle) (absent : s.sess = .absent) :
    exec (.compress f len) s = .next (failCmd .invalidInput s) := by
  simp only [exec, execCompress, idle, absent, ne_eq, not_true, if_false]

theorem exec_compress_faulted {f : Bool} {len : BitVec 17} {s : State} (idle : s.teState = .idle)
    (faulted : s.sess = .faulted) : exec (.compress f len) s = .next (failCmd .badState s) := by
  simp only [exec, execCompress, idle, faulted, ne_eq, not_true, if_false]

theorem exec_compress_badLength {f : Bool} {len : BitVec 17} {s : State} (idle : s.teState = .idle) (ready : s.sess = .ready)
    (badLength : len.toNat = 0 ∨ Config.cap s.variant < len.toNat) :
    exec (.compress f len) s = .next (failCmd .invalidInput s) := by
  simp only [exec, execCompress, idle, ready, ne_eq, not_true, if_false, badLength, if_true]

/-- Settles O11, by the session state. -/
theorem compressErrorsChangeOnlyTheResponse : Obligations.CompressErrorsChangeOnlyTheResponse := by
  unfold Obligations.CompressErrorsChangeOnlyTheResponse
  intro f len s idle
  simp only [← failCmd_of_idle idle]
  exact ⟨exec_compress_absent idle, exec_compress_faulted idle, exec_compress_badLength idle⟩

/-- A COMPRESS on a READY session starts a pass exactly where its length is one of the variant's chunk lengths. -/
theorem exec_compress_starts_iff {f : Bool} {len : BitVec 17} {s : State} (idle : s.teState = .idle) (ready : s.sess = .ready) :
    (∃ t, exec (.compress f len) s = .next t ∧ t.teState = .scan) ↔ 1 ≤ len.toNat ∧ len.toNat ≤ Config.cap s.variant := by
  constructor
  · rintro ⟨t, h, scan⟩
    by_contra outside
    cases h.symm.trans (exec_compress_badLength idle ready (by omega))
    exact nomatch scan
  · rintro ⟨pos, short⟩
    exact ⟨_, exec_compress_ready idle ready pos short, acceptChunk_teState f len.toNat s⟩

/-- Settles O12: the boundary is the variant's CAP. -/
theorem capacityBoundary : Obligations.CapacityBoundary := by
  unfold Obligations.CapacityBoundary
  intro f len s idle ready
  rw [exec_compress_starts_iff idle ready]
  constructor
  all_goals
    intro variant
    rw [variant, Config.cap]

/-! ### DESTROY (44 R231) -/

theorem exec_destroy_idle {s : State} (idle : s.teState = .idle) :
    exec .destroy s = .next (succeed noFlags 0 (dropSession s)) := by
  simp only [exec, execDestroy, idle, ne_eq, not_true, if_false]

/-- Settles O13: DESTROY checks nothing, and of the host's side it writes only the response. -/
theorem destroyAlwaysSucceeds : Obligations.DestroyAlwaysSucceeds := by
  unfold Obligations.DestroyAlwaysSucceeds
  intro s idle
  exact ⟨_, exec_destroy_idle idle, rfl, rfl, rfl, rfl, rfl, rfl, rfl, rfl, rfl, rfl, rfl⟩

end Sys2Proof.Safety
end

section
/-! SUPPORT. The commit in DONE (44_session_controller R219, R223 to R228): the two results of a COMPRESS and their flags. -/

namespace Sys2Proof.Safety

open Sys2Proof.Machine

/-- The two results of a COMPRESS (44 R223): the raw chunk where the encoding is not smaller, else the encoding. -/
inductive CommitTo (s t : State) : Prop where
  | passes (larger : s.n ≤ s.obIdx)
      (next : t = commitResult true s.n (resetDict { s with obMem := writeRun 0 s.chunk s.obMem }))
  | delivers (smaller : s.obIdx < s.n) (next : t = commitResult false s.obIdx s)

theorem passthrough_iff {s : State} : passthrough s = true ↔ s.n ≤ s.obIdx := decide_eq_true_iff

theorem commitTo_of_step {s t : State} (pin : s.rst = false) (isDone : s.teState = .done) (h : step s = .next t) :
    CommitTo s t := by
  rw [step_of_done pin isDone, scCommit] at h
  split at h
  next larger =>
    split at h
    · cases h
    · cases h
      exact .passes (passthrough_iff.1 larger) rfl
  next smaller =>
    cases h
    exact .delivers (Nat.lt_of_not_le (mt passthrough_iff.2 smaller)) rfl

theorem step_passes {s : State} (pin : s.rst = false) (isDone : s.teState = .done) (larger : s.n ≤ s.obIdx)
    (room : s.n ≤ Config.obCap s.build s.variant) :
    step s = .next (commitResult true s.n (resetDict { s with obMem := writeRun 0 s.chunk s.obMem })) := by
  rw [step_of_done pin isDone, scCommit, if_pos (passthrough_iff.2 larger), if_neg (Nat.not_lt.2 room)]

theorem step_delivers {s : State} (pin : s.rst = false) (isDone : s.teState = .done) (smaller : s.obIdx < s.n) :
    step s = .next (commitResult false s.obIdx s) := by
  rw [step_of_done pin isDone, scCommit, if_neg (mt passthrough_iff.1 (Nat.not_le.2 smaller))]

/-! ### The flags (44 R225) -/

/-- The flags byte by its three bits (30_encoding R95): FLUSHED after a flush or a passthrough, COMPRESSED but for a passthrough. -/
theorem flagsByte_compressFlags (front doFlush pass : Bool) :
    flagsByte (compressFlags front doFlush pass) =
      BitVec.ofNat 8 ((doFlush || pass).toNat * 0x80 + front.toNat * 0x40 + (!pass).toNat * 0x20) := rfl

/-- Settles O37, by the value of the byte in each of the eight cases. -/
theorem flagsTable : Obligations.FlagsTable := by
  unfold Obligations.FlagsTable
  intro fresh doFlush pass
  rw [flagsByte_compressFlags]
  revert fresh doFlush pass
  decide

/-- Both results deliver AT_FRONT as it was at the acceptance. -/
theorem CommitTo.atFront_flag {s t : State} (h : CommitTo s t) : t.rsp.flags.atFront = atFront s := by
  cases h with
  | passes larger next => subst next; rfl
  | delivers smaller next => subst next; rfl

/-- Settles O38: a pass has AT_FRONT exactly when it began with an empty dictionary. -/
theorem atFrontMeansEmptyDictionary : Obligations.AtFrontMeansEmptyDictionary := by
  unfold Obligations.AtFrontMeansEmptyDictionary
  intro s t hi pin isDone h
  have front := (hi.encoding (by simp [isDone])).front
  rw [(commitTo_of_step pin isDone h).atFront_flag, front, decide_eq_true_iff]

/-! ### The two results -/

/-- Settles O36: a raw result is as long as the chunk, and an encoding is delivered only where it is smaller. -/
theorem resultNeverLongerThanTheChunk : Obligations.ResultNeverLongerThanTheChunk := by
  unfold Obligations.ResultNeverLongerThanTheChunk
  intro s t pin isDone h
  cases commitTo_of_step pin isDone h with
  | passes larger next =>
    subst next
    exact ⟨rfl, Nat.le_refl _, iff_of_true rfl rfl, iff_of_true rfl larger⟩
  | delivers smaller next =>
    subst next
    exact ⟨rfl, Nat.le_of_lt smaller, iff_of_false (Nat.ne_of_lt smaller) nofun, iff_of_false nofun (Nat.not_le.2 smaller)⟩

/-- What the commit of a raw result writes to the registers (44 R224, R225): FLUSHED whether the chunk was flushed or not. -/
theorem commitResult_raw (len : Nat) (s : State) :
    commitResult true len s = { s with
      firstPkt := false, flagsHold := atFrontOnly
      rsp := { status := .ok, flags := { compressed := false, atFront := atFront s, flushed := true }, len := len }
      rspValid := true, teState := .idle, chunk := [], doFlush := false, spanLen := len } := by
  rw [commitResult, compressFlags, Bool.or_true]
  rfl

/-- What the commit of an encoding writes (44 R225, R227): FLUSHED exactly when the chunk was flushed. -/
theorem commitResult_encoded (len : Nat) (s : State) :
    commitResult false len s = { s with
      firstPkt := false, flagsHold := noFlags
      rsp := { status := .ok, flags := { compressed := true, atFront := atFront s, flushed := s.doFlush }, len := len }
      rspValid := true, teState := .idle, chunk := [], doFlush := false, spanLen := len } := by
  rw [commitResult, compressFlags, Bool.or_false]
  rfl

/-- Settles O34: the raw copy puts the chunk at the start of OB, and the dictionary is reset. -/
theorem commitPassesIncompressibleChunksThrough : Obligations.CommitPassesIncompressibleChunksThrough := by
  unfold Obligations.CommitPassesIncompressibleChunksThrough
  intro s pin isDone full larger room
  obtain ⟨copied, kept⟩ := writeRun_spec s.chunk 0 s.obMem
  simp only [Nat.zero_add, full] at copied kept
  exact ⟨_, step_passes pin isDone larger room, commitResult_raw s.n _, copied, fun a beyond => kept a (.inr beyond),
    fun h => (mfLookup_congr rfl h).trans (mfLookup_resetDict h { s with obMem := writeRun 0 s.chunk s.obMem })⟩

/-- Settles O35: a compressed result leaves the dictionary and OB as the pass made them. -/
theorem commitDeliversTheEncoding : Obligations.CommitDeliversTheEncoding := by
  unfold Obligations.CommitDeliversTheEncoding
  intro s pin isDone smaller
  rw [step_delivers pin isDone smaller, commitResult_encoded]
  rfl

end Sys2Proof.Safety
end

section
/-! SUPPORT. The errors and the wait of 60_exceptions (R245, R248, R251, R263): the fatal overflow of a token, an illegal command word,
IDLE without a command. -/

namespace Sys2Proof.Safety

open Sys2Proof.Machine

/-! ### The fatal overflow (60 R248) -/

/-- The selector selects no command (43 R193). -/
theorem not_command_of_selected {i : Instr} {s : State} (h : Selected i s) : i.fits .command = false := by
  rcases h with ⟨x, isLiteral, -⟩ | ⟨v, d, isOffset, -⟩ | ⟨l, isLength, -⟩
  · exact not_command_of_literalByte isLiteral
  · exact not_command_of_offsetOf isOffset
  · exact not_command_of_lengthOf isLength

/-- A selected token, of whichever kind, starts with the emits of its codeword (43 R194, R195). -/
theorem exec_of_selected {i : Instr} {s : State} (h : Selected i s) : ∃ k, exec i s = afterEmits (emits i) s k := by
  rcases h with ⟨x, isLiteral, place⟩ | ⟨v, d, isOffset, place⟩ | ⟨l, isLength, place⟩
  · exact ⟨_, (exec_literal isLiteral s).trans (if_pos place)⟩
  · exact ⟨_, (exec_offset isOffset s).trans (if_pos place)⟩
  · exact ⟨_, (exec_length isLength s).trans (if_pos place)⟩

theorem exec_overflow {i : Instr} {s : State} (selected : Selected i s) (ready : AssemblerReady s)
    (room : streamPos s ≤ 8 * Config.obCap s.build s.variant) (full : ¬ Fits s i) : exec i s = .next (raiseOverflow s) := by
  have token := not_command_of_selected selected
  have beyond : 8 * Config.obCap s.build s.variant < streamPos s + (emitsString (emits i)).length := by
    rw [emitsString_emits token]
    exact Nat.lt_of_not_le full
  obtain ⟨k, runs⟩ := exec_of_selected selected
  rw [runs, afterEmits_overflow (emits i) (emits_ne_nil token) ready beyond room k]

/-- Settles O19: the next state is `raiseOverflow`'s, which keeps the variant and the host's side. -/
theorem tokenOverflowIsFatal : Obligations.TokenOverflowIsFatal := by
  unfold Obligations.TokenOverflowIsFatal
  intro i s selected ready room full
  exact ⟨_, exec_overflow selected ready room full, rfl, rfl, rfl, rfl, rfl, rfl, rfl, rfl, rfl, rfl, rfl, rfl⟩

/-! ### An illegal command word (60 R251) -/

/-- A word that matches none of the three match/mask pairs (30_encoding R92) is no command; DESTROY's mask takes the whole word. -/
theorem decodeCommand_of_no_match {c : Word} (create : c &&& 0xE7FFFFFF#32 ≠ 0x00000000#32)
    (compress : c &&& 0xDFFE0000#32 ≠ 0x40000000#32) (destroy : c ≠ 0x80000000#32) :
    decodeCommand c = .error .illegalCommand := by
  have whole : c &&& 0xFFFFFFFF#32 = c := BitVec.and_allOnes
  rw [decodeCommand, if_neg create, if_neg compress, whole, if_neg destroy]

theorem step_of_illegal {c : Word} {s : State} (pin : s.rst = false) (idle : s.teState = .idle) (taken : s.accepted = some c)
    (illegal : decodeCommand c = .error .illegalCommand) :
    step s = .next (failCmd .illegalCmd { s with accepted := none }) := by
  simp only [step_of_idle pin idle, fetchIdle, taken, illegal, perform]

/-- Settles O14: in IDLE the error entry writes only the response. -/
theorem illegalWordChangesOnlyTheResponse : Obligations.IllegalWordChangesOnlyTheResponse := by
  unfold Obligations.IllegalWordChangesOnlyTheResponse
  intro c s pin idle taken create compress destroy
  have illegal := decodeCommand_of_no_match create compress destroy
  have response := failCmd_of_idle (s := { s with accepted := none }) idle .illegalCmd
  exact ⟨(step_of_illegal pin idle taken illegal).trans (congrArg _ response), rfl⟩

/-! ### IDLE without a command (60 R263) -/

/-- Settles O41: with no word accepted and none presented, IDLE waits. -/
theorem idleLosesNothing : Obligations.IdleLosesNothing := by
  unfold Obligations.IdleLosesNothing
  intro s pin idle noneAccepted nonePresented
  simp only [step_of_idle pin idle, fetchIdle, noneAccepted, nonePresented, perform]

end Sys2Proof.Safety
end

section
/-! SUPPORT. 70_reset_and_hazards: hardware reset (R275), the command port (R282), the input port (R283), and the instruction that a step
runs (43 R194, R195, R200). -/

namespace Sys2Proof.Safety

open Sys2Proof.Machine

/-! ### Hardware reset (70 R275) -/

/-- Settles O40: with `rst` set every step is `hardReset`. -/
theorem hardwareResetFromAnyState : Obligations.HardwareResetFromAnyState := by
  unfold Obligations.HardwareResetFromAnyState
  refine ⟨fun s pin => ⟨_, step_of_rst pin, rfl, rfl, rfl, rfl, rfl⟩, rfl, rfl, rfl, rfl, rfl, ?_⟩
  decide

/-! ### The command port (70 R282) -/

theorem cmdReady_iff {s : State} : cmdReady s = true ↔ s.teState = .idle ∧ s.accepted = none := decide_eq_true_iff

/-- How a command in progress stands after a step: still in its encode pass, or completed with its response. -/
inductive CommandPortTo (t : State) : Prop where
  | inPass (busy : t.teState ≠ .idle) (quiet : t.rspValid = false)
  | completed (idle : t.teState = .idle) (free : t.accepted = none) (valid : t.rspValid = true)

/-- In both cases `cmd_ready` and `rsp_valid` are equal. -/
theorem CommandPortTo.ready_iff_valid {t : State} (h : CommandPortTo t) : cmdReady t = true ↔ t.rspValid = true := by
  rw [cmdReady_iff]
  cases h with
  | inPass busy quiet => simp [busy, quiet]
  | completed idle free valid => simp [idle, free, valid]

/-- A command's own step completes it, or for a valid COMPRESS starts the encode pass. -/
theorem CommandPortTo.of_command {c : Word} {s t : State} (h : CommandTo c s t) (free : s.accepted = none) :
    CommandPortTo t := by
  cases h with
  | fails e error next => subst next; exact .completed rfl free rfl
  | creates v absent fitsBuild next => subst next; exact .completed rfl free rfl
  | compresses f len ready pos le next => subst next; exact .inPass (by simp) (by simp)
  | destroys word next => subst next; exact .completed rfl free rfl

/-- A token keeps the pass going, unless it overflows, which completes the command with an error. -/
theorem CommandPortTo.of_token {es : List Emit} {s t : State} {k : State → State} (h : TokenEnd es s k t)
    (free : s.accepted = none) (quiet : s.rspValid = false)
    (rest : ∀ u, OnlyAssembler s u → (k u).teState ≠ .idle ∧ (k u).rspValid = u.rspValid) : CommandPortTo t := by
  cases h with
  | completes u emitted next =>
    have only := baEmits_only emitted
    obtain ⟨busy, kept⟩ := rest u only
    have same : u.rspValid = s.rspValid := by rw [only]
    subst next
    exact .inPass busy (kept.trans (same.trans quiet))
  | overflows full next => subst next; exact .completed rfl free rfl

/-- While `cmd_ready` is 0 a word has been accepted or an encode pass is running, and either keeps `rsp_valid` 0. -/
theorem Inv.quiet_of_not_ready {s : State} (hi : Inv s) (notReady : ¬ cmdReady s = true) : s.rspValid = false := by
  by_cases idle : s.teState = .idle
  · exact (hi.accepting fun free => notReady (cmdReady_iff.2 ⟨idle, free⟩)).2
  · exact (hi.encoding idle).noRsp

/-- A step with `cmd_ready = 0` goes on with the command in progress or completes it. -/
theorem StepTo.commandPort {s t : State} (h : StepTo s t) (hi : Inv s) (pin : s.rst = false)
    (notReady : ¬ cmdReady s = true) : CommandPortTo t := by
  have quiet := hi.quiet_of_not_ready notReady
  have free {q : TeState} (now : s.teState = q) (busy : q ≠ .idle) : s.accepted = none := hi.free_of_pass (now ▸ busy)
  cases h with
  | reset rst next => simp [pin] at rst
  | waits pin idle noWord empty next => exact absurd (cmdReady_iff.2 ⟨idle, noWord⟩) notReady
  | accepts pin idle noWord c cs queue next => exact absurd (cmdReady_iff.2 ⟨idle, noWord⟩) notReady
  | command pin idle c taken next => exact .of_command next rfl
  | takes pin scan short next => subst next; exact .inPass (by simp [scan]) quiet
  | finalizes pin scan full atEnd next => subst next; exact .inPass (by simp) (by simp [quiet])
  | literal pin scan full inside sel next => subst next; exact .inPass nofun quiet
  | copy pin scan full inside c d l sel next => subst next; exact .inPass nofun quiet
  | emitsLiteral pin lit x byte ends =>
    exact .of_token ends (free lit nofun) quiet fun u only => ⟨nofun, consumeFromJ_rspValid 1 u⟩
  | emitsOffset pin mat first ends =>
    refine .of_token ends (free mat nofun) quiet fun u only => ⟨?_, rfl⟩
    rw [only]
    simp [mat]
  | emitsLength pin mat second inside ends =>
    exact .of_token ends (free mat nofun) quiet fun u only => ⟨nofun, consumeFromJ_rspValid s.mLen u⟩
  | passes pin isDone larger room next => subst next; exact .completed rfl (free isDone nofun) rfl
  | delivers pin isDone smaller next => subst next; exact .completed rfl (free isDone nofun) rfl

theorem step_accepts {c : Word} {cs : List Word} {s : State} (pin : s.rst = false) (ready : cmdReady s = true)
    (presented : s.cmdQ = c :: cs) : step s = .next { s with cmdQ := cs, accepted := some c, rspValid := false } := by
  obtain ⟨idle, free⟩ := cmdReady_iff.1 ready
  simp only [step_of_idle pin idle, fetchIdle, free, presented, perform]

/-- Where a command is in progress no step takes a word: one that did would leave it accepted. -/
theorem StepTo.cmdQ_of_commandPort {s t : State} (h : StepTo s t) (port : CommandPortTo t) (after : Inv t) :
    t.cmdQ = s.cmdQ := by
  rcases h.sameHost with same | ⟨c, cs, queue, next⟩ | ⟨scan, short, next⟩
  · exact same.cmdQ
  · have taken : t.accepted ≠ none := by simp [next]
    cases port with
    | inPass busy quiet => exact absurd (after.accepting taken).1 busy
    | completed idle free valid => exact absurd free taken
  · rw [next, takeInput_cmdQ]

/-- Settles O60: acceptance by the step itself, the rest by how a command in progress stands after a step. -/
theorem commandHandshake : Obligations.CommandHandshake := by
  unfold Obligations.CommandHandshake
  intro s hi pin
  refine ⟨fun ready c cs presented => ⟨_, step_accepts pin ready presented, rfl, ?_⟩, fun low => ?_⟩
  · simp [cmdReady]
  · have notReady := Bool.eq_false_iff.1 low
    obtain ⟨t, next⟩ := noStepStops s hi
    have port := (step_cases next).commandPort hi pin notReady
    have after := everyStepKeepsTheInvariant s t hi next
    have untaken := (step_cases next).cmdQ_of_commandPort port after
    exact ⟨hi.quiet_of_not_ready notReady, t, next, untaken, port.ready_iff_valid⟩

/-! ### The input port (70 R283) -/

theorem inReady_iff {s : State} : inReady s = true ↔ s.teState = .scan ∧ s.chunk.length < s.n := decide_eq_true_iff

theorem step_takes {s : State} (pin : s.rst = false) (ready : inReady s = true) : step s = .next (takeInput s) := by
  obtain ⟨scan, short⟩ := inReady_iff.1 ready
  rw [step_of_scan pin scan, if_pos short]

theorem takeInput_append (s : State) : (takeInput s).chunk ++ (takeInput s).inQ = s.chunk ++ s.inQ := by
  rw [takeInput_chunk, takeInput_inQ, List.append_assoc, List.take_append_drop]

/-- The chunk after a transfer: all bytes presented, as far as `n` allows. -/
theorem length_takeInput_chunk {s : State} (short : s.chunk.length < s.n) :
    (takeInput s).chunk.length = min s.n (s.chunk.length + s.inQ.length) := by
  rw [takeInput_chunk, List.length_append, List.length_take]
  omega

/-- After a transfer `in_ready` is 0 exactly when the chunk is complete. -/
theorem not_inReady_takeInput_iff {s : State} (scan : s.teState = .scan) (short : s.chunk.length < s.n) :
    inReady (takeInput s) = false ↔ (takeInput s).chunk.length = s.n := by
  have most : (takeInput s).chunk.length ≤ s.n := by
    rw [length_takeInput_chunk short]
    exact Nat.min_le_left _ _
  rw [← Bool.not_eq_true, inReady_iff, takeInput_teState, takeInput_n]
  simp only [scan, true_and]
  omega

/-- Settles O29: a step with `in_ready = 1` is the transfer, and no other step takes a byte. -/
theorem inputTransferTakesExactlyTheChunk : Obligations.InputTransferTakesExactlyTheChunk := by
  unfold Obligations.InputTransferTakesExactlyTheChunk
  intro s pin
  refine ⟨inReady_iff, fun ready => ?_, fun notReady t next => ?_⟩
  · obtain ⟨scan, short⟩ := inReady_iff.1 ready
    exact ⟨_, step_takes pin ready, rfl, takeInput_append s, length_takeInput_chunk short, not_inReady_takeInput_iff scan short⟩
  · rcases (step_cases next).sameHost with same | ⟨c, cs, queue, rfl⟩ | ⟨scan, short, -⟩
    · exact same.inQ
    · rfl
    · exact absurd (inReady_iff.2 ⟨scan, short⟩) (by simp [notReady])

/-! ### The instruction that a step runs (43 R194, R195, 30_encoding R100) -/

theorem decodeCommand_of_decode {c : Word} {i : Instr} (read : decode .command (natBits 32 c.toNat) = .ok (i, [])) :
    decodeCommand c = .ok i := by
  have back := decode_command_natBits c []
  rw [List.append_nil] at back
  cases decoded : decodeCommand c with
  | error e => exact nomatch (back.2 e decoded).symm.trans read
  | ok k =>
    cases (back.1 k decoded).symm.trans read
    rfl

theorem step_of_accepted {c : Word} {i : Instr} {s : State} (pin : s.rst = false) (idle : s.teState = .idle)
    (taken : s.accepted = some c) (decoded : decodeCommand c = .ok i) : step s = exec i { s with accepted := none } := by
  simp only [step_of_idle pin idle, fetchIdle, taken, decoded, perform]

/-- The code of a token format decodes to that format. -/
theorem CodeOf.eq_of_decode {p : Position} (hp : p ≠ .command) {i k : Instr} {es : List Emit} (h : CodeOf p k es)
    (read : decode p (emitsString es) = .ok (i, [])) : i = k := by
  have back := decode_encode_of_token hp h.fits []
  rw [List.append_nil, ← h.codeword] at back
  cases back.symm.trans read
  rfl

/-- No instruction is read from the code of an empty emit list, which has no bits (R100). -/
theorem ne_nil_of_decode {p : Position} {es : List Emit} {r : Instr × List Bool} (read : decode p (emitsString es) = .ok r) :
    es ≠ [] := by
  rintro rfl
  cases p with
  | command => cases read
  | token v => cases v <;> cases read
  | length v => cases read

/-- Where the default table's entry for a distance decodes, the table codes the distance: elsewhere the entry is empty (R100). -/
theorem codesOff_of_decode {v : Variant} {d : Nat} {p : Position} {r : Instr × List Bool}
    (read : decode p (emitsString ((defaultCodes v).off d)) = .ok r) : CodesOff (defaultCodes v) d :=
  by_contra fun outside => ne_nil_of_decode read (if_neg outside)

theorem codesLen_of_decode {v : Variant} {l : Nat} {p : Position} {r : Instr × List Bool}
    (read : decode p (emitsString ((defaultCodes v).len l)) = .ok r) : CodesLen (defaultCodes v) l :=
  by_contra fun outside => ne_nil_of_decode read (if_neg outside)

/-- Where the session has the default table's code for `x[j]`, the format read from it is carried out as that code. -/
theorem exec_decoded_literal {s : State} {x : Byte} {i : Instr} (lit : s.teState = .emitLiteral)
    (byte : s.chunk[s.j]? = some x) (same : (sessionTable s).lit x = (defaultCodes s.variant).lit x)
    (read : decode (.token s.variant) (emitsString ((sessionTable s).lit x)) = .ok (i, [])) :
    exec i s = emitLiteral ((sessionTable s).lit x) s := by
  obtain ⟨stands, code⟩ := default_lit s.variant x
  rw [← same] at code
  rw [code.eq_of_decode (by simp) read, exec_literal stands, runLiteral, if_pos ⟨lit, byte, code.row⟩, ← code.row]

theorem exec_decoded_offset {s : State} {i : Instr} (mat : s.teState = .emitMatch) (first : s.offSent = false)
    (same : (sessionTable s).off s.mD = (defaultCodes s.variant).off s.mD)
    (read : decode (.token s.variant) (emitsString ((sessionTable s).off s.mD)) = .ok (i, [])) :
    exec i s = emitOffset ((sessionTable s).off s.mD) s := by
  obtain ⟨k, stands, code⟩ := default_off (codesOff_of_decode (same ▸ read))
  rw [← same] at code
  rw [code.eq_of_decode (by simp) read, exec_offset stands, runOffset, if_pos ⟨mat, first, rfl, rfl, code.row⟩, ← code.row]

theorem exec_decoded_length {s : State} {i : Instr} (mat : s.teState = .emitMatch) (second : s.offSent = true)
    (same : (sessionTable s).len s.mLen = (defaultCodes s.variant).len s.mLen)
    (read : decode (.length s.variant) (emitsString ((sessionTable s).len s.mLen)) = .ok (i, [])) :
    exec i s = emitLength ((sessionTable s).len s.mLen) s := by
  obtain ⟨k, stands, code⟩ := default_len (codesLen_of_decode (same ▸ read))
  rw [← same] at code
  rw [code.eq_of_decode (by simp) read, exec_length stands, runLength, if_pos ⟨mat, second, rfl, code.row⟩, ← code.row]

/-- Settles O21: in IDLE the word accepted; inside a pass the step is the emit of the session's code, and so is `exec` of the format that
the code decodes to. -/
theorem stepRunsTheDecodedInstruction : Obligations.StepRunsTheDecodedInstruction := by
  unfold Obligations.StepRunsTheDecodedInstruction
  intro s pin
  refine ⟨fun i c idle taken read => step_of_accepted pin idle taken (decodeCommand_of_decode read),
    fun x lit byte => ?literal, fun mat first => ?offset, fun mat second => ?length⟩
  case literal =>
    have runs := step_of_literal pin lit byte
    exact ⟨runs, fun i same read => runs.trans (exec_decoded_literal lit byte same read).symm⟩
  case offset =>
    have runs := step_of_offset pin mat first
    exact ⟨runs, fun i same read => runs.trans (exec_decoded_offset mat first same read).symm⟩
  case length =>
    have runs := step_of_length pin mat second
    exact ⟨runs, fun i same read => runs.trans (exec_decoded_length mat second same read).symm⟩

end Sys2Proof.Safety
end

section
/-! SUPPORT. The sparse stores (20_memory R60): every operation that writes HB, OB or HT keeps the canonical form. -/

namespace Sys2Proof.Safety

open Sys2Proof.Machine

/-- Consumes reach no further than the chunk. -/
theorem consumeSpan_min (s : State) (p l : Nat) (u : State) :
    consumeSpan s p l u = consumeSpan s p (min l (s.chunk.length - p)) u := by
  have bytes : (s.chunk.drop p).take l = (s.chunk.drop p).take (min l (s.chunk.length - p)) := by
    rw [List.take_eq_take_min, List.length_drop]
  rw [consumeSpan, bytes, ← consumeSpan]

/-- The consumes of any number of positions keep HB and HT canonical: past the end of the chunk there is none. -/
theorem consumeFromJ_rising {s : State} (hb : rising s.hbMem = true) (ht : rising s.ht.entries = true) (l : Nat) :
    rising (consumeFromJ l s).hbMem = true ∧ rising (consumeFromJ l s).ht.entries = true := by
  rw [consumeFromJ_eq, consumeSpan_min]
  by_cases inside : s.j ≤ s.chunk.length
  · exact consumeSpan_rising s (by omega) hb ht
  · have past : s.chunk.length - s.j = 0 := by omega
    rw [past, Nat.min_zero, consumeSpan_zero]
    exact ⟨hb, ht⟩

/-- Settles O28: HB and HT are written one unit at a time or in their values only, OB by emits and by the raw copy. -/
theorem memoryOperationsKeepTheCanonicalForm : Obligations.MemoryOperationsKeepTheCanonicalForm := by
  unfold Obligations.MemoryOperationsKeepTheCanonicalForm
  intro s hb ob ht
  refine ⟨fun x => ?append, fun h o => ?record, ?clear, consumeFromJ_rising hb ht, fun es t emitted => baEmits_wf emitted ob,
    fun xs => writeRun_wf xs 0 _ ob⟩
  case append =>
    rw [hbAppend_hbMem]
    exact rising_writeCell _ _ _ hb
  case record =>
    rw [mfRecord_ht]
    exact rising_writeCell _ _ _ ht
  case clear =>
    rw [mfClear_ht]
    exact rising_map invalidated _ ht

end Sys2Proof.Safety
end

section
/-! SUPPORT. What `exec` refuses (log 9): a command outside IDLE, a token outside its place in the sequence (70 R279, 43 R198). -/

namespace Sys2Proof.Safety

open Sys2Proof.Machine

/-- Each of the three commands asks for IDLE first. -/
theorem exec_command_refused {i : Instr} {s : State} (command : i.fits .command = true) (busy : s.teState ≠ .idle) :
    exec i s = .refused .commandInProgress := by
  cases i with
  | create c => exact if_pos busy
  | compress f len => exact if_pos busy
  | destroy => exact if_pos busy
  | _ => cases command

/-- Each kind of token asks for the place that `Selected` gives it. -/
theorem exec_token_refused {i : Instr} {s : State} (token : i.fits .command = false) (elsewhere : ¬ Selected i s) :
    exec i s = .refused .tokenNotSelected := by
  rcases token_kind i token with ⟨x, isLiteral⟩ | ⟨v, d, isOffset⟩ | ⟨l, isLength⟩
  · exact (exec_literal isLiteral s).trans (if_neg fun place => elsewhere (.inl ⟨x, isLiteral, place⟩))
  · exact (exec_offset isOffset s).trans (if_neg fun place => elsewhere (.inr (.inl ⟨v, d, isOffset, place⟩)))
  · exact (exec_length isLength s).trans (if_neg fun place => elsewhere (.inr (.inr ⟨l, isLength, place⟩)))

/-- Settles O20: the refusal of a command and that of a token. -/
theorem refusedOutsideItsPlace : Obligations.RefusedOutsideItsPlace := by
  unfold Obligations.RefusedOutsideItsPlace
  exact fun i s => ⟨exec_command_refused, exec_token_refused⟩

end Sys2Proof.Safety
end
